-- ==== Sys2Proof/Word.lean ====
section
/-! DEFINITION. The words of FDB: register words, bytes, samples, and the 8-pixel line of format B. -/

namespace Sys2Proof

/-- A 32-bit register or command word (10_state.md R21, 30_encoding.md R90). -/
abbrev Word := BitVec 32

/-- A byte of `MEM` (20_memory.md R60). -/
abbrev Byte := BitVec 8

/-- A signed 16-bit PCM sample, two's complement (10_state.md R39). -/
abbrev Sample := BitVec 16

/-- A format B pixel: 0, 1 or 2 (10_state.md R38, 43_frame_b.md R241). -/
abbrev Pix := Fin 3

/-- A line type code, two bits (30_encoding.md R104). -/
abbrev LineCode := BitVec 2

/-- One row of 256 one-bit format A pixels: pixel x is bit x (10_state.md R36). -/
abbrev RowA := BitVec 256

/-- Eight format B pixels, positions 0 to 7 from left to right: an entry of a line dictionary
(43_frame_b.md R240). -/
structure Line where
  px0 : Pix
  px1 : Pix
  px2 : Pix
  px3 : Pix
  px4 : Pix
  px5 : Pix
  px6 : Pix
  px7 : Pix
deriving DecidableEq, Repr, Inhabited

end Sys2Proof
end

