-- ==== Sys2Proof/Syntax.lean ====
section
/-! DEFINITION. The instructions: one constructor per row of spec/opcode_table.json. -/

namespace Sys2Proof

/-- The 28 rows of the opcode table, in its order: 16 command words (30_encoding.md R92), 4 line types
(R104), 8 tile types (R106). A command carries its `IMM8` where the row leaves those bits open; `ARG0` and
`ARG1` are registers (R94). The data of a line type and the fields of a tile type stand in the stream after
the code and are read by the meaning, one by one, as the spec's pseudocode reads them. -/
inductive Instr where
  | seekSet
  | seekCur
  | seekEnd
  | bitsReset
  | bitsRead (n : Byte)
  | adpcmAInit
  | adpcmADecode
  | adpcmBInit (clean : Byte)
  | adpcmBDecode
  | faReset
  | faDecodeAt
  | faDecodeFrame
  | fbReset
  | fbDecodeLayer (k : Byte)
  | fbDecodeFrame
  | reset
  | lineBlank
  | lineSparse
  | lineInvSparse
  | lineRaw
  | tileCommon
  | tileFull
  | tileCommonAlt
  | tileFullAlt
  | tileRows
  | tileSkip
  | tileReserved
  | tilePattern
deriving DecidableEq, Repr

end Sys2Proof
end

