-- ==== Sys2Proof/WellFormed.lean ====
section
/-! DEFINITION. Which instructions are well formed: the legal `IMM8` sets of 30_encoding.md R93. -/

namespace Sys2Proof

/-- `IMM8` is in the legal set of R93. An ill-formed command still decodes and its meaning raises the fault
R93 names; see log 12. -/
def Instr.wellFormed : Instr → Bool
  | .bitsRead n => decide (1 ≤ n.toNat ∧ n.toNat ≤ 16)
  | .adpcmBInit c => decide (c.toNat ≤ 1)
  | .fbDecodeLayer k => decide (k.toNat ≤ 2)
  | .seekSet => true
  | .seekCur => true
  | .seekEnd => true
  | .bitsReset => true
  | .adpcmAInit => true
  | .adpcmADecode => true
  | .adpcmBDecode => true
  | .faReset => true
  | .faDecodeAt => true
  | .faDecodeFrame => true
  | .fbReset => true
  | .fbDecodeFrame => true
  | .reset => true
  | .lineBlank => true
  | .lineSparse => true
  | .lineInvSparse => true
  | .lineRaw => true
  | .tileCommon => true
  | .tileFull => true
  | .tileCommonAlt => true
  | .tileFullAlt => true
  | .tileRows => true
  | .tileSkip => true
  | .tileReserved => true
  | .tilePattern => true

end Sys2Proof
end

