-- ==== Sys2Proof/Decode.lean ====
section
/-! DEFINITION. The decoder, total on every word, and after it the encoder: command words (30_encoding.md
R90 to R96), line-type codes (R103, R104) and tile-type codes (R106, R107). -/

namespace Sys2Proof

/-- Why a command word is rejected: 30_encoding.md R91 step 2, and step 3 for the opcodes whose only legal
`IMM8` is 0. -/
inductive DecodeError where
  | illegalCmd (w : Word)
deriving DecidableEq, Repr

/-- Field `OP` of a command word (R90). -/
def opField (w : Word) : Byte := w.extractLsb' 0 8
/-- Field `IMM8` of a command word (R90). -/
def imm8Field (w : Word) : Byte := w.extractLsb' 8 8
/-- Field `RSV` of a command word (R90). -/
def rsvField (w : Word) : BitVec 16 := w.extractLsb' 16 16

/-- The rows of the opcode map (R92) whose `IMM8` is an operand (R93). -/
def operandOp (op imm : Byte) : Option Instr :=
  if op = 0x09#8 then some (.bitsRead imm)
  else if op = 0x12#8 then some (.adpcmBInit imm)
  else if op = 0x31#8 then some (.fbDecodeLayer imm)
  else none

/-- The rows of the opcode map (R92) whose only legal `IMM8` is 0 (R93). -/
def plainOp (op : Byte) : Option Instr :=
  if op = 0x01#8 then some .seekSet
  else if op = 0x02#8 then some .seekCur
  else if op = 0x03#8 then some .seekEnd
  else if op = 0x08#8 then some .bitsReset
  else if op = 0x10#8 then some .adpcmAInit
  else if op = 0x11#8 then some .adpcmADecode
  else if op = 0x13#8 then some .adpcmBDecode
  else if op = 0x20#8 then some .faReset
  else if op = 0x21#8 then some .faDecodeAt
  else if op = 0x22#8 then some .faDecodeFrame
  else if op = 0x30#8 then some .fbReset
  else if op = 0x32#8 then some .fbDecodeFrame
  else if op = 0xFF#8 then some .reset
  else none

/-- R91 steps 2 and 3. A word whose `IMM8` is outside the set of `BITS_READ`, `ADPCM_B_INIT` or
`FB_DECODE_LAYER` decodes to that (ill-formed) instruction, whose meaning raises the fault R93 names
(log 12). -/
def decodeCmd (w : Word) : Except DecodeError Instr :=
  if rsvField w ≠ 0#16 then .error (.illegalCmd w)
  else
    match operandOp (opField w) (imm8Field w) with
    | some i => .ok i
    | none =>
      if imm8Field w ≠ 0#8 then .error (.illegalCmd w)
      else
        match plainOp (opField w) with
        | some i => .ok i
        | none => .error (.illegalCmd w)

/-- The line type of a two-bit code (R104): all four codes are defined. -/
def decodeLine (c : LineCode) : Instr :=
  if c = 0#2 then .lineBlank
  else if c = 1#2 then .lineSparse
  else if c = 2#2 then .lineInvSparse
  else .lineRaw

/-- The tile type of a three-bit code (R106, R107). -/
def decodeTile (t : BitVec 3) : Instr :=
  if t = 0#3 then .tileCommon
  else if t = 1#3 then .tileFull
  else if t = 2#3 then .tileCommonAlt
  else if t = 3#3 then .tileFullAlt
  else if t = 4#3 then .tileRows
  else if t = 5#3 then .tileSkip
  else if t = 6#3 then .tileReserved
  else .tilePattern

/-- An instruction's own bits: a command word, a line-type code or a tile-type code. -/
inductive Code where
  | cmd (w : Word)
  | line (c : LineCode)
  | tile (t : BitVec 3)
deriving DecidableEq, Repr

/-- The one decoder over the three formats. -/
def decode : Code → Except DecodeError Instr
  | .cmd w => decodeCmd w
  | .line c => .ok (decodeLine c)
  | .tile t => .ok (decodeTile t)

/-- The command word `{RSV = 0, IMM8, OP}` (R90, R97). -/
def cmdWord (op imm : Byte) : Word := 0#16 ++ (imm ++ op)

/-- The encoder, from the opcode map (R92), the line types (R104) and the tile types (R106). -/
def encode : Instr → Code
  | .seekSet => .cmd (cmdWord 0x01#8 0#8)
  | .seekCur => .cmd (cmdWord 0x02#8 0#8)
  | .seekEnd => .cmd (cmdWord 0x03#8 0#8)
  | .bitsReset => .cmd (cmdWord 0x08#8 0#8)
  | .bitsRead n => .cmd (cmdWord 0x09#8 n)
  | .adpcmAInit => .cmd (cmdWord 0x10#8 0#8)
  | .adpcmADecode => .cmd (cmdWord 0x11#8 0#8)
  | .adpcmBInit c => .cmd (cmdWord 0x12#8 c)
  | .adpcmBDecode => .cmd (cmdWord 0x13#8 0#8)
  | .faReset => .cmd (cmdWord 0x20#8 0#8)
  | .faDecodeAt => .cmd (cmdWord 0x21#8 0#8)
  | .faDecodeFrame => .cmd (cmdWord 0x22#8 0#8)
  | .fbReset => .cmd (cmdWord 0x30#8 0#8)
  | .fbDecodeLayer k => .cmd (cmdWord 0x31#8 k)
  | .fbDecodeFrame => .cmd (cmdWord 0x32#8 0#8)
  | .reset => .cmd (cmdWord 0xFF#8 0#8)
  | .lineBlank => .line 0#2
  | .lineSparse => .line 1#2
  | .lineInvSparse => .line 2#2
  | .lineRaw => .line 3#2
  | .tileCommon => .tile 0#3
  | .tileFull => .tile 1#3
  | .tileCommonAlt => .tile 2#3
  | .tileFullAlt => .tile 3#3
  | .tileRows => .tile 4#3
  | .tileSkip => .tile 5#3
  | .tileReserved => .tile 6#3
  | .tilePattern => .tile 7#3

/-- The code that `nbits` bits of value `w` stand for, as the opcode table numbers them. A table row of 32
bits is a command word, of 2 bits a line type, of 3 bits a tile type. In whole bytes a line type and a tile
type both have 8 bits, and the values 0 to 3 stand for a row of each format: they are read as the line
type, every other byte as a tile record's first byte (log 11). -/
def codeOfTable (nbits w : Nat) : Option Code :=
  if nbits = 32 then if w < 2 ^ 32 then some (.cmd (BitVec.ofNat 32 w)) else none
  else if nbits = 2 then if w < 4 then some (.line (BitVec.ofNat 2 w)) else none
  else if nbits = 3 then if w < 8 then some (.tile (BitVec.ofNat 3 w)) else none
  else if nbits = 8 then
    if w < 4 then some (.line (BitVec.ofNat 2 w))
    else if w < 256 then some (.tile (BitVec.ofNat 3 w))
    else none
  else none

/-- The instruction the decoder reads from the table's word `w` of `nbits` bits. -/
def decodeTableWord (nbits w : Nat) : Option Instr :=
  match codeOfTable nbits w with
  | some c => (decode c).toOption
  | none => none

end Sys2Proof
end

