-- ==== Sys2Proof/Machine/Sparse.lean ====
section
/-! DEFINITION. The one store behind `MEM`, the layer buffers and the line-type buffer: a list of (key, value)
pairs in canonical form, keys strictly rising and no value equal to what an unlisted key reads as. -/

namespace Sys2Proof.Machine

/-- A sparse store; every unlisted key reads as a default `d` that each operation is given. -/
abbrev Sparse (α : Type) := List (Nat × α)

/-- The value at a key. -/
def Sparse.get {α : Type} (d : α) : Sparse α → Nat → α
  | [], _ => d
  | (a, v) :: m, b => if a = b then v else Sparse.get d m b

/-- Write one key, keeping the canonical form: writing the default removes the entry. -/
def Sparse.set {α : Type} [DecidableEq α] (d : α) : Sparse α → Nat → α → Sparse α
  | [], b, v => if v = d then [] else [(b, v)]
  | (a, w) :: m, b, v =>
    if b < a then (if v = d then (a, w) :: m else (b, v) :: (a, w) :: m)
    else if b = a then (if v = d then m else (b, v) :: m)
    else (a, w) :: Sparse.set d m b v

/-- The store that holds `f i` at the `n` keys from `i` on. -/
def Sparse.tabulate {α : Type} [DecidableEq α] (d : α) (f : Nat → α) : Nat → Nat → Sparse α
  | _, 0 => []
  | i, n + 1 =>
    if f i = d then Sparse.tabulate d f (i + 1) n
    else (i, f i) :: Sparse.tabulate d f (i + 1) n

/-- The canonical form. -/
def Sparse.wf {α : Type} [DecidableEq α] (d : α) : Sparse α → Bool
  | [] => true
  | (a, v) :: m => decide (v ≠ d) && m.all (fun e => decide (a < e.1)) && Sparse.wf d m

/-- Every listed key is below `n`. -/
def Sparse.below {α : Type} (n : Nat) (m : Sparse α) : Bool := m.all fun e => decide (e.1 < n)

end Sys2Proof.Machine
end

