-- ==== Sys2Proof/Config.lean ====
section
/-! DEFINITION. What is fixed for a launch (00_scope.md R8), and the free values: constants without a body,
of which nothing can be proved, for what the spec leaves unspecified. -/

namespace Sys2Proof

/-- `LINE_TABLE_ORDER`: where format A's line-type tables stand (42_frame_a.md R196). -/
inductive LineTableOrder where
  | tablesFirst
  | interleaved
deriving DecidableEq, Repr

/-- `TILE6_POLICY`: what the reserved tile type does (43_frame_b.md R258). -/
inductive Tile6Policy where
  | fault
  | noOp
deriving DecidableEq, Repr

/-- One record of `FRAME_META_B` (43_frame_b.md R270): the frame's start, its three layer lengths and its
diff flag. The spec gives the numbers no width (log 15). -/
structure FrameMetaB where
  off   : Nat
  size0 : Nat
  size1 : Nat
  size2 : Nat
  diff  : BitVec 3
deriving DecidableEq, Repr

/-- The configuration parameters of 00_scope.md R8 (`MEM` and `LEN` stand in the state beside it). The
length of a frame table is its frame count. -/
structure Config where
  frameOffsetA    : List Word
  frameMetaB      : List FrameMetaB
  commonLineIndex : Vector (Fin 6561) 32
  lineTableOrder  : LineTableOrder
  tile6Policy     : Tile6Policy
  pcmCap          : Option Nat
  fdbVersion      : String
deriving DecidableEq, Repr

/-- `SENTINEL_B`, the layer length that means "unchanged" (00_scope.md R7). -/
abbrev Config.sentinelB : Nat := 38
/-- `B2_THRESHOLD`: below it a format B code has two bits (00_scope.md R7). -/
abbrev Config.b2Threshold : Nat := 18
/-- `AIDX_MAX` (00_scope.md R7). -/
abbrev Config.aidxMax : Nat := 88
/-- `BIDX_MAX` (00_scope.md R7). -/
abbrev Config.bidxMax : Nat := 79
/-- `BIDX_INIT`: 40, or 0 in "cleaner" mode (00_scope.md R7). -/
abbrev Config.bidxInit : Nat := 40

/-! Free values: parameters the spec leaves `OPEN` with no default (log 3). -/

/-- `COMMON_LINE_INDEX[19..31]` (43_frame_b.md R243: `OPEN`). -/
opaque Config.openCommonLine : Nat → Fin 6561
/-- `FDB_VERSION` (00_scope.md R2: it takes no value from any source). -/
opaque Config.openFdbVersion : String

/-! Free values: the havoc of 60_exceptions.md R305, one draw for each raised fault (log 8). -/

opaque Config.havocOffset   : Nat → Word
opaque Config.havocAcc      : Nat → Word
opaque Config.havocDfc      : Nat → BitVec 5
opaque Config.havocApred    : Nat → Word
opaque Config.havocAidx     : Nat → BitVec 7
opaque Config.havocBpred    : Nat → Word
opaque Config.havocBidx     : Nat → BitVec 7
opaque Config.havocLastA    : Nat → Word
opaque Config.havocLastB    : Nat → Word
opaque Config.havocPcmCount : Nat → Word
opaque Config.havocPcm      : Nat → List Sample
/-- Row y of `L_A[k]`: arguments draw, k, y. -/
opaque Config.havocRowLA    : Nat → Nat → Nat → RowA
/-- Row y of `P_A[k]`: arguments draw, k, y. -/
opaque Config.havocRowPA    : Nat → Nat → Nat → RowA
/-- Elements 8g to 8g + 7 of `L_B[k]`: arguments draw, k, g. -/
opaque Config.havocSegLB    : Nat → Nat → Nat → Line

/-- What `PCMCOUNT` holds when a sample is appended to 2^32 − 1 or more of them: its 32 bits cannot hold
the number, and no rule states what they hold then (log 9). -/
opaque Config.pcmCountPastWidth : Nat → Word
/-- What a host read of `PCM_OUT[i]` gives where `PCMCOUNT` counts more samples than `PCM_OUT` holds, which
only those two free values can bring about (log 8, log 9). -/
opaque Config.samplePastEnd : Nat → Sample

end Sys2Proof
end

