-- ==== Sys2Proof/Machine/Tables.lean ====
section
/-! DEFINITION. The read-only tables of 10_state.md R40, and format B's tile traversal. -/

namespace Sys2Proof.Machine

/-- `STEP[0..89]` (41_adpcm.md R151; the values are the spec's general-knowledge ones, log 13). -/
def stepTable : List Nat :=
  [7, 8, 9, 10, 11, 12, 13, 14, 16, 17] ++
  [19, 21, 23, 25, 28, 31, 34, 37, 41, 45] ++
  [50, 55, 60, 66, 73, 80, 88, 97, 107, 118] ++
  [130, 143, 157, 173, 190, 209, 230, 253, 279, 307] ++
  [337, 371, 408, 449, 494, 544, 598, 658, 724, 796] ++
  [876, 963, 1060, 1166, 1282, 1411, 1552, 1707, 1878, 2066] ++
  [2272, 2499, 2749, 3024, 3327, 3660, 4026, 4428, 4871, 5358] ++
  [5894, 6484, 7132, 7845, 8630, 9493, 10442, 11487, 12635, 13899] ++
  [15289, 16818, 18500, 20350, 22385, 24623, 27086, 29794, 32767, 0]

/-- `STEP[i]`. No reachable unfaulted state asks past entry 88 (R151, log 14). -/
def stepSize (i : BitVec 7) : Nat := stepTable.getD i.toNat 0

/-- `IDX4[c]` (41_adpcm.md R152): it depends on `c[2:0]` only. -/
def idx4 (c : BitVec 4) : Int :=
  if c.getLsbD 2 = false then -1
  else if c.getLsbD 1 = false then (if c.getLsbD 0 = false then 2 else 4)
  else (if c.getLsbD 0 = false then 6 else 8)

/-- `IDX2[c]` (41_adpcm.md R152). -/
def idx2 (c : BitVec 2) : Int := if c.getLsbD 0 = false then -1 else 2

/-- The pixel at a line position (positions 0 to 7). -/
def linePx (l : Line) (c : Nat) : Pix :=
  match c with
  | 0 => l.px0
  | 1 => l.px1
  | 2 => l.px2
  | 3 => l.px3
  | 4 => l.px4
  | 5 => l.px5
  | 6 => l.px6
  | _ => l.px7

/-- A line rotated left by one: position p takes position p + 1 mod 8 (43_frame_b.md R240). -/
def rotateLine (l : Line) : Line := ⟨l.px1, l.px2, l.px3, l.px4, l.px5, l.px6, l.px7, l.px0⟩

/-- The base-3 digit of `v` of weight `w`, a power of 3. -/
def digit3 (v w : Nat) : Pix := Fin.ofNat 3 (v / w)

/-- `FULL[v]` (43_frame_b.md R240): digits a to h, most significant first, stored as b a d c f e h g. -/
def fullEntry (v : Nat) : Line :=
  ⟨digit3 v 729, digit3 v 2187, digit3 v 81, digit3 v 243,
   digit3 v 9, digit3 v 27, digit3 v 1, digit3 v 3⟩

/-- `SHIFT[v]` (43_frame_b.md R240). -/
def shiftEntry (v : Nat) : Line := rotateLine (fullEntry v)

/-- `COMMON_LINE_INDEX[k]`. -/
def commonIndex (cfg : Config) (k : BitVec 5) : Nat := (cfg.commonLineIndex[k.toFin]).val

/-- `COMMON[k]` (43_frame_b.md R243). -/
def commonEntry (cfg : Config) (k : BitVec 5) : Line := fullEntry (commonIndex cfg k)

/-- `COMMON_SHIFT[k]` (43_frame_b.md R244). -/
def commonShiftEntry (cfg : Config) (k : BitVec 5) : Line := shiftEntry (commonIndex cfg k)

/-- `TileOrder()` (43_frame_b.md R246): the top-left pixel of each micro tile, in order. -/
def tileOrder : List (Nat × Nat) :=
  [0, 128].flatMap fun MY =>
    [0, 128, 256].flatMap fun MX =>
      (List.range 16).flatMap fun i =>
        if MY + 8 * i < 240 then
          (List.range 16).flatMap fun j =>
            if MX + 8 * j < 320 then [(MX + 8 * j, MY + 8 * i)] else []
        else []

/-- The top-left pixel of a slot (43_frame_b.md R247). -/
def slotXY (slot : Nat) : Nat × Nat := tileOrder.getD slot (0, 0)

/-- The pattern table (43_frame_b.md R257): whether row `r` of pattern `q` takes line A. -/
def patternTakesA (q : BitVec 2) (r : Nat) : Bool :=
  if q = 0#2 then r % 2 == 0
  else if q = 1#2 then r % 3 != 2
  else if q = 2#2 then r % 3 != 1
  else r % 3 == 0

/-- `COMMON_LINE_INDEX[0..18]`, the spec's general-knowledge values (43_frame_b.md R243, log 3). -/
def knownCommonLines : List (Fin 6561) :=
  [0x0000, 0x0CD0, 0x19A0, 0x02D9, 0x088B, 0x0051, 0x00F3, 0x0009, 0x001B, 0x0001] ++
  [0x0003, 0x05B2, 0x1116, 0x00A2, 0x01E6, 0x0012, 0x0036, 0x0002, 0x0006]

/-- The configuration before a launch: the defaults of 00_scope.md R8, free values where R8 gives none
(log 3). -/
def defaultConfig : Config where
  frameOffsetA := []
  frameMetaB := []
  commonLineIndex := Vector.ofFn fun k => knownCommonLines.getD k.val (Config.openCommonLine k.val)
  lineTableOrder := .tablesFirst
  tile6Policy := .fault
  pcmCap := none
  fdbVersion := Config.openFdbVersion

end Sys2Proof.Machine
end

