-- ==== Sys2Proof/Machine/State.lean ====
section
/-! DEFINITION. The state of FDB (10_state.md), the reasons a step can stop, and the state after power-on
reset (70_reset_and_hazards.md R340). -/

namespace Sys2Proof.Machine

/-- A format A layer, element y·256 + x being bit x of row y (10_state.md R36); unlisted rows are 0. -/
abbrev LayerA := Sparse RowA

/-- A format B layer, element p being position p mod 8 of segment p / 8 (10_state.md R38); unlisted
segments are 0. -/
abbrev LayerB := Sparse Line

/-- `L_A[0..1]` or `P_A[0..1]` (10_state.md R36, R37). -/
structure LayersA where
  l0 : LayerA
  l1 : LayerA
deriving DecidableEq, Repr

/-- `L_B[0..2]` (10_state.md R38). -/
structure LayersB where
  l0 : LayerB
  l1 : LayerB
  l2 : LayerB
deriving DecidableEq, Repr

/-- Which sequencer fetches next: the host port, format A's line loop (42_frame_a.md R198) or format B's
tile loop (43_frame_b.md R245). -/
inductive Seq where
  | command
  | lines
  | tiles
deriving DecidableEq, Repr

/-- The state that lives only within one command (10_state.md R41): `T_A` (line y of layer k at key
192k + y), `SKIP`, and the variables of the two decode loops. -/
structure Inner where
  seq    : Seq
  tA     : Sparse LineCode
  skip   : BitVec 5
  layerA : Fin 2
  lineA  : Fin 192
  layerB : Fin 3
  slot   : Fin 1200
deriving DecidableEq, Repr

/-- No command is running. -/
def Inner.idle : Inner where
  seq := .command
  tA := []
  skip := 0
  layerA := 0
  lineA := 0
  layerB := 0
  slot := 0

/-- One access of the host to the port (20_memory.md R73, 10_state.md R20, R42). -/
inductive HostAccess where
  | writeReg (reg : Nat) (v : Word)
  | readReg (reg : Nat)
  | readLA (k p : Nat)
  | readPA (k p : Nat)
  | readLB (k p : Nat)
  | readPcm (i : Nat)
deriving DecidableEq, Repr

/-- Everything the spec gives the machine (10_state.md), its input (`mem`, `len`, `cfg`, `host`) and the
model's counter of free-value draws (`draws`). -/
structure State where
  cmd      : Word
  arg0     : Word
  arg1     : Word
  result   : Word
  status   : Word
  offset   : Word
  len      : Word
  acc      : Word
  dfc      : BitVec 5
  apred    : Word
  aidx     : BitVec 7
  bpred    : Word
  bidx     : BitVec 7
  lastA    : Word
  lastB    : Word
  pcmCount : Word
  finfo    : Word
  lA       : LayersA
  pA       : LayersA
  lB       : LayersB
  pcm      : List Sample
  mem      : List Host.Cell
  cfg      : Config
  inner    : Inner
  host     : List HostAccess
  draws    : Nat
deriving DecidableEq, Repr

/-- Why the machine stops with a fault of the MODEL: never. A fault FDB raises (60_exceptions.md R301) is a
next state in which `STATUS.FAULTED` is 1 (log 7); no rule of the spec stops the block, so there is no
constructor, and no instruction can end this way. -/
inductive Fault where
deriving DecidableEq, Repr

/-- Why a step has no meaning. All of them are safe: the model stops where the spec has no step. -/
inductive Refusal where
  /-- An instruction `exec` rejects by name; raised by no arm of this model. Safe. -/
  | notModelled (mnemonic : String)
  /-- Raised by the host port for an access to register number 0x11 or above: "the model has no host step
  for it" (10_state.md R42). Safe. -/
  | unmappedRegister (reg : Nat)
  /-- Raised by the host port for a read of a buffer element that does not exist: "the model has no host
  step for it" (20_memory.md R73). Safe. -/
  | noSuchElement (index : Nat)
deriving DecidableEq, Repr

/-- `NONE`: no indexed frame is cached (10_state.md R33). -/
def noFrame : Word := 0xFFFFFFFF#32

/-- The state after power-on reset (70_reset_and_hazards.md R340), before a launch has placed `MEM`, `LEN` and
the configuration (log 2, log 3). -/
def State.reset : State where
  cmd := 0
  arg0 := 0
  arg1 := 0
  result := 0
  status := 0
  offset := 0
  len := 0
  acc := 0
  dfc := 16
  apred := 0
  aidx := 0
  bpred := 0
  bidx := 40
  lastA := noFrame
  lastB := noFrame
  pcmCount := 0
  finfo := 0
  lA := ⟨[], []⟩
  pA := ⟨[], []⟩
  lB := ⟨[], [], []⟩
  pcm := []
  mem := []
  cfg := defaultConfig
  inner := Inner.idle
  host := []
  draws := 0

end Sys2Proof.Machine
end

