-- ==== Sys2Proof/Machine/Flags.lean ====
section
/-! DEFINITION. `STATUS` and its fields (10_state.md R22), and the fault codes (60_exceptions.md R300). FDB has
no condition codes (R22), so these are all its flags. -/

namespace Sys2Proof.Machine

/-- The faults of 60_exceptions.md R300. -/
inductive FaultCode where
  | illegalCmd
  | bounds
  | seekRange
  | badWidth
  | reservedTile
  | frameRange
  | badLayer
  | badIndex
deriving DecidableEq, Repr

/-- The value of `FCODE` for a fault (R300). -/
def fcodeOf : FaultCode → Byte
  | .illegalCmd => 0x01
  | .bounds => 0x02
  | .seekRange => 0x03
  | .badWidth => 0x04
  | .reservedTile => 0x05
  | .frameRange => 0x06
  | .badLayer => 0x07
  | .badIndex => 0x08

/-- `STATUS.FAULTED` (R22). -/
def statusFaulted (st : Word) : Bool := st.getLsbD 0

/-- `STATUS.FCODE` (R22). -/
def statusFcode (st : Word) : Byte := st.extractLsb' 8 8

/-- `STATUS.FAULTED ← 1; STATUS.FCODE ← code`, the other bits kept (60_exceptions.md R301). -/
def statusWithFault (st : Word) (code : Byte) : Word :=
  (st &&& 0xFFFF00FE#32) ||| (code.setWidth 32 <<< 8) ||| 1#32

/-- The block is in the faulted state. -/
def State.faulted (s : State) : Bool := statusFaulted s.status

end Sys2Proof.Machine
end

