-- ==== Sys2Proof/Machine/Ops.lean ====
section
/-! DEFINITION. The shared operations: `MemRead` and the typed reads (20_memory.md), `ReadBits`
(40_cursor.md R129), the loops, raising a fault (60_exceptions.md R301, R305), and the stores over the layer
buffers. -/

namespace Sys2Proof.Machine

/-- `raise F(info)`: the fault and the value `FINFO` takes modulo 2^32 (60_exceptions.md R300, R301). -/
structure Raised where
  code : FaultCode
  info : Int
deriving DecidableEq, Repr

/-- A part of a command: it goes on with a value, or a raise has ended the command. -/
abbrev Run (α : Type) := Except Raised α

/-! ## Raising a fault and completing an instruction -/

/-- The three-layer buffer with unspecified contents. -/
def havocLayersB (n : Nat) : LayersB :=
  ⟨Sparse.tabulate default (Config.havocSegLB n 0) 0 9600,
   Sparse.tabulate default (Config.havocSegLB n 1) 0 9600,
   Sparse.tabulate default (Config.havocSegLB n 2) 0 9600⟩

/-- A two-layer buffer whose rows are given. -/
def havocLayersA (row : Nat → Nat → RowA) : LayersA :=
  ⟨Sparse.tabulate 0 (row 0) 0 192, Sparse.tabulate 0 (row 1) 0 192⟩

/-- The havoc of 60_exceptions.md R305: each component it lists takes an unspecified value of its type, a
free value of the next draw; everything else is kept, and no command is running any more (log 8). -/
def havoc (s : State) : State :=
  { s with
    offset := Config.havocOffset s.draws
    acc := Config.havocAcc s.draws
    dfc := Config.havocDfc s.draws
    apred := Config.havocApred s.draws
    aidx := Config.havocAidx s.draws
    bpred := Config.havocBpred s.draws
    bidx := Config.havocBidx s.draws
    lastA := Config.havocLastA s.draws
    lastB := Config.havocLastB s.draws
    pcmCount := Config.havocPcmCount s.draws
    pcm := Config.havocPcm s.draws
    lA := havocLayersA (Config.havocRowLA s.draws)
    pA := havocLayersA (Config.havocRowPA s.draws)
    lB := havocLayersB s.draws
    inner := Inner.idle
    draws := s.draws + 1 }

/-- TAKING A FAULT (60_exceptions.md R301, R305): `STATUS` and `FINFO` record it unless an earlier one is
recorded, the components R305 lists become havoc, and nothing else changes. `s` is the state in which the
command began: no command changes a kept component before it raises. -/
def raise (r : Raised) (s : State) : State :=
  if s.faulted then s
  else
    { havoc s with
      status := statusWithFault s.status (fcodeOf r.code)
      finfo := BitVec.ofInt 32 r.info }

/-- How every instruction but `RESET` ends: refused while faulted (60_exceptions.md R306: nothing changes),
else in its own next state, else in the state its raise leaves. -/
def attempt (s : State) (r : Run State) : Host.Outcome State Fault Refusal :=
  if s.faulted then .next s
  else
    match r with
    | .ok s' => .next s'
    | .error f => .next (raise f s)

/-- `for i in start .. start + n − 1`, a raise ending the loop. -/
def forRange (f : Nat → State → Run State) : Nat → Nat → State → Run State
  | _, 0, s => .ok s
  | i, n + 1, s => do
    let s' ← f i s
    forRange f (i + 1) n s'

/-- A part of a command that runs only under a condition. -/
def runIf (c : Bool) (f : State → Run State) (s : State) : Run State := if c then f s else .ok s

/-! ## The input buffer and the byte cursor -/

/-- The byte `MEM[a]`; the list of cells names every byte that is not 0 (log 1). -/
def State.byteAt (s : State) (a : Nat) : Byte := Sparse.get 0 s.mem a

/-- `MemRead(addr, n)` (20_memory.md R63): the `n` bytes from `addr`, or `BOUNDS(addr)`. -/
def memRead (addr n : Nat) (s : State) : Run (List Byte) :=
  if addr + n > s.len.toNat then .error ⟨.bounds, addr⟩
  else .ok ((List.range n).map fun j => s.byteAt (addr + j))

/-- The byte cursor moved on by `n`. -/
def State.advance (s : State) (n : Nat) : State := { s with offset := s.offset + BitVec.ofNat 32 n }

/-- `ReadU8()` (20_memory.md R64). -/
def readU8 (s : State) : Run (Byte × State) := do
  let b ← memRead s.offset.toNat 1 s
  .ok (b.getD 0 0, s.advance 1)

/-- `ReadI8()` (20_memory.md R65): the byte as a signed number. -/
def readI8 (s : State) : Run (Int × State) := do
  let r ← readU8 s
  .ok (r.1.toInt, r.2)

/-- `ReadU16LE()` (20_memory.md R66). -/
def readU16LE (s : State) : Run (BitVec 16 × State) := do
  let b ← memRead s.offset.toNat 2 s
  .ok (b.getD 1 0 ++ b.getD 0 0, s.advance 2)

/-- `ReadU32BE()` (20_memory.md R67). -/
def readU32BE (s : State) : Run (Word × State) := do
  let b ← memRead s.offset.toNat 4 s
  .ok (b.getD 0 0 ++ b.getD 1 0 ++ b.getD 2 0 ++ b.getD 3 0, s.advance 4)

/-! ## The bit cursor -/

/-- The bit cursor put into the 16-bit-deficit state (40_cursor.md R128). -/
def State.resetBits (s : State) : State := { s with acc := 0, dfc := 16 }

/-- The low `n` bits of the accumulator (40_cursor.md R129: the `(1<<n)-1` mask). -/
def lowBits (n : Nat) (acc : Word) : Word := acc &&& ((1#32 <<< n) - 1#32)

/-- Take `n` bits out of an accumulator that holds them, leaving the deficit `d` (40_cursor.md R129). -/
def takeBits (n : Nat) (acc : Word) (d : Nat) (s : State) : Word × State :=
  (lowBits n acc, { s with acc := acc >>> n, dfc := BitVec.ofNat 5 d })

/-- `ReadBits(n)` for 1 ≤ n ≤ 16 (40_cursor.md R129). A refill shifts the new word above the 16 − `DFC`
unconsumed bits; it may raise `BOUNDS` before anything changes. -/
def readBits (n : Nat) (s : State) : Run (Word × State) :=
  if s.dfc.toNat + n > 16 then do
    let r ← readU16LE s
    .ok (takeBits n (s.acc ||| (r.1.setWidth 32 <<< (16 - s.dfc.toNat))) (s.dfc.toNat + n - 16) r.2)
  else .ok (takeBits n s.acc (s.dfc.toNat + n) s)

/-! ## The layer buffers -/

/-- Layer `k` of a two-layer buffer. -/
def LayersA.layer (l : LayersA) (k : Fin 2) : LayerA := if k = 0 then l.l0 else l.l1

/-- A two-layer buffer with layer `k` replaced. -/
def LayersA.withLayer (l : LayersA) (k : Fin 2) (v : LayerA) : LayersA :=
  if k = 0 then { l with l0 := v } else { l with l1 := v }

/-- Layer `k` of the three-layer buffer. -/
def LayersB.layer (l : LayersB) (k : Fin 3) : LayerB :=
  if k = 0 then l.l0 else if k = 1 then l.l1 else l.l2

/-- The three-layer buffer with layer `k` replaced. -/
def LayersB.withLayer (l : LayersB) (k : Fin 3) (v : LayerB) : LayersB :=
  if k = 0 then { l with l0 := v } else if k = 1 then { l with l1 := v } else { l with l2 := v }

/-- Row y of a format A layer. -/
def rowA (l : LayerA) (y : Nat) : RowA := Sparse.get 0 l y

/-- Element p of a format A layer (10_state.md R36). -/
def pixelA (l : LayerA) (p : Nat) : Bool := (rowA l (p / 256)).getLsbD (p % 256)

/-- Element p of a format B layer (10_state.md R38). -/
def pixelB (l : LayerB) (p : Nat) : Pix := linePx (Sparse.get default l (p / 8)) (p % 8)

/-- Replace row y of layer k of `L_A`. -/
def State.setRowA (s : State) (k : Fin 2) (y : Nat) (v : RowA) : State :=
  { s with lA := s.lA.withLayer k (Sparse.set 0 (s.lA.layer k) y v) }

/-- Replace elements 8g to 8g + 7 of layer k of `L_B`. -/
def State.setSegB (s : State) (k : Fin 3) (g : Nat) (v : Line) : State :=
  { s with lB := s.lB.withLayer k (Sparse.set default (s.lB.layer k) g v) }

/-- A frame cache holds index `i`; `NONE` equals no integer (42_frame_a.md R222, 10_state.md R33). -/
def cacheIs (r : Word) (i : Int) : Bool := decide (r ≠ noFrame ∧ (r.toNat : Int) = i)

end Sys2Proof.Machine
end

