-- ==== Sys2Proof/Machine/Operands.lean ====
section
/-! DEFINITION. Operand forms: `ARG0` and `ARG1` per opcode (30_encoding.md R94), the ADPCM codes of a byte
(R109, R110), the line-type codes of a table byte (R103), and the dictionary lines a tile record names
(R106). -/

namespace Sys2Proof.Machine

/-- `ARG0` as an unsigned number: target position, track start, frame or layer start, frame index. -/
def argUnsigned (s : State) : Nat := s.arg0.toNat

/-- `ARG0` as `sext_32`: a displacement. -/
def argSigned (s : State) : Int := s.arg0.toInt

/-- `ARG1` as an unsigned number: a track's byte length. -/
def argLength (s : State) : Nat := s.arg1.toNat

/-- The low nibble of a byte, decoded first (R109). -/
def lowNibble (b : Byte) : BitVec 4 := b.extractLsb' 0 4

/-- The high nibble of a byte, decoded second (R109). -/
def highNibble (b : Byte) : BitVec 4 := b.extractLsb' 4 4

/-- The 2-bit code at bit position `pos` of a byte (R110). -/
def code2At (b : Byte) (pos : Nat) : BitVec 2 := b.extractLsb' pos 2

/-- The 4-bit code at bit position `pos` of a byte (R110). -/
def code4At (b : Byte) (pos : Nat) : BitVec 4 := b.extractLsb' pos 4

/-- The type of line 4j + m in byte j of a line-type table: bits [2m+1 : 2m] (R103). -/
def lineCodeAt (b : Byte) (m : Nat) : LineCode := b.extractLsb' (2 * m) 2

/-- `FullLine(v)` (43_frame_b.md R250, R279). -/
def fullLine (v : Nat) : Run Line :=
  if v ≤ 6560 then .ok (fullEntry v) else .error ⟨.badIndex, v⟩

/-- `ShiftLine(v)` (43_frame_b.md R252, R279). -/
def shiftLine (v : Nat) : Run Line :=
  if v ≤ 6560 then .ok (shiftEntry v) else .error ⟨.badIndex, v⟩

/-- Read an `IDX5` field: an index into the common dictionary (R106). -/
def readIdx5 (s : State) : Run (BitVec 5 × State) := do
  let r ← readBits 5 s
  .ok (r.1.setWidth 5, r.2)

/-- Read an `IDX13` field: an index into the full dictionary (R106). -/
def readIdx13 (s : State) : Run (Nat × State) := do
  let r ← readBits 13 s
  .ok (r.1.toNat, r.2)

/-- Read the line a field names: an `IDX5` from the common dictionary, or an `IDX13` from the full one
(43_frame_b.md R253, R256); an index past the full dictionary raises at once (R279). -/
def readLine (common : Bool) (s : State) : Run (Line × State) :=
  if common then do
    let r ← readIdx5 s
    .ok (commonEntry s.cfg r.1, r.2)
  else do
    let r ← readIdx13 s
    let l ← fullLine r.1
    .ok (l, r.2)

end Sys2Proof.Machine
end

