-- ==== Sys2Proof/Machine/Adpcm.lean ====
section
/-! DEFINITION. The ADPCM decoder commands (41_adpcm.md). -/

namespace Sys2Proof.Machine

/-- `clamp(v, lo, hi)` (00_scope.md R11). -/
def clampInt (v lo hi : Int) : Int := min hi (max lo v)

/-- The magnitude of a 4-bit code's difference for step size `s` (41_adpcm.md R155, R161). -/
def magnitude4 (c : BitVec 4) (s : Nat) : Nat :=
  s / 8 + (if c.getLsbD 0 then s / 4 else 0) + (if c.getLsbD 1 then s / 2 else 0)
    + (if c.getLsbD 2 then s else 0)

/-- The difference of a 4-bit code: bit 3 negates (41_adpcm.md R155, R161). -/
def diff4 (c : BitVec 4) (s : Nat) : Int :=
  if c.getLsbD 3 then -(magnitude4 c s : Int) else magnitude4 c s

/-- The difference of a 2-bit code (41_adpcm.md R160). -/
def diff2 (c : BitVec 2) (s : Nat) : Int :=
  if c.getLsbD 1 then -((s / 8 + (if c.getLsbD 0 then s else 0) : Nat) : Int)
  else ((s / 8 + (if c.getLsbD 0 then s else 0) : Nat) : Int)

/-- `PCMCOUNT + 1`, a free value once the count leaves the register's 32 bits (log 9). -/
def nextPcmCount (c : Word) (samples : Nat) : Word :=
  if c.toNat + 1 < 2 ^ 32 then c + 1#32 else Config.pcmCountPastWidth samples

/-- Append one sample to `PCM_OUT` and count it (41_adpcm.md R155). -/
def State.appendSample (s : State) (v : Int) : State :=
  { s with
    pcm := s.pcm ++ [BitVec.ofInt 16 v]
    pcmCount := nextPcmCount s.pcmCount s.pcm.length }

/-- `emit` of variant B (41_adpcm.md R162, R163): `PCM_CAP` drops samples past it. -/
def State.emitB (s : State) (v : Int) : State :=
  match s.cfg.pcmCap with
  | none => s.appendSample v
  | some cap => if s.pcmCount.toNat < cap then s.appendSample v else s

/-- `PCM_OUT` and `PCMCOUNT` emptied (41_adpcm.md R153, R158). -/
def State.emptyPcm (s : State) : State := { s with pcm := [], pcmCount := 0 }

/-- `StepA(c)` (41_adpcm.md R155): the step size is read at the old index. -/
def stepA (c : BitVec 4) (s : State) : State :=
  let p := clampInt (s.apred.toInt + diff4 c (stepSize s.aidx)) (-32768) 32767
  let i := clampInt ((s.aidx.toNat : Int) + idx4 c) 0 Config.aidxMax
  { s with apred := BitVec.ofInt 32 p, aidx := BitVec.ofInt 7 i }.appendSample p

/-- Variant A's two codes of a byte, low nibble first (41_adpcm.md R154). -/
def stepAByte (b : Byte) (s : State) : State := stepA (highNibble b) (stepA (lowNibble b) s)

/-- Variant B's state after a code whose difference is `d` and whose index delta is `x`, with its sample
emitted (41_adpcm.md R160 to R162). -/
def stepB (d x : Int) (s : State) : State :=
  let p := clampInt (s.bpred.toInt + d) (-2048) 2047
  let i := clampInt ((s.bidx.toNat : Int) + x) 0 Config.bidxMax
  { s with bpred := BitVec.ofInt 32 p, bidx := BitVec.ofInt 7 i }.emitB (p * 16)

/-- `StepB2(c)` (41_adpcm.md R160). -/
def stepB2 (c : BitVec 2) (s : State) : State := stepB (diff2 c (stepSize s.bidx)) (idx2 c) s

/-- `StepB4(c)` (41_adpcm.md R161). -/
def stepB4 (c : BitVec 4) (s : State) : State := stepB (diff4 c (stepSize s.bidx)) (idx4 c) s

/-- The walk over one byte from bit position `pos` (41_adpcm.md R159); `fuel` codes at most, and 4 are
always enough because each takes 2 bits or more. -/
def stepBWalk (b : Byte) : Nat → Nat → State → State
  | 0, _, s => s
  | fuel + 1, pos, s =>
    if pos < 8 then
      if s.bidx.toNat < Config.b2Threshold ∨ pos > 4 then
        stepBWalk b fuel (pos + 2) (stepB2 (code2At b pos) s)
      else stepBWalk b fuel (pos + 4) (stepB4 (code4At b pos) s)
    else s

/-- `StepBByte(b)` (41_adpcm.md R159). -/
def stepBByte (b : Byte) (s : State) : State := stepBWalk b 4 0 s

/-- Feed the `n` bytes of `MEM` from `p` to a byte step, in order. -/
def feedBytes (f : Byte → State → State) : Nat → Nat → State → State
  | _, 0, s => s
  | p, n + 1, s => feedBytes f (p + 1) n (f (s.byteAt p) s)

/-- Decode a byte range (41_adpcm.md R157, R163): the whole range is checked before any state changes, so no
read in the loop can raise. -/
def decodeTrack (f : Byte → State → State) (s : State) : Run State :=
  if argUnsigned s + argLength s > s.len.toNat then .error ⟨.bounds, argUnsigned s⟩
  else .ok (feedBytes f (argUnsigned s) (argLength s) s)

/-- `ADPCM_A_INIT` (41_adpcm.md R153). -/
def execAdpcmAInit (s : State) : Host.Outcome State Fault Refusal :=
  attempt s (.ok { s with apred := 0, aidx := 0 }.emptyPcm)

/-- `ADPCM_A_DECODE` (41_adpcm.md R157). -/
def execAdpcmADecode (s : State) : Host.Outcome State Fault Refusal :=
  attempt s (decodeTrack stepAByte s)

/-- The effect of `ADPCM_B_INIT c` (41_adpcm.md R158). -/
def adpcmBInitBody (c : Byte) (s : State) : Run State :=
  if c.toNat > 1 then .error ⟨.illegalCmd, s.cmd.toNat⟩
  else
    .ok { s with
      bpred := 0
      bidx := if c.toNat = 1 then 0 else BitVec.ofNat 7 Config.bidxInit }.emptyPcm

/-- `ADPCM_B_INIT c` (41_adpcm.md R158). -/
def execAdpcmBInit (c : Byte) (s : State) : Host.Outcome State Fault Refusal :=
  attempt s (adpcmBInitBody c s)

/-- `ADPCM_B_DECODE` (41_adpcm.md R163). -/
def execAdpcmBDecode (s : State) : Host.Outcome State Fault Refusal :=
  attempt s (decodeTrack stepBByte s)

end Sys2Proof.Machine
end

