-- ==== Sys2Proof/Machine/Control.lean ====
section
/-! DEFINITION. `RESET` (70_reset_and_hazards.md R341). -/

namespace Sys2Proof.Machine

/-- `RESET` (70_reset_and_hazards.md R341): every component at its power-on value but `CMD`, which holds the
word just written; `MEM`, `LEN`, the configuration, the host's later accesses and the count of draws are no
part of what is reset. It is the one command accepted while faulted (60_exceptions.md R306). -/
def execReset (s : State) : Host.Outcome State Fault Refusal :=
  .next { State.reset with
    cmd := 0x000000FF#32
    len := s.len
    mem := s.mem
    cfg := s.cfg
    host := s.host
    draws := s.draws }

end Sys2Proof.Machine
end

