-- ==== Sys2Proof/Machine/Cursor.lean ====
section
/-! DEFINITION. The byte cursor and bit cursor commands (40_cursor.md). -/

namespace Sys2Proof.Machine

/-- Move the byte cursor to `t`, or raise `SEEK_RANGE(t)` when `t` is outside [0, `LEN`]
(40_cursor.md R120 to R122). -/
def seekTo (t : Int) (s : State) : Run State :=
  if t < 0 ∨ t > (s.len.toNat : Int) then .error ⟨.seekRange, t⟩
  else .ok { s with offset := BitVec.ofInt 32 t }

/-- `SEEK_SET` (40_cursor.md R120). -/
def execSeekSet (s : State) : Host.Outcome State Fault Refusal :=
  attempt s (seekTo (argUnsigned s) s)

/-- `SEEK_CUR` (40_cursor.md R121). -/
def execSeekCur (s : State) : Host.Outcome State Fault Refusal :=
  attempt s (seekTo (s.offset.toNat + argSigned s) s)

/-- `SEEK_END` (40_cursor.md R122): the signed value is added. -/
def execSeekEnd (s : State) : Host.Outcome State Fault Refusal :=
  attempt s (seekTo (s.len.toNat + argSigned s) s)

/-- `BITS_RESET` (40_cursor.md R128). -/
def execBitsReset (s : State) : Host.Outcome State Fault Refusal :=
  attempt s (.ok s.resetBits)

/-- The effect of `BITS_READ n` (40_cursor.md R130). -/
def bitsReadBody (n : Byte) (s : State) : Run State :=
  if n.toNat < 1 ∨ n.toNat > 16 then .error ⟨.badWidth, n.toNat⟩
  else do
    let r ← readBits n.toNat s
    .ok { r.2 with result := r.1 }

/-- `BITS_READ n` (40_cursor.md R130). -/
def execBitsRead (n : Byte) (s : State) : Host.Outcome State Fault Refusal :=
  attempt s (bitsReadBody n s)

end Sys2Proof.Machine
end

