-- ==== Sys2Proof/Machine/FrameA.lean ====
section
/-! DEFINITION. The format A frame line decoder (42_frame_a.md): the line types, one frame record, frame
sequencing, and the commands. -/

namespace Sys2Proof.Machine

/-! ## Line types. Each acts on line `inner.lineA` of layer `inner.layerA`. -/

/-- A row with chunk `c` (pixels 8c to 8c + 7) replaced by a byte, bit p of it at pixel 8c + p
(42_frame_a.md R203). -/
def putChunk (row : RowA) (c : Nat) (b : Byte) : RowA :=
  (row &&& ~~~(0xFF#256 <<< (8 * c))) ||| (b.setWidth 256 <<< (8 * c))

/-- `WriteChunk(k, y, c, b)` (42_frame_a.md R203). -/
def writeChunk (c : Nat) (b : Byte) (s : State) : State :=
  s.setRowA s.inner.layerA s.inner.lineA.val
    (putChunk (rowA (s.lA.layer s.inner.layerA) s.inner.lineA.val) c b)

/-- Read one chunk byte and write it. -/
def readChunk (c : Nat) (s : State) : Run State := do
  let r ← readU8 s
  .ok (writeChunk c r.1 r.2)

/-- Chunk `c` of a masked line: present when mask bit 31 − c is 1 (42_frame_a.md R200). -/
def maskedChunk (m : Word) (c : Nat) (s : State) : Run State :=
  runIf (m.getLsbD (31 - c)) (readChunk c) s

/-- `LineBlank` (42_frame_a.md R199). -/
def lineBlankBody (s : State) : Run State := .ok s

/-- `LineSparse` (42_frame_a.md R200). -/
def lineSparseBody (s : State) : Run State := do
  let r ← readU32BE s
  forRange (maskedChunk r.1) 0 32 r.2

/-- `LineInverted` (42_frame_a.md R201): the line is filled with 1 after the mask is read. -/
def lineInvSparseBody (s : State) : Run State := do
  let r ← readU32BE s
  forRange (maskedChunk r.1) 0 32
    (r.2.setRowA r.2.inner.layerA r.2.inner.lineA.val (BitVec.allOnes 256))

/-- `LineRaw` (42_frame_a.md R202). -/
def lineRawBody (s : State) : Run State := forRange readChunk 0 32 s

/-- `LINE_BLANK` (42_frame_a.md R199). -/
def execLineBlank (s : State) : Host.Outcome State Fault Refusal := attempt s (lineBlankBody s)

/-- `LINE_SPARSE` (42_frame_a.md R200). -/
def execLineSparse (s : State) : Host.Outcome State Fault Refusal := attempt s (lineSparseBody s)

/-- `LINE_INV_SPARSE` (42_frame_a.md R201). -/
def execLineInvSparse (s : State) : Host.Outcome State Fault Refusal :=
  attempt s (lineInvSparseBody s)

/-- `LINE_RAW` (42_frame_a.md R202). -/
def execLineRaw (s : State) : Host.Outcome State Fault Refusal := attempt s (lineRawBody s)

/-! ## One frame record -/

/-- `T_A[k][y]` (10_state.md R41). -/
def lineTypeOf (s : State) (k : Fin 2) (y : Nat) : LineCode :=
  Sparse.get 0 s.inner.tA (192 * k.val + y)

/-- `T_A[k][y] ← c`. -/
def State.setLineType (s : State) (k : Fin 2) (y : Nat) (c : LineCode) : State :=
  { s with inner := { s.inner with tA := Sparse.set 0 s.inner.tA (192 * k.val + y) c } }

/-- Byte j of a line-type table (42_frame_a.md R195): four codes, lowest bits first. -/
def unpackByte (k : Fin 2) (j : Nat) (s : State) : Run State := do
  let r ← readU8 s
  .ok ((((r.2.setLineType k (4 * j) (lineCodeAt r.1 0)).setLineType k (4 * j + 1)
    (lineCodeAt r.1 1)).setLineType k (4 * j + 2) (lineCodeAt r.1 2)).setLineType k (4 * j + 3)
    (lineCodeAt r.1 3))

/-- `UnpackTypes(k)` (42_frame_a.md R195). -/
def unpackTypes (k : Fin 2) (s : State) : Run State := forRange (unpackByte k) 0 48 s

/-- The effect of a line type (42_frame_a.md R198). -/
def lineBody (c : LineCode) (s : State) : Run State :=
  if c = 0#2 then lineBlankBody s
  else if c = 1#2 then lineSparseBody s
  else if c = 2#2 then lineInvSparseBody s
  else lineRawBody s

/-- The line loop placed at line y of layer k. -/
def State.atLine (s : State) (k : Fin 2) (y : Nat) : State :=
  { s with inner := { s.inner with seq := .lines, layerA := k, lineA := Fin.ofNat 192 y } }

/-- Line y of layer k, by its type (42_frame_a.md R198). -/
def decodeLineAt (k : Fin 2) (y : Nat) (s : State) : Run State :=
  lineBody (lineTypeOf s k y) (s.atLine k y)

/-- `DecodeLines(k)` (42_frame_a.md R198). -/
def decodeLines (k : Fin 2) (s : State) : Run State := forRange (decodeLineAt k) 0 192 s

/-- A row moved right by `tx` pixels (left when negative), 0 moved in: pixel x is pixel x − tx
(42_frame_a.md R204). -/
def shiftRow (tx : Int) (row : RowA) : RowA :=
  if 0 ≤ tx then row <<< tx.toNat else row >>> (-tx).toNat

/-- The row that row y is XORed with: row y − ty of the source moved by tx, 0 where the source falls outside
the frame (42_frame_a.md R204). -/
def deltaRow (tx ty : Int) (src : LayerA) (y : Nat) : RowA :=
  if 0 ≤ (y : Int) - ty ∧ (y : Int) - ty < 192 then shiftRow tx (rowA src ((y : Int) - ty).toNat) else 0

/-- A layer XORed with a source layer at a translation (42_frame_a.md R204). -/
def xorLayer (tx ty : Int) (dst src : LayerA) : LayerA :=
  Sparse.tabulate 0 (fun y => rowA dst y ^^^ deltaRow tx ty src y) 0 192

/-- `XorDelta(tx, ty)` (42_frame_a.md R204). -/
def xorDelta (tx ty : Int) (s : State) : State :=
  { s with lA := ⟨xorLayer tx ty s.lA.l0 s.pA.l0, xorLayer tx ty s.lA.l1 s.pA.l1⟩ }

/-- The header's `KEY` bit (42_frame_a.md R193). -/
def headerKey (h : Byte) : Bool := h.getLsbD 7

/-- The header's `TRANS` field is not 0 (42_frame_a.md R193). -/
def headerTranslated (h : Byte) : Bool := decide (h.extractLsb' 5 2 ≠ 0#2)

/-- The translation (42_frame_a.md R194): X, then Y, or 0, 0 without any read. -/
def readTranslation (present : Bool) (s : State) : Run ((Int × Int) × State) :=
  if present then do
    let x ← readI8 s
    let y ← readI8 x.2
    .ok ((x.1, y.1), y.2)
  else .ok ((0, 0), s)

/-- The line-type tables and the line data, in the order `LINE_TABLE_ORDER` says (42_frame_a.md R196). -/
def decodeLayersA (s : State) : Run State :=
  match s.cfg.lineTableOrder with
  | .tablesFirst => do
    let s ← unpackTypes 0 s
    let s ← unpackTypes 1 s
    let s ← decodeLines 0 s
    decodeLines 1 s
  | .interleaved => do
    let s ← unpackTypes 0 s
    let s ← decodeLines 0 s
    let s ← unpackTypes 1 s
    decodeLines 1 s

/-- The byte cursor at a frame record's start, both current layers cleared (42_frame_a.md R190, R191), and no
line type left from an earlier frame (R197). -/
def State.openFrameA (s : State) (f : Nat) : State :=
  { s with offset := BitVec.ofNat 32 f, lA := ⟨[], []⟩, inner := Inner.idle }

/-- The frame is complete: `P_A ← L_A`, and no loop is running (42_frame_a.md R206). -/
def State.closeFrameA (s : State) : State := { s with pA := s.lA, inner := Inner.idle }

/-- `DecodeBodyA(f)` (42_frame_a.md R190). -/
def decodeBodyA (f : Nat) (s : State) : Run State :=
  if f + 1 > s.len.toNat then .error ⟨.bounds, f⟩
  else do
    let h ← readU8 (s.openFrameA f)
    let t ← readTranslation (headerTranslated h.1) h.2
    let r ← decodeLayersA t.2
    .ok (if headerKey h.1 then r else xorDelta t.1.1 t.1.2 r).closeFrameA

/-! ## Frame sequencing -/

/-- A frame with header `h` needs its predecessor decoded first: it is no keyframe, and the predecessor is
not the frame last decoded (42_frame_a.md R222). -/
def needsAncestorA (h : Byte) (s : State) (i : Nat) : Bool :=
  !headerKey h && !cacheIs s.lastA ((i : Int) - 1)

/-- One level of `DecodeFrameA` (42_frame_a.md R222), given what the ancestor request does. -/
def frameStepA (i : Nat) (ancestor : State → Run State) (s : State) : Run State :=
  match s.cfg.frameOffsetA[i]? with
  | none => .error ⟨.frameRange, i⟩
  | some f =>
    if cacheIs s.lastA i then .ok s
    else do
      let h ← memRead f.toNat 1 s
      let s1 ← runIf (needsAncestorA (h.getD 0 0) s i) ancestor s
      let s2 ← decodeBodyA f.toNat s1
      .ok { s2 with lastA := BitVec.ofNat 32 i }

/-- `DecodeFrameA(i)` (42_frame_a.md R222). The ancestor of frame 0 is frame −1, which is out of range
(R223). -/
def decodeFrameA : Nat → State → Run State
  | 0, s => frameStepA 0 (fun _ => .error ⟨.frameRange, -1⟩) s
  | i + 1, s => frameStepA (i + 1) (decodeFrameA i) s

/-! ## The commands -/

/-- `FA_RESET` (42_frame_a.md R224). -/
def execFaReset (s : State) : Host.Outcome State Fault Refusal :=
  attempt s (.ok { s with lA := ⟨[], []⟩, pA := ⟨[], []⟩, lastA := noFrame })

/-- The effect of `FA_DECODE_AT` (42_frame_a.md R207). -/
def faDecodeAtBody (s : State) : Run State := do
  let r ← decodeBodyA (argUnsigned s) s
  .ok { r with lastA := noFrame }

/-- `FA_DECODE_AT` (42_frame_a.md R207). -/
def execFaDecodeAt (s : State) : Host.Outcome State Fault Refusal := attempt s (faDecodeAtBody s)

/-- `FA_DECODE_FRAME` (42_frame_a.md R221). -/
def execFaDecodeFrame (s : State) : Host.Outcome State Fault Refusal :=
  attempt s (decodeFrameA (argUnsigned s) s)

end Sys2Proof.Machine
end

