-- ==== Sys2Proof/Machine/FrameB.lean ====
section
/-! DEFINITION. The format B tile-dictionary decoder (43_frame_b.md): the tile types, one layer, frame
sequencing, and the commands. -/

namespace Sys2Proof.Machine

/-! ## Tile types. Each writes the tile of slot `inner.slot` of layer `inner.layerB`; its type field has
been read already. -/

/-- Store lines one below the other from segment `g` of layer `k`; a pixel row is 40 segments long. -/
def storeRows (k : Fin 3) : Nat → List Line → State → State
  | _, [], s => s
  | g, l :: ls, s => storeRows k (g + 40) ls (s.setSegB k g l)

/-- `WriteTile(k, x, y, Rows)` (43_frame_b.md R259): x is a multiple of 8, so row r of the tile is one
segment. -/
def writeTile (rows : List Line) (s : State) : State :=
  storeRows s.inner.layerB (40 * (slotXY s.inner.slot.val).2 + (slotXY s.inner.slot.val).1 / 8) rows s

/-- `Alt(l0, l1)` (43_frame_b.md R248). -/
def altRows (l0 l1 : Line) : List Line := [l0, l1, l0, l1, l0, l1, l0, l1]

/-- Rows `r .. r + n − 1` of tile type 4 (43_frame_b.md R253): a set flag selects the common dictionary. -/
def perRow (flags : Byte) : Nat → Nat → State → Run (List Line × State)
  | _, 0, s => .ok ([], s)
  | r, n + 1, s => do
    let l ← readLine (flags.getLsbD r) s
    let ls ← perRow flags (r + 1) n l.2
    .ok (l.1 :: ls.1, ls.2)

/-- The rows of pattern `q` (43_frame_b.md R257). -/
def patternRows (q : BitVec 2) (a b : Line) : List Line :=
  (List.range 8).map fun r => if patternTakesA q r then a else b

/-- Tile type 0 (43_frame_b.md R249). -/
def tileCommonBody (s : State) : Run State := do
  let r ← readIdx5 s
  .ok (writeTile (List.replicate 8 (commonEntry s.cfg r.1)) r.2)

/-- Tile type 1 (43_frame_b.md R250). -/
def tileFullBody (s : State) : Run State := do
  let r ← readIdx13 s
  let l ← fullLine r.1
  .ok (writeTile (List.replicate 8 l) r.2)

/-- Tile type 2 (43_frame_b.md R251). -/
def tileCommonAltBody (s : State) : Run State := do
  let r ← readIdx5 s
  .ok (writeTile (altRows (commonEntry s.cfg r.1) (commonShiftEntry s.cfg r.1)) r.2)

/-- Tile type 3 (43_frame_b.md R252). -/
def tileFullAltBody (s : State) : Run State := do
  let r ← readIdx13 s
  let l0 ← fullLine r.1
  let l1 ← shiftLine r.1
  .ok (writeTile (altRows l0 l1) r.2)

/-- Tile type 4 (43_frame_b.md R253). -/
def tileRowsBody (s : State) : Run State := do
  let f ← readBits 8 s
  let r ← perRow (f.1.setWidth 8) 0 8 f.2
  .ok (writeTile r.1 r.2)

/-- Tile type 5 (43_frame_b.md R254). -/
def tileSkipBody (s : State) : Run State := do
  let r ← readBits 5 s
  .ok { r.2 with inner := { r.2.inner with skip := r.1.setWidth 5 } }

/-- Tile type 6 (43_frame_b.md R258). -/
def tileReservedBody (s : State) : Run State :=
  match s.cfg.tile6Policy with
  | .fault => .error ⟨.reservedTile, s.inner.slot.val⟩
  | .noOp => .ok s

/-- Tile type 7 (43_frame_b.md R256), with the common-dictionary quirk. -/
def tilePatternBody (s : State) : Run State := do
  let q ← readBits 2 s
  let d ← readBits 1 q.2
  let common := d.1.getLsbD 0
  let a ← readLine common d.2
  let b ← readLine common a.2
  let pat : BitVec 2 := q.1.setWidth 2
  .ok (writeTile (patternRows (if common then pat + 1#2 else pat) a.1 b.1) b.2)

/-- `TILE_COMMON` (43_frame_b.md R249). -/
def execTileCommon (s : State) : Host.Outcome State Fault Refusal := attempt s (tileCommonBody s)

/-- `TILE_FULL` (43_frame_b.md R250). -/
def execTileFull (s : State) : Host.Outcome State Fault Refusal := attempt s (tileFullBody s)

/-- `TILE_COMMON_ALT` (43_frame_b.md R251). -/
def execTileCommonAlt (s : State) : Host.Outcome State Fault Refusal :=
  attempt s (tileCommonAltBody s)

/-- `TILE_FULL_ALT` (43_frame_b.md R252). -/
def execTileFullAlt (s : State) : Host.Outcome State Fault Refusal := attempt s (tileFullAltBody s)

/-- `TILE_ROWS` (43_frame_b.md R253). -/
def execTileRows (s : State) : Host.Outcome State Fault Refusal := attempt s (tileRowsBody s)

/-- `TILE_SKIP` (43_frame_b.md R254). -/
def execTileSkip (s : State) : Host.Outcome State Fault Refusal := attempt s (tileSkipBody s)

/-- `TILE_RESERVED` (43_frame_b.md R258). -/
def execTileReserved (s : State) : Host.Outcome State Fault Refusal :=
  attempt s (tileReservedBody s)

/-- `TILE_PATTERN` (43_frame_b.md R256). -/
def execTilePattern (s : State) : Host.Outcome State Fault Refusal := attempt s (tilePatternBody s)

/-! ## One layer -/

/-- The effect of a tile type (43_frame_b.md R248). -/
def tileBody (t : BitVec 3) (s : State) : Run State :=
  if t = 0#3 then tileCommonBody s
  else if t = 1#3 then tileFullBody s
  else if t = 2#3 then tileCommonAltBody s
  else if t = 3#3 then tileFullAltBody s
  else if t = 4#3 then tileRowsBody s
  else if t = 5#3 then tileSkipBody s
  else if t = 6#3 then tileReservedBody s
  else tilePatternBody s

/-- The type field of a tile record. -/
def readTileType (s : State) : Run (BitVec 3 × State) := do
  let r ← readBits 3 s
  .ok (r.1.setWidth 3, r.2)

/-- `DecodeTile` (43_frame_b.md R248). -/
def decodeTileRecord (s : State) : Run State := do
  let t ← readTileType s
  tileBody t.1 t.2

/-- The skip counter counted down by one. -/
def State.countSkip (s : State) : State :=
  { s with inner := { s.inner with skip := s.inner.skip - 1#5 } }

/-- The tile loop placed at a slot. -/
def State.atSlot (s : State) (slot : Nat) : State :=
  { s with inner := { s.inner with slot := Fin.ofNat 1200 slot } }

/-- One turn of the tile loop at its slot (43_frame_b.md R245). -/
def slotBody (s : State) : Run State :=
  if s.inner.skip ≠ 0#5 then .ok s.countSkip else decodeTileRecord s

/-- One turn of the tile loop. -/
def decodeSlot (slot : Nat) (s : State) : Run State := slotBody (s.atSlot slot)

/-- The byte cursor at a layer's start, the bit cursor reset, `SKIP` 0 (43_frame_b.md R245, R255). -/
def State.openLayerB (s : State) (k : Fin 3) (p : Nat) : State :=
  { s with
    offset := BitVec.ofNat 32 p
    acc := 0
    dfc := 16
    inner := { Inner.idle with seq := .tiles, layerB := k } }

/-- The layer is complete; what is left of `SKIP` is dropped (43_frame_b.md R255). -/
def State.closeLayerB (s : State) : State := { s with inner := Inner.idle }

/-- `DecodeLayerB(k, p)` (43_frame_b.md R245). -/
def decodeLayerB (k : Fin 3) (p : Nat) (s : State) : Run State :=
  if p > s.len.toNat then .error ⟨.bounds, p⟩
  else do
    let r ← forRange decodeSlot 0 1200 (s.openLayerB k p)
    .ok r.closeLayerB

/-! ## Frame sequencing -/

/-- Layer k of a frame: decoded unless it is the sentinel or masked out (43_frame_b.md R272, R274). -/
def layerIfB (k : Fin 3) (size : Nat) (mask : BitVec 3) (p : Nat) (s : State) : Run State :=
  runIf (size != Config.sentinelB && mask.getLsbD k.val) (decodeLayerB k p) s

/-- The layer loop (43_frame_b.md R273): layers 0, 1, 2, each at the sum of the sizes before it. -/
def layersB (fm : FrameMetaB) (mask : BitVec 3) (s : State) : Run State := do
  let s ← layerIfB 0 fm.size0 mask fm.off s
  let s ← layerIfB 1 fm.size1 mask (fm.off + fm.size0) s
  layerIfB 2 fm.size2 mask (fm.off + fm.size0 + fm.size1) s

/-- `FRAME_META_B[i].diff`; every request the model makes is for a record that exists (43_frame_b.md
R272). -/
def diffOf (s : State) (i : Nat) : BitVec 3 :=
  match s.cfg.frameMetaB[i]? with
  | some fm => fm.diff
  | none => 0

/-- Frame i needs its predecessor: it is not frame 0 and the predecessor is not cached (43_frame_b.md R272,
R275). -/
def needsAncestorB (s : State) (i : Nat) : Bool :=
  !cacheIs s.lastB ((i : Int) - 1) && i != 0

/-- The mask of a request (43_frame_b.md R272, R277): a request made as an ancestor leaves out the layers
whose bit of frame i + 1's diff flag is set. -/
def narrowMask (s : State) (i : Nat) (mask : BitVec 3) (isPrev : Bool) : BitVec 3 :=
  if needsAncestorB s i && isPrev then mask &&& ~~~(diffOf s (i + 1)) else mask

/-- One level of `DecodeFrameB` (43_frame_b.md R272), given what the ancestor request does. -/
def frameStepB (i : Nat) (ancestor : BitVec 3 → State → Run State) (mask : BitVec 3) (isPrev : Bool)
    (s : State) : Run State :=
  match s.cfg.frameMetaB[i]? with
  | none => .error ⟨.frameRange, i⟩
  | some fm =>
    if cacheIs s.lastB i then .ok s
    else do
      let m := narrowMask s i mask isPrev
      let s1 ← runIf (needsAncestorB s i && m != 0#3) (ancestor m) s
      let s2 ← layersB fm m s1
      .ok { s2 with lastB := BitVec.ofNat 32 i }

/-- `DecodeFrameB(i, mask, isPrev)` (43_frame_b.md R272). Frame 0 asks for no ancestor (R275). -/
def decodeFrameB : Nat → BitVec 3 → Bool → State → Run State
  | 0, mask, isPrev, s => frameStepB 0 (fun _ s => .ok s) mask isPrev s
  | i + 1, mask, isPrev, s => frameStepB (i + 1) (fun m s => decodeFrameB i m true s) mask isPrev s

/-! ## The commands -/

/-- `FB_RESET` (43_frame_b.md R276). -/
def execFbReset (s : State) : Host.Outcome State Fault Refusal :=
  attempt s (.ok { s with lB := ⟨[], [], []⟩, lastB := noFrame })

/-- The effect of `FB_DECODE_LAYER k` (43_frame_b.md R260; the check of k is 30_encoding.md R93). -/
def fbDecodeLayerBody (k : Byte) (s : State) : Run State :=
  if k.toNat > 2 then .error ⟨.badLayer, k.toNat⟩
  else do
    let r ← decodeLayerB (Fin.ofNat 3 k.toNat) (argUnsigned s) s
    .ok { r with lastB := noFrame }

/-- `FB_DECODE_LAYER k` (43_frame_b.md R260). -/
def execFbDecodeLayer (k : Byte) (s : State) : Host.Outcome State Fault Refusal :=
  attempt s (fbDecodeLayerBody k s)

/-- `FB_DECODE_FRAME` (43_frame_b.md R271). -/
def execFbDecodeFrame (s : State) : Host.Outcome State Fault Refusal :=
  attempt s (decodeFrameB (argUnsigned s) 0b111#3 false s)

end Sys2Proof.Machine
end

