-- ==== Sys2Proof/Machine/Dispatch.lean ====
section
/-! DEFINITION. One arm per instruction. -/

namespace Sys2Proof.Machine

def exec (i : Instr) (s : State) : Host.Outcome State Fault Refusal :=
  match i with
  | .seekSet => Sys2Proof.Machine.execSeekSet s
  | .seekCur => Sys2Proof.Machine.execSeekCur s
  | .seekEnd => Sys2Proof.Machine.execSeekEnd s
  | .bitsReset => Sys2Proof.Machine.execBitsReset s
  | .bitsRead n => Sys2Proof.Machine.execBitsRead n s
  | .adpcmAInit => Sys2Proof.Machine.execAdpcmAInit s
  | .adpcmADecode => Sys2Proof.Machine.execAdpcmADecode s
  | .adpcmBInit c => Sys2Proof.Machine.execAdpcmBInit c s
  | .adpcmBDecode => Sys2Proof.Machine.execAdpcmBDecode s
  | .faReset => Sys2Proof.Machine.execFaReset s
  | .faDecodeAt => Sys2Proof.Machine.execFaDecodeAt s
  | .faDecodeFrame => Sys2Proof.Machine.execFaDecodeFrame s
  | .fbReset => Sys2Proof.Machine.execFbReset s
  | .fbDecodeLayer k => Sys2Proof.Machine.execFbDecodeLayer k s
  | .fbDecodeFrame => Sys2Proof.Machine.execFbDecodeFrame s
  | .reset => Sys2Proof.Machine.execReset s
  | .lineBlank => Sys2Proof.Machine.execLineBlank s
  | .lineSparse => Sys2Proof.Machine.execLineSparse s
  | .lineInvSparse => Sys2Proof.Machine.execLineInvSparse s
  | .lineRaw => Sys2Proof.Machine.execLineRaw s
  | .tileCommon => Sys2Proof.Machine.execTileCommon s
  | .tileFull => Sys2Proof.Machine.execTileFull s
  | .tileCommonAlt => Sys2Proof.Machine.execTileCommonAlt s
  | .tileFullAlt => Sys2Proof.Machine.execTileFullAlt s
  | .tileRows => Sys2Proof.Machine.execTileRows s
  | .tileSkip => Sys2Proof.Machine.execTileSkip s
  | .tileReserved => Sys2Proof.Machine.execTileReserved s
  | .tilePattern => Sys2Proof.Machine.execTilePattern s

end Sys2Proof.Machine
end

