-- ==== Sys2Proof/Machine/Port.lean ====
section
/-! DEFINITION. The host port (10_state.md R21, R23, R42; 20_memory.md R73), how each sequencer fetches and runs its
next instruction, and how an instruction is placed where the next step fetches it. -/

namespace Sys2Proof.Machine

/-! ## What the host can read -/

/-- The register map (10_state.md R21); none for an unmapped number (R42). -/
def readReg (s : State) (reg : Nat) : Option Word :=
  match reg with
  | 0x00 => some s.cmd
  | 0x01 => some s.arg0
  | 0x02 => some s.arg1
  | 0x03 => some s.result
  | 0x04 => some s.status
  | 0x05 => some s.offset
  | 0x06 => some s.len
  | 0x07 => some s.acc
  | 0x08 => some (s.dfc.setWidth 32)
  | 0x09 => some s.apred
  | 0x0A => some (s.aidx.setWidth 32)
  | 0x0B => some s.bpred
  | 0x0C => some (s.bidx.setWidth 32)
  | 0x0D => some s.lastA
  | 0x0E => some s.lastB
  | 0x0F => some s.pcmCount
  | 0x10 => some s.finfo
  | _ => none

/-- Element p of layer k of a two-layer buffer, for `L_A` and `P_A` (20_memory.md R73): an unsigned byte. -/
def readElementA (l : LayersA) (k p : Nat) : Option Byte :=
  if k < 2 ∧ p < 49152 then some (if pixelA (l.layer (Fin.ofNat 2 k)) p then 1 else 0) else none

/-- `L_B[k][p]` (20_memory.md R73): an unsigned byte. -/
def readElementB (l : LayersB) (k p : Nat) : Option Byte :=
  if k < 3 ∧ p < 76800 then some (BitVec.ofNat 8 (pixelB (l.layer (Fin.ofNat 3 k)) p).val) else none

/-- `PCM_OUT[i]` for i < `PCMCOUNT` (20_memory.md R73). -/
def readSample (s : State) (i : Nat) : Option Sample :=
  if i < s.pcmCount.toNat then some (s.pcm.getD i (Config.samplePastEnd i)) else none

/-! ## One access of the host -/

/-- Issue the command `w` encodes (30_encoding.md R91). Step 1, the refusal while faulted, is made by each
meaning (`attempt`) and by `raise`, both of which change nothing while faulted. -/
def issue (w : Word) (s : State) : Host.Outcome State Fault Refusal :=
  match decodeCmd w with
  | .ok i => exec i s
  | .error (.illegalCmd v) => .next (raise ⟨.illegalCmd, v.toNat⟩ s)

/-- A host write (10_state.md R23, R26, R42): `CMD` stores the word and issues it, `ARG0` and `ARG1` store
it, a write to another mapped register has no effect, an unmapped register is not admitted. -/
def writeReg (reg : Nat) (v : Word) (s : State) : Host.Outcome State Fault Refusal :=
  match reg with
  | 0x00 => issue v { s with cmd := v }
  | 0x01 => .next { s with arg0 := v }
  | 0x02 => .next { s with arg1 := v }
  | r => if (readReg s r).isSome then .next s else .refused (.unmappedRegister r)

/-- A host read changes nothing; one that is not admitted has no step (log 5, log 6). -/
def admitRead {α : Type} (value : Option α) (r : Refusal) (s : State) :
    Host.Outcome State Fault Refusal :=
  match value with
  | some _ => .next s
  | none => .refused r

/-- One access of the host. -/
def hostAccess (a : HostAccess) (s : State) : Host.Outcome State Fault Refusal :=
  match a with
  | .writeReg reg v => writeReg reg v s
  | .readReg reg => admitRead (readReg s reg) (.unmappedRegister reg) s
  | .readLA k p => admitRead (readElementA s.lA k p) (.noSuchElement p) s
  | .readPA k p => admitRead (readElementA s.pA k p) (.noSuchElement p) s
  | .readLB k p => admitRead (readElementB s.lB k p) (.noSuchElement p) s
  | .readPcm i => admitRead (readSample s i) (.noSuchElement i) s

/-- The host's next access; with none pending the block is idle and holds its state (60_exceptions.md
R326, log 4). -/
def hostStep (s : State) : Host.Outcome State Fault Refusal :=
  match s.host with
  | [] => .next s
  | a :: q => hostAccess a { s with host := q }

/-! ## One turn of a decode loop (log 10) -/

/-- After a line: the next line of the layer, or the end of `DecodeLines` (42_frame_a.md R198). A raise has
ended the loop already. -/
def advanceLine (s : State) : State :=
  if s.inner.seq ≠ .lines then s
  else if s.inner.lineA.val = 191 then { s with inner := Inner.idle }
  else { s with inner := { s.inner with lineA := Fin.ofNat 192 (s.inner.lineA.val + 1) } }

/-- After a slot: the next slot, or the end of the layer (43_frame_b.md R245). -/
def advanceSlot (s : State) : State :=
  if s.inner.seq ≠ .tiles then s
  else if s.inner.slot.val = 1199 then { s with inner := Inner.idle }
  else { s with inner := { s.inner with slot := Fin.ofNat 1200 (s.inner.slot.val + 1) } }

/-- What stands around an instruction's own effect: the loop moves on when it has a next state. -/
def afterNext (f : State → State) (o : Host.Outcome State Fault Refusal) :
    Host.Outcome State Fault Refusal :=
  match o with
  | .next s => .next (f s)
  | .fault r => .fault r
  | .refused r => .refused r

/-- One turn of the line loop: fetch the type of the line and run it. -/
def lineStep (s : State) : Host.Outcome State Fault Refusal :=
  afterNext advanceLine (exec (decodeLine (lineTypeOf s s.inner.layerA s.inner.lineA.val)) s)

/-- One turn of the tile loop: a skipped slot, or the record whose type field is read next. -/
def tileStep (s : State) : Host.Outcome State Fault Refusal :=
  if s.inner.skip ≠ 0#5 then .next (advanceSlot s.countSkip)
  else
    match readTileType s with
    | .ok t => afterNext advanceSlot (exec (decodeTile t.1) t.2)
    | .error f => .next (raise f s)

/-! ## Placing an instruction where the next step fetches it (log 4) -/

/-- Store bytes into `MEM` from an address. -/
def placeBytes : Nat → List Byte → List Host.Cell → List Host.Cell
  | _, [], m => m
  | a, b :: bs, m => placeBytes (a + 1) bs (Sparse.set 0 m a b)

/-- `MEM` with bytes at `OFFSET` (at address 0 where they would pass the highest address), and `LEN` large
enough to hold them. -/
def State.withStreamBytes (s : State) (bs : List Byte) : State :=
  let a := if s.offset.toNat + bs.length < 2 ^ 32 then s.offset.toNat else 0
  { s with
    offset := BitVec.ofNat 32 a
    len := BitVec.ofNat 32 (max s.len.toNat (a + bs.length))
    mem := placeBytes a bs s.mem }

/-- A code placed where it is fetched: a command word as the host's next write to `CMD`; a line type as the
type of line 0 of layer 0 with the line loop running there; a tile type as the first bits of the stream at
`OFFSET` with the tile loop running at slot 0 of layer 0. The data after a line or tile type are zeros. -/
def placeCode (c : Code) (first : Byte) (s : State) : State :=
  match c with
  | .cmd w => { s with inner := Inner.idle, host := .writeReg 0 w :: s.host }
  | .line t =>
    { s with inner := { Inner.idle with seq := .lines, tA := Sparse.set 0 [] 0 t } }.withStreamBytes
      (List.replicate 36 0)
  | .tile _ =>
    { s with acc := 0, dfc := 16, inner := { Inner.idle with seq := .tiles } }.withStreamBytes
      (first :: List.replicate 15 0)

end Sys2Proof.Machine
end

