-- ==== Sys2Proof/Machine/Step.lean ====
section
/-! DEFINITION. One step of the machine. -/

namespace Sys2Proof.Machine

/-- One step: the host's next access when no decode loop is running (always so between commands), else one
turn of the loop. A faulted block runs no loop (60_exceptions.md R301, log 17). -/
def step (s : State) : Host.Outcome State Fault Refusal :=
  if s.faulted then hostStep s
  else
    match s.inner.seq with
    | .command => hostStep s
    | .lines => lineStep s
    | .tiles => tileStep s

/-- `s` with the table's word `w` of `nbits` bits where the next step fetches its instruction. -/
def State.withFetchWord (s : State) (nbits w : Nat) : State :=
  match codeOfTable nbits w with
  | some c => placeCode c (BitVec.ofNat 8 w) s
  | none => s

end Sys2Proof.Machine
end

