-- ==== Sys2Proof/Safety.lean ====
section
/-! DEFINITION. What holds of the state between commands (10_state.md R30 to R33, 20_memory.md R62, 41_adpcm.md
R156, R162), what a safe run is, and the words claims are stated in. -/

namespace Sys2Proof.Machine

/-- `MEM`'s list of cells is in canonical form and lists no address at or above `LEN`. -/
def State.memoryOk (s : State) : Prop :=
  Sparse.wf 0 s.mem = true ∧ Sparse.below s.len.toNat s.mem = true

/-- A format A buffer is in canonical form: rows 0 to 191, none listed as all 0. -/
def LayersA.ok (l : LayersA) : Prop :=
  Sparse.wf 0 l.l0 = true ∧ Sparse.wf 0 l.l1 = true ∧
  Sparse.below 192 l.l0 = true ∧ Sparse.below 192 l.l1 = true

/-- The format B buffer is in canonical form: segments 0 to 9599, none listed as all 0. -/
def LayersB.ok (l : LayersB) : Prop :=
  Sparse.wf default l.l0 = true ∧ Sparse.wf default l.l1 = true ∧ Sparse.wf default l.l2 = true ∧
  Sparse.below 9600 l.l0 = true ∧ Sparse.below 9600 l.l1 = true ∧ Sparse.below 9600 l.l2 = true

/-- The stored data are in their canonical forms; this holds after a fault too. -/
structure State.Stored (s : State) : Prop where
  mem : s.memoryOk
  lA : s.lA.ok
  pA : s.pA.ok
  lB : s.lB.ok

/-- Reserved bits of `STATUS` read 0; `FCODE` is 0 exactly when `FAULTED` is 0, and at most 8 (10_state.md
R22, 60_exceptions.md R300). -/
structure State.StatusLegal (s : State) : Prop where
  reserved : s.status &&& 0xFFFF00FE#32 = 0#32
  code : statusFcode s.status = 0#8 ↔ s.faulted = false
  range : (statusFcode s.status).toNat ≤ 8

/-- The bit cursor invariant (10_state.md R30) and 0 ≤ `OFFSET` ≤ `LEN` (20_memory.md R62). -/
structure State.CursorLegal (s : State) : Prop where
  low : 1 ≤ s.dfc.toNat
  high : s.dfc.toNat ≤ 16
  acc : s.acc.toNat < 2 ^ (16 - s.dfc.toNat)
  offset : s.offset.toNat ≤ s.len.toNat

/-- The ADPCM ranges (10_state.md R31, R32), and `PCMCOUNT` counts `PCM_OUT` while 32 bits can (R34). -/
structure State.AdpcmLegal (s : State) : Prop where
  apredLow : -32768 ≤ s.apred.toInt
  apredHigh : s.apred.toInt ≤ 32767
  aidx : s.aidx.toNat ≤ 88
  bpredLow : -2048 ≤ s.bpred.toInt
  bpredHigh : s.bpred.toInt ≤ 2047
  bidx : s.bidx.toNat ≤ 79
  count : s.pcm.length < 2 ^ 32 → s.pcmCount.toNat = s.pcm.length

/-- The caches name frames of their tables or none (10_state.md R33), and while format A's names one, `L_A`
and `P_A` are equal (42_frame_a.md R221); no cache is held while the matching decode loop is shown record
by record (log 10). -/
structure State.CacheLegal (s : State) : Prop where
  lastA : s.lastA ≠ noFrame → s.lastA.toNat < s.cfg.frameOffsetA.length
  lastB : s.lastB ≠ noFrame → s.lastB.toNat < s.cfg.frameMetaB.length
  same : s.lastA ≠ noFrame → s.lA = s.pA
  lines : s.inner.seq = .lines → s.lastA = noFrame
  tiles : s.inner.seq = .tiles → s.lastB = noFrame

/-- The configuration a launch admits: a frame table has at most 2^32 − 1 entries (10_state.md R33). -/
def State.ConfigLegal (s : State) : Prop :=
  s.cfg.frameOffsetA.length < 2 ^ 32 ∧ s.cfg.frameMetaB.length < 2 ^ 32

/-- The invariant of the machine. What a fault makes havoc (60_exceptions.md R305) is constrained only while
the block is not faulted, and a faulted block runs no loop. -/
structure State.Inv (s : State) : Prop where
  stored : s.Stored
  status : s.StatusLegal
  config : s.ConfigLegal
  cursor : s.faulted = false → s.CursorLegal
  adpcm : s.faulted = false → s.AdpcmLegal
  cache : s.faulted = false → s.CacheLegal
  idle : s.faulted = true → s.inner.seq = .command

/-- A safe run of `n` steps: every step has a next state, and no fault is recorded in any of them. -/
def safeRun : Nat → State → Prop
  | 0, s => s.faulted = false
  | n + 1, s => s.faulted = false ∧ ∃ t, step s = .next t ∧ safeRun n t

/-! ## Words for claims -/

/-- Everything that a fault leaves unspecified may change (60_exceptions.md R305), `STATUS` and `FINFO` record
the fault, and the rest is as before. -/
structure FaultRecorded (s t : State) (code : Byte) (info : Word) : Prop where
  faulted : t.faulted = true
  fcode : statusFcode t.status = code
  finfo : t.finfo = info
  kept : t = { s with
    status := t.status, finfo := t.finfo, offset := t.offset, acc := t.acc, dfc := t.dfc
    apred := t.apred, aidx := t.aidx, bpred := t.bpred, bidx := t.bidx, lastA := t.lastA
    lastB := t.lastB, pcmCount := t.pcmCount, pcm := t.pcm, lA := t.lA, pA := t.pA, lB := t.lB
    inner := t.inner, draws := t.draws }

/-- The opcodes of the opcode map (30_encoding.md R92). -/
def commandOps : List Byte :=
  [0x01, 0x02, 0x03, 0x08, 0x09, 0x10, 0x11, 0x12, 0x13, 0x20, 0x21, 0x22, 0x30, 0x31, 0x32, 0xFF]

/-- The opcodes with an operand in `IMM8` (30_encoding.md R93). -/
def operandOps : List Byte := [0x09, 0x12, 0x31]

/-- The big-endian word at an address (20_memory.md R67). -/
def State.wordBE (s : State) (a : Nat) : Word :=
  s.byteAt a ++ s.byteAt (a + 1) ++ s.byteAt (a + 2) ++ s.byteAt (a + 3)

/-- The bit cursor and the byte cursor may change, nothing else. -/
def CursorOnly (s t : State) : Prop :=
  t = { s with offset := t.offset, acc := t.acc, dfc := t.dfc }

/-- Stream bit j of `MEM` (30_encoding.md R100): bit j mod 8 of byte j / 8. -/
def State.streamBit (s : State) (j : Nat) : Bool := (s.byteAt (j / 8)).getLsbD (j % 8)

/-- The stream position of the next bit the bit cursor returns. -/
def State.bitPos (s : State) : Nat := 8 * s.offset.toNat + s.dfc.toNat - 16

/-- The accumulator holds the 16 − `DFC` stream bits just before the byte cursor, as it does from a
`BITS_RESET` on while nothing else moves the byte cursor (10_state.md R30, 40_cursor.md R133). -/
structure State.Synced (s : State) : Prop where
  low : 1 ≤ s.dfc.toNat
  high : s.dfc.toNat ≤ 16
  origin : 16 ≤ 8 * s.offset.toNat + s.dfc.toNat
  window : ∀ i, i < 16 - s.dfc.toNat → s.acc.getLsbD i = s.streamBit (s.bitPos + i)
  above : ∀ i, 16 - s.dfc.toNat ≤ i → s.acc.getLsbD i = false

/-- The n stream bits from position `pos`, first bit lowest (30_encoding.md R100). -/
def State.field (s : State) : Nat → Nat → Nat
  | _, 0 => 0
  | pos, n + 1 => (s.streamBit pos).toNat + 2 * s.field (pos + 1) n

/-- `MEM` holds every word that the bit cursor loads to return n more bits (40_cursor.md R132). -/
def State.roomFor (s : State) (n : Nat) : Prop :=
  s.offset.toNat + 2 * ((s.dfc.toNat + n - 1) / 16) ≤ s.len.toNat

/-- Mask bit 31 − c of a masked line: chunk c has a byte (42_frame_a.md R200, R201). -/
def chunkPresent (m : Word) (c : Nat) : Bool := m.getLsbD (31 - c)

/-- How many of the chunks before chunk c have a byte: where chunk c's own byte stands after the mask. -/
def chunksBefore (present : Nat → Bool) (c : Nat) : Nat := ((List.range c).filter present).length

/-- The line of the line loop now has the pixels `bit`, and `bytes` bytes were read for it; every other row
of `L_A` and everything else is as before. -/
structure LineWritten (s t : State) (bytes : Nat) (bit : Nat → Bool) : Prop where
  only : t = { s with offset := t.offset, lA := t.lA }
  offset : t.offset.toNat = s.offset.toNat + bytes
  ok : t.lA.ok
  row : ∀ x, x < 256 →
    (rowA (t.lA.layer s.inner.layerA) s.inner.lineA.val).getLsbD x = bit x
  other : ∀ k y, k ≠ s.inner.layerA ∨ y ≠ s.inner.lineA.val →
    rowA (t.lA.layer k) y = rowA (s.lA.layer k) y

/-- How many bits a line's index has (30_encoding.md R106). -/
def indexBits (common : Bool) : Nat := if common then 5 else 13

/-- The line that the index at a stream position names (43_frame_b.md R253, R256). -/
def lineAt (s : State) (common : Bool) (pos : Nat) : Line :=
  if common then commonEntry s.cfg (BitVec.ofNat 5 (s.field pos 5)) else fullEntry (s.field pos 13)

/-- How many bits the indices of rows 0 to r − 1 of a type 4 record have (43_frame_b.md R253). -/
def rowIndexPos (flags : Byte) : Nat → Nat
  | 0 => 0
  | r + 1 => rowIndexPos flags r + indexBits (flags.getLsbD r)

/-- The length in bits of the tile record at a stream position, its type field included (30_encoding.md R108);
none where reading it faults: an index past the dictionary (43_frame_b.md R279), or type 6 under the policy
`Fault` (R258). -/
def State.recordSizeAs (s : State) (type : BitVec 3) (pos : Nat) : Option Nat :=
  if type = 0#3 ∨ type = 2#3 ∨ type = 5#3 then some 8
  else if type = 1#3 ∨ type = 3#3 then
    if s.field (pos + 3) 13 ≤ 6560 then some 16 else none
  else if type = 4#3 then
    if ∀ r, r < 8 → (BitVec.ofNat 8 (s.field (pos + 3) 8)).getLsbD r = false →
        s.field (pos + 11 + rowIndexPos (BitVec.ofNat 8 (s.field (pos + 3) 8)) r) 13 ≤ 6560 then
      some (11 + rowIndexPos (BitVec.ofNat 8 (s.field (pos + 3) 8)) 8)
    else none
  else if type = 6#3 then
    match s.cfg.tile6Policy with
    | .fault => none
    | .noOp => some 3
  else if s.streamBit (pos + 5) then some 16
  else if s.field (pos + 6) 13 ≤ 6560 ∧ s.field (pos + 19) 13 ≤ 6560 then some 32
  else none

/-- The type field of the tile record at a stream position. -/
def State.typeAt (s : State) (pos : Nat) : BitVec 3 := BitVec.ofNat 3 (s.field pos 3)

/-- The next n slots of a layer that starts at byte p, `skip` slots being skipped and the next record standing
at stream position `pos`: every record that is read is legal, and `MEM` holds every word that the bit cursor
loads for it (43_frame_b.md R245, R254; 40_cursor.md R132). -/
def State.slotsFit (s : State) (p : Nat) : Nat → Nat → Nat → Bool
  | 0, _, _ => true
  | n + 1, skip + 1, pos => s.slotsFit p n skip pos
  | n + 1, 0, pos =>
    match s.recordSizeAs (s.typeAt pos) pos with
    | none => false
    | some l =>
      decide (p + 2 * ((pos + l - 8 * p + 15) / 16) ≤ s.len.toNat) &&
        s.slotsFit p n (if s.typeAt pos = 5#3 then s.field (pos + 3) 5 else 0) (pos + l)

/-- A layer's whole stream stands at p: 1200 slots of legal records, within `LEN`. -/
def State.layerFits (s : State) (p : Nat) : Prop := s.slotsFit p 1200 0 (8 * p) = true

/-- Position p is a pixel of the tile whose top-left pixel is (x, y) (43_frame_b.md R259). -/
def inTile (x y p : Nat) : Prop := x ≤ p % 320 ∧ p % 320 < x + 8 ∧ y ≤ p / 320 ∧ p / 320 < y + 8

/-- The tile of the tile loop now has the rows `row`, and `bits` stream bits were taken for it; every pixel
outside the tile and everything else is as before. -/
structure TileWritten (s t : State) (bits : Nat) (row : Nat → Line) : Prop where
  only : t = { s with offset := t.offset, acc := t.acc, dfc := t.dfc, lB := t.lB }
  synced : t.Synced
  pos : t.bitPos = s.bitPos + bits
  ok : t.lB.ok
  inside : ∀ r c, r < 8 → c < 8 →
    pixelB (t.lB.layer s.inner.layerB)
      (320 * ((slotXY s.inner.slot.val).2 + r) + (slotXY s.inner.slot.val).1 + c) = linePx (row r) c
  outside : ∀ k p,
    k ≠ s.inner.layerB ∨ ¬ inTile (slotXY s.inner.slot.val).1 (slotXY s.inner.slot.val).2 p →
    pixelB (t.lB.layer k) p = pixelB (s.lB.layer k) p

/-! ## The ADPCM recurrences on integers (41_adpcm.md R152, R155, R159 to R162) -/

/-- The difference of 4-bit code c at step size s. -/
def imaDiff (c s : Nat) : Int :=
  if c / 8 % 2 = 1 then
    -((s / 8 + (c % 2) * (s / 4) + (c / 2 % 2) * (s / 2) + (c / 4 % 2) * s : Nat) : Int)
  else ((s / 8 + (c % 2) * (s / 4) + (c / 2 % 2) * (s / 2) + (c / 4 % 2) * s : Nat) : Int)

/-- The difference of 2-bit code c at step size s. -/
def twoBitDiff (c s : Nat) : Int :=
  if c / 2 % 2 = 1 then -((s / 8 + (c % 2) * s : Nat) : Int) else ((s / 8 + (c % 2) * s : Nat) : Int)

/-- `IDX4` as R152 lists it. -/
def idx4List : List Int := [-1, -1, -1, -1, 2, 4, 6, 8, -1, -1, -1, -1, 2, 4, 6, 8]

/-- `IDX2` as R152 lists it. -/
def idx2List : List Int := [-1, 2, -1, 2]

/-- A predictor and a step index. -/
structure Adpcm where
  pred : Int
  idx  : Nat
deriving DecidableEq, Repr

/-- One code: the step size is read at the old index, both results are clamped. -/
def Adpcm.next (a : Adpcm) (diff delta lo hi : Int) (idxMax : Nat) : Adpcm :=
  ⟨min hi (max lo (a.pred + diff)), (min (idxMax : Int) (max 0 ((a.idx : Int) + delta))).toNat⟩

/-- Variant A's code c. -/
def Adpcm.codeA (a : Adpcm) (c : Nat) : Adpcm :=
  a.next (imaDiff c (stepTable.getD a.idx 0)) (idx4List.getD c 0) (-32768) 32767 88

/-- Variant B's 4-bit code c. -/
def Adpcm.codeB4 (a : Adpcm) (c : Nat) : Adpcm :=
  a.next (imaDiff c (stepTable.getD a.idx 0)) (idx4List.getD c 0) (-2048) 2047 79

/-- Variant B's 2-bit code c. -/
def Adpcm.codeB2 (a : Adpcm) (c : Nat) : Adpcm :=
  a.next (twoBitDiff c (stepTable.getD a.idx 0)) (idx2List.getD c 0) (-2048) 2047 79

/-- The states after each code of variant A over some bytes: low nibble, then high nibble. -/
def Adpcm.trackA (a : Adpcm) : List Byte → List Adpcm
  | [] => []
  | b :: bs =>
    a.codeA (b.toNat % 16) :: (a.codeA (b.toNat % 16)).codeA (b.toNat / 16) ::
      ((a.codeA (b.toNat % 16)).codeA (b.toNat / 16)).trackA bs

/-- The states after each code of variant B over the 2-bit groups left in a byte: a 2-bit code below index
18 or when one group is left, else a 4-bit code. -/
def Adpcm.groupsB (a : Adpcm) : List Nat → List Adpcm
  | [] => []
  | [g] => [a.codeB2 g]
  | g :: h :: rest =>
    if a.idx < 18 then a.codeB2 g :: (a.codeB2 g).groupsB (h :: rest)
    else a.codeB4 (g + 4 * h) :: (a.codeB4 (g + 4 * h)).groupsB rest

/-- The four 2-bit groups of a byte, from bit 0 upward. -/
def byteGroups (b : Byte) : List Nat :=
  [b.toNat % 4, b.toNat / 4 % 4, b.toNat / 16 % 4, b.toNat / 64]

/-- The states after each code of variant B over some bytes. -/
def Adpcm.trackB (a : Adpcm) : List Byte → List Adpcm
  | [] => []
  | b :: bs =>
    a.groupsB (byteGroups b) ++ ((a.groupsB (byteGroups b)).getLastD a).trackB bs

/-- The n bytes of `MEM` from p. -/
def State.bytesFrom (s : State) : Nat → Nat → List Byte
  | _, 0 => []
  | p, n + 1 => s.byteAt p :: s.bytesFrom (p + 1) n

/-- Variant A's registers as numbers. -/
def State.adpcmA (s : State) : Adpcm := ⟨s.apred.toInt, s.aidx.toNat⟩

/-- Variant B's registers as numbers. -/
def State.adpcmB (s : State) : Adpcm := ⟨s.bpred.toInt, s.bidx.toNat⟩

/-- The samples of a list of predictor states, each times m. -/
def samplesOf (m : Int) (l : List Adpcm) : List Sample := l.map fun a => BitVec.ofInt 16 (a.pred * m)

/-- The samples that a cap lets through when n are there already (41_adpcm.md R163). -/
def capSamples (cap : Option Nat) (n : Nat) (l : List Sample) : List Sample :=
  match cap with
  | none => l
  | some c => l.take (c - n)

/-! ## Sequences of commands -/

/-- `BITS_READ` of each width in turn: the values and the last state. -/
def readFields : List Byte → State → Option (List Word × State)
  | [], s => some ([], s)
  | n :: ns, s =>
    match exec (.bitsRead n) s with
    | .next t => (readFields ns t).map fun r => (t.result :: r.1, r.2)
    | .fault _ => none
    | .refused _ => none

/-- The bits of some fields, each lowest bit first, one after another. -/
def fieldBits : List Byte → List Word → List Bool
  | n :: ns, w :: ws => (List.range n.toNat).map w.getLsbD ++ fieldBits ns ws
  | _, _ => []

/-- `FA_DECODE_FRAME` of frames 0 to i in order. -/
def framesInOrder : Nat → State → Option State
  | 0, s =>
    match exec .faDecodeFrame { s with arg0 := 0 } with
    | .next t => some t
    | .fault _ => none
    | .refused _ => none
  | i + 1, s =>
    match framesInOrder i s with
    | none => none
    | some u =>
      match exec .faDecodeFrame { u with arg0 := BitVec.ofNat 32 (i + 1) } with
      | .next t => some t
      | .fault _ => none
      | .refused _ => none

/-- The layers that `FA_RESET` and then `FA_DECODE_FRAME` i leave, where both complete. -/
def State.frameAlone (s : State) (i : Nat) : Option (LayersA × LayersA) :=
  match exec .faReset s with
  | .next r =>
    match exec .faDecodeFrame { r with arg0 := BitVec.ofNat 32 i } with
    | .next u => if u.faulted then none else some (u.lA, u.pA)
    | .fault _ => none
    | .refused _ => none
  | .fault _ => none
  | .refused _ => none

/-- While the block runs, `L_A` and `P_A` hold what the frame that `LASTA` names decodes to alone
(10_state.md R33, 42_frame_a.md R225). -/
def State.CoherentA (s : State) : Prop :=
  s.faulted = false → s.lastA ≠ noFrame → s.frameAlone s.lastA.toNat = some (s.lA, s.pA)

end Sys2Proof.Machine
end

