-- ==== Sys2Proof/Certificates/Slice0/Obligations.lean ====
section
/-! DEFINITION. The statements to be proved about FDB. Each docstring names the rules of spec/ it formalises; "log n"
is notes/assumptions/n.md. -/

open Sys2Proof Sys2Proof.Machine

/-! ## Encoding -/

/-- Decoding an instruction's own code gives it back, with every operand at every value, and so does the
table's word for it (30_encoding.md R90 to R93, R104, R106). -/
def Obligations.DecodeEncode : Prop :=
  ∀ i : Instr, decode (encode i) = .ok i ∧
    (match encode i with
      | .cmd w => decodeTableWord 32 w.toNat = some i
      | .line c => decodeTableWord 2 c.toNat = some i
      | .tile t => decodeTableWord 3 t.toNat = some i)

/-- A command word that decodes is the word its instruction encodes to: no two words are the same command
(30_encoding.md R90 to R93). -/
def Obligations.DecodedWordsReencode : Prop :=
  ∀ (w : Word) (i : Instr), decodeCmd w = .ok i → encode i = .cmd w

/-- Words written out from the spec's encodings (30_encoding.md R92; 40_cursor.md R130; 41_adpcm.md R158;
43_frame_b.md R260; 30_encoding.md R104, R106). -/
def Obligations.SampleWords : Prop :=
  decode (.cmd 0x00000001#32) = .ok .seekSet ∧
  decode (.cmd 0x00000309#32) = .ok (.bitsRead 3#8) ∧
  decode (.cmd 0x00000112#32) = .ok (.adpcmBInit 1#8) ∧
  decode (.cmd 0x00000231#32) = .ok (.fbDecodeLayer 2#8) ∧
  decode (.cmd 0x000000FF#32) = .ok .reset ∧
  decode (.line 2#2) = .ok .lineInvSparse ∧
  decode (.tile 7#3) = .ok .tilePattern

/-- 30_encoding.md R95: a reserved opcode, a nonzero `RSV`, or a nonzero `IMM8` where none is legal raises
`ILLEGAL_CMD` with the word. -/
def Obligations.IllegalWordsFault : Prop :=
  ∀ (s : State) (w : Word) (q : List HostAccess),
    s.faulted = false → s.inner.seq = .command → s.host = .writeReg 0 w :: q →
    (rsvField w ≠ 0#16 ∨ opField w ∉ commandOps ∨ (opField w ∉ operandOps ∧ imm8Field w ≠ 0#8)) →
    ∃ t, step s = .next t ∧ FaultRecorded { s with cmd := w, host := q } t 0x01#8 w

/-! ## Steps -/

/-- When the host's next access writes a word to `CMD` that decodes to an instruction, the step stores the
word and is that instruction (10_state.md R23, 30_encoding.md R91). -/
def Obligations.StepRunsIssuedCommand : Prop :=
  ∀ (s : State) (w : Word) (q : List HostAccess) (i : Instr),
    s.inner.seq = .command → s.host = .writeReg 0 w :: q → decodeCmd w = .ok i →
    step s = exec i { s with cmd := w, host := q }

/-- In a decode loop the step is the instruction that the line's type or the record's type field decodes
to, then the loop moves on; a type field that cannot be read raises; a skipped slot reads nothing
(42_frame_a.md R198, 43_frame_b.md R245, R248, 60_exceptions.md R302). -/
def Obligations.StepRunsRecords : Prop :=
  (∀ s : State, s.faulted = false → s.inner.seq = .lines →
    step s = afterNext advanceLine
      (exec (decodeLine (lineTypeOf s s.inner.layerA s.inner.lineA.val)) s)) ∧
  (∀ (s : State) (t : BitVec 3) (u : State), s.faulted = false → s.inner.seq = .tiles →
    s.inner.skip = 0#5 → readTileType s = .ok (t, u) →
    step s = afterNext advanceSlot (exec (decodeTile t) u)) ∧
  (∀ (s : State) (f : Raised), s.faulted = false → s.inner.seq = .tiles →
    s.inner.skip = 0#5 → readTileType s = .error f → step s = .next (raise f s)) ∧
  (∀ s : State, s.faulted = false → s.inner.seq = .tiles → s.inner.skip ≠ 0#5 →
    step s = .next (advanceSlot { s with inner := { s.inner with skip := s.inner.skip - 1#5 } })) ∧
  (∀ s : State, advanceLine s =
    if s.inner.seq = .lines then
      { s with inner :=
        if s.inner.lineA.val = 191 then Inner.idle
        else { s.inner with lineA := Fin.ofNat 192 (s.inner.lineA.val + 1) } }
    else s) ∧
  (∀ s : State, advanceSlot s =
    if s.inner.seq = .tiles then
      { s with inner :=
        if s.inner.slot.val = 1199 then Inner.idle
        else { s.inner with slot := Fin.ofNat 1200 (s.inner.slot.val + 1) } }
    else s)

/-- Every word written to `CMD` has a next state, in every state, and so has every instruction
(30_encoding.md R91: the decoder is total). -/
def Obligations.EveryWordHasAStep : Prop :=
  (∀ (s : State) (w : Word) (q : List HostAccess), s.inner.seq = .command →
    s.host = .writeReg 0 w :: q → ∃ t, step s = .next t) ∧
  (∀ (i : Instr) (s : State), ∃ t, exec i s = .next t)

/-! ## Faults -/

/-- 60_exceptions.md R301: a raise records the first fault only, its code and its information modulo 2^32; no
later step of the command runs, and the command ends in the state the raise leaves. -/
def Obligations.RaiseRecords : Prop :=
  ∀ (c : FaultCode) (info : Int) (s : State),
    (s.faulted = true → raise ⟨c, info⟩ s = s) ∧
    (s.faulted = false →
      FaultRecorded s (raise ⟨c, info⟩ s) (fcodeOf c) (BitVec.ofInt 32 info) ∧
      (raise ⟨c, info⟩ s).status &&& 0xFFFF00FE#32 = s.status &&& 0xFFFF00FE#32) ∧
    (∀ later : State → Run State, ((Except.error ⟨c, info⟩ : Run State) >>= later) = .error ⟨c, info⟩) ∧
    (s.faulted = false → attempt s (.error ⟨c, info⟩) = .next (raise ⟨c, info⟩ s))

/-- 60_exceptions.md R306: while faulted, a word other than `RESET`'s is stored in `CMD` and nothing else
happens. -/
def Obligations.RefusedWhileFaulted : Prop :=
  ∀ (s : State) (w : Word) (q : List HostAccess),
    s.faulted = true → s.host = .writeReg 0 w :: q → w ≠ 0x000000FF#32 →
    step s = .next { s with cmd := w, host := q }

/-- 60_exceptions.md R308: once `FAULTED` is 1 it stays 1, with the first fault's `STATUS` and `FINFO`,
through every step but a legal `RESET`. -/
def Obligations.FaultSticky : Prop :=
  ∀ s t : State, s.faulted = true → step s = .next t →
    (t.faulted = true ∧ t.status = s.status ∧ t.finfo = s.finfo) ∨
    (∃ q, s.host = .writeReg 0 0x000000FF#32 :: q)

/-- 60_exceptions.md R305: an instruction that faults keeps `CMD`, `ARG0`, `ARG1`, `LEN`, `RESULT`, `MEM`
and the configuration, whatever it is. -/
def Obligations.FaultKeeps : Prop :=
  ∀ (i : Instr) (s t : State), s.faulted = false → exec i s = .next t → t.faulted = true →
    FaultRecorded s t (statusFcode t.status) t.finfo ∧
    1 ≤ (statusFcode t.status).toNat ∧ (statusFcode t.status).toNat ≤ 8

/-- Only a fault writes `STATUS` and `FINFO`, and only `RESET` clears them (10_state.md R22). -/
def Obligations.StatusWriters : Prop :=
  ∀ s t : State, step s = .next t →
    (t.status = s.status ∧ t.finfo = s.finfo) ∨
    (s.faulted = false ∧ t.faulted = true ∧
      1 ≤ (statusFcode t.status).toNat ∧ (statusFcode t.status).toNat ≤ 8) ∨
    (t.status = 0#32 ∧ t.finfo = 0#32 ∧ ∃ q, s.host = .writeReg 0 0x000000FF#32 :: q)

/-! ## The whole machine -/

/-- Every step keeps the invariant: the stores stay canonical, the cursors, the ADPCM state, `STATUS` and the
caches legal (10_state.md R22, R30 to R34; 20_memory.md R62; 42_frame_a.md R221). -/
def Obligations.InvKept : Prop := ∀ s t : State, s.Inv → step s = .next t → t.Inv

/-- The invariant holds at reset. -/
def Obligations.InvAtReset : Prop := State.reset.Inv

/-- 20_memory.md R61: no step writes `MEM`; nor `LEN` or the configuration. -/
def Obligations.InputsNeverChange : Prop :=
  ∀ s t : State, step s = .next t → t.mem = s.mem ∧ t.len = s.len ∧ t.cfg = s.cfg

/-- 70_reset_and_hazards.md R340: the power-on values. `LEN`, `MEM` and the configuration are the launch's
(log 2, log 3). -/
def Obligations.PowerOnState : Prop :=
  State.reset.cmd = 0#32 ∧ State.reset.arg0 = 0#32 ∧ State.reset.arg1 = 0#32 ∧
  State.reset.result = 0#32 ∧ State.reset.status = 0#32 ∧ State.reset.finfo = 0#32 ∧
  State.reset.offset = 0#32 ∧ State.reset.acc = 0#32 ∧ State.reset.dfc = 16#5 ∧
  State.reset.apred = 0#32 ∧ State.reset.aidx = 0#7 ∧
  State.reset.bpred = 0#32 ∧ State.reset.bidx = 40#7 ∧
  State.reset.lastA = 0xFFFFFFFF#32 ∧ State.reset.lastB = 0xFFFFFFFF#32 ∧
  State.reset.pcm = [] ∧ State.reset.pcmCount = 0#32 ∧
  (∀ k p, pixelA (State.reset.lA.layer k) p = false ∧ pixelA (State.reset.pA.layer k) p = false) ∧
  (∀ k p, pixelB (State.reset.lB.layer k) p = 0)

/-- 70_reset_and_hazards.md R341: `RESET` gives the power-on state, faulted or not, with `CMD` the word and
`MEM`, `LEN` and the configuration kept; another word with its opcode raises `ILLEGAL_CMD`, or changes nothing
while faulted. The model's own fields `host` and `draws` are kept too (log 4, log 8). -/
def Obligations.ResetCommand : Prop :=
  decode (.cmd 0x000000FF#32) = .ok .reset ∧
  (∀ s : State, exec .reset s = .next { State.reset with
    cmd := 0x000000FF#32, len := s.len, mem := s.mem, cfg := s.cfg, host := s.host, draws := s.draws }) ∧
  ∀ (s : State) (w : Word) (q : List HostAccess), opField w = 0xFF#8 → w ≠ 0x000000FF#32 →
    s.inner.seq = .command → s.host = .writeReg 0 w :: q →
    (s.faulted = false → ∃ t, step s = .next t ∧ FaultRecorded { s with cmd := w, host := q } t 0x01#8 w) ∧
    (s.faulted = true → step s = .next { s with cmd := w, host := q })

/-- 10_state.md R42, and the host's part of R26: the host writes `ARG0` and `ARG1`; a write to another mapped
register has no effect; no access to an unmapped register number is admitted. -/
def Obligations.HostWrites : Prop :=
  (∀ (s : State) (reg : Nat) (q : List HostAccess),
    s.inner.seq = .command → s.host = .readReg reg :: q → 0x11 ≤ reg →
    step s = .refused (.unmappedRegister reg)) ∧
  ∀ (s : State) (reg : Nat) (v : Word) (q : List HostAccess),
    s.inner.seq = .command → s.host = .writeReg reg v :: q →
    (reg = 1 → step s = .next { s with arg0 := v, host := q }) ∧
    (reg = 2 → step s = .next { s with arg1 := v, host := q }) ∧
    (3 ≤ reg → reg ≤ 0x10 → step s = .next { s with host := q }) ∧
    (0x11 ≤ reg → step s = .refused (.unmappedRegister reg))

/-- 20_memory.md R73: what the host can read between commands, the values, that a read changes nothing, and
that an index out of range is not admitted. -/
def Obligations.HostReads : Prop :=
  (∀ (s : State) (a : HostAccess) (q : List HostAccess),
    s.inner.seq = .command → s.host = a :: q →
    (∀ reg, a = .readReg reg →
      step s = if reg ≤ 0x10 then .next { s with host := q } else .refused (.unmappedRegister reg)) ∧
    (∀ k p, a = .readLA k p → step s =
      if k < 2 ∧ p < 49152 then .next { s with host := q } else .refused (.noSuchElement p)) ∧
    (∀ k p, a = .readPA k p → step s =
      if k < 2 ∧ p < 49152 then .next { s with host := q } else .refused (.noSuchElement p)) ∧
    (∀ k p, a = .readLB k p → step s =
      if k < 3 ∧ p < 76800 then .next { s with host := q } else .refused (.noSuchElement p)) ∧
    (∀ i, a = .readPcm i → step s =
      if i < s.pcmCount.toNat then .next { s with host := q } else .refused (.noSuchElement i))) ∧
  (∀ (l : LayersA) (k : Fin 2) (p : Nat), p < 49152 →
    readElementA l k.val p = some (if pixelA (l.layer k) p then 1#8 else 0#8)) ∧
  (∀ (l : LayersB) (k : Fin 3) (p : Nat), p < 76800 →
    readElementB l k.val p = some (BitVec.ofNat 8 (pixelB (l.layer k) p).val)) ∧
  (∀ (s : State) (i : Nat) (h : i < s.pcm.length), i < s.pcmCount.toNat →
    readSample s i = some s.pcm[i])

/-- The register map (10_state.md R21). -/
def Obligations.RegisterMap : Prop :=
  ∀ s : State,
    readReg s 0x00 = some s.cmd ∧ readReg s 0x01 = some s.arg0 ∧ readReg s 0x02 = some s.arg1 ∧
    readReg s 0x03 = some s.result ∧ readReg s 0x04 = some s.status ∧
    readReg s 0x05 = some s.offset ∧ readReg s 0x06 = some s.len ∧ readReg s 0x07 = some s.acc ∧
    readReg s 0x08 = some (s.dfc.setWidth 32) ∧ readReg s 0x09 = some s.apred ∧
    readReg s 0x0A = some (s.aidx.setWidth 32) ∧ readReg s 0x0B = some s.bpred ∧
    readReg s 0x0C = some (s.bidx.setWidth 32) ∧ readReg s 0x0D = some s.lastA ∧
    readReg s 0x0E = some s.lastB ∧ readReg s 0x0F = some s.pcmCount ∧
    readReg s 0x10 = some s.finfo ∧ ∀ r, 0x11 ≤ r → readReg s r = none

/-! ## The cursors -/

/-- 40_cursor.md R120. -/
def Obligations.SeekSet : Prop :=
  decode (.cmd 0x00000001#32) = .ok .seekSet ∧
  ∀ s : State, s.faulted = false →
    (s.arg0.toNat ≤ s.len.toNat → exec .seekSet s = .next { s with offset := s.arg0 }) ∧
    (s.len.toNat < s.arg0.toNat →
      ∃ t, exec .seekSet s = .next t ∧ FaultRecorded s t 0x03#8 s.arg0)

/-- 40_cursor.md R121: an integer sum, without wrap. -/
def Obligations.SeekCur : Prop :=
  decode (.cmd 0x00000002#32) = .ok .seekCur ∧
  ∀ s : State, s.faulted = false →
    (0 ≤ (s.offset.toNat : Int) + s.arg0.toInt →
      (s.offset.toNat : Int) + s.arg0.toInt ≤ s.len.toNat →
      exec .seekCur s = .next { s with offset := s.offset + s.arg0 }) ∧
    ((s.offset.toNat : Int) + s.arg0.toInt < 0 ∨ (s.len.toNat : Int) < s.offset.toNat + s.arg0.toInt →
      ∃ t, exec .seekCur s = .next t ∧ FaultRecorded s t 0x03#8 (s.offset + s.arg0))

/-- 40_cursor.md R122: the signed value is added to `LEN`. -/
def Obligations.SeekEnd : Prop :=
  decode (.cmd 0x00000003#32) = .ok .seekEnd ∧
  ∀ s : State, s.faulted = false →
    (0 ≤ (s.len.toNat : Int) + s.arg0.toInt → s.arg0.toInt ≤ 0 →
      exec .seekEnd s = .next { s with offset := s.len + s.arg0 }) ∧
    ((s.len.toNat : Int) + s.arg0.toInt < 0 ∨ 0 < s.arg0.toInt →
      ∃ t, exec .seekEnd s = .next t ∧ FaultRecorded s t 0x03#8 (s.len + s.arg0))

/-- 40_cursor.md R128. -/
def Obligations.BitsReset : Prop :=
  decode (.cmd 0x00000008#32) = .ok .bitsReset ∧
  ∀ s : State, s.faulted = false → exec .bitsReset s = .next { s with acc := 0#32, dfc := 16#5 }

/-- 40_cursor.md R130 with R129, for every width: the value, the accumulator, the deficit and the byte
cursor as numbers, with and without a refill; `BOUNDS` where the refill passes `LEN`; `BAD_WIDTH`. -/
def Obligations.BitsRead : Prop :=
  (∀ n : Byte, decode (.cmd ((n.setWidth 32 <<< 8) ||| 0x09#32)) = .ok (.bitsRead n)) ∧
  ∀ (n : Byte) (s : State), s.faulted = false → s.CursorLegal →
    (1 ≤ n.toNat → n.toNat ≤ 16 → s.dfc.toNat + n.toNat ≤ 16 →
      ∃ t, exec (.bitsRead n) s = .next t ∧
        t = { s with result := t.result, acc := t.acc, dfc := t.dfc } ∧
        t.result.toNat = s.acc.toNat % 2 ^ n.toNat ∧ t.acc.toNat = s.acc.toNat / 2 ^ n.toNat ∧
        t.dfc.toNat = s.dfc.toNat + n.toNat) ∧
    (1 ≤ n.toNat → n.toNat ≤ 16 → 16 < s.dfc.toNat + n.toNat → s.offset.toNat + 2 ≤ s.len.toNat →
      ∃ t a, exec (.bitsRead n) s = .next t ∧
        a = s.acc.toNat + ((s.byteAt s.offset.toNat).toNat +
          256 * (s.byteAt (s.offset.toNat + 1)).toNat) * 2 ^ (16 - s.dfc.toNat) ∧
        t = { s with result := t.result, acc := t.acc, dfc := t.dfc, offset := s.offset + 2#32 } ∧
        t.result.toNat = a % 2 ^ n.toNat ∧ t.acc.toNat = a / 2 ^ n.toNat ∧
        t.dfc.toNat + 16 = s.dfc.toNat + n.toNat) ∧
    (1 ≤ n.toNat → n.toNat ≤ 16 → 16 < s.dfc.toNat + n.toNat → s.len.toNat < s.offset.toNat + 2 →
      ∃ t, exec (.bitsRead n) s = .next t ∧ FaultRecorded s t 0x02#8 s.offset) ∧
    (n.toNat < 1 ∨ 16 < n.toNat →
      ∃ t, exec (.bitsRead n) s = .next t ∧ FaultRecorded s t 0x04#8 (n.setWidth 32))

/-- 40_cursor.md R133, with the count of R132: from a bit cursor reset, any sequence of `BITS_READ` returns the stream bits
in order, none skipped or read twice, and loads exactly the words it needs. -/
def Obligations.StreamOrder : Prop :=
  ∀ (widths : List Byte) (s : State), s.faulted = false → s.acc = 0#32 → s.dfc = 16#5 →
    (∀ n ∈ widths, 1 ≤ n.toNat ∧ n.toNat ≤ 16) →
    s.offset.toNat + 2 * (((widths.map BitVec.toNat).sum + 15) / 16) ≤ s.len.toNat →
    ∃ fields t, readFields widths s = some (fields, t) ∧
      fieldBits widths fields =
        (List.range (widths.map BitVec.toNat).sum).map (fun j => s.streamBit (8 * s.offset.toNat + j)) ∧
      t.offset.toNat = s.offset.toNat + 2 * (((widths.map BitVec.toNat).sum + 15) / 16) ∧
      t = { s with result := t.result, offset := t.offset, acc := t.acc, dfc := t.dfc }

/-- 20_memory.md R63 to R67: a read is refused whole when it passes `LEN`; the widths and byte orders of the
typed reads, and how they move the byte cursor. -/
def Obligations.TypedReads : Prop :=
  (∀ (a n : Nat) (s : State), memRead a n s =
    if a + n > s.len.toNat then .error ⟨.bounds, a⟩
    else .ok ((List.range n).map fun j => s.byteAt (a + j))) ∧
  (∀ s : State, s.offset.toNat + 1 ≤ s.len.toNat →
    readU8 s = .ok (s.byteAt s.offset.toNat, { s with offset := s.offset + 1#32 }) ∧
    readI8 s = .ok ((s.byteAt s.offset.toNat).toInt, { s with offset := s.offset + 1#32 })) ∧
  (∀ s : State, s.offset.toNat + 2 ≤ s.len.toNat → ∃ w,
    readU16LE s = .ok (w, { s with offset := s.offset + 2#32 }) ∧
    w.toNat = (s.byteAt s.offset.toNat).toNat + 256 * (s.byteAt (s.offset.toNat + 1)).toNat) ∧
  (∀ s : State, s.offset.toNat + 4 ≤ s.len.toNat → ∃ w,
    readU32BE s = .ok (w, { s with offset := s.offset + 4#32 }) ∧
    w.toNat = 16777216 * (s.byteAt s.offset.toNat).toNat +
      65536 * (s.byteAt (s.offset.toNat + 1)).toNat +
      256 * (s.byteAt (s.offset.toNat + 2)).toNat + (s.byteAt (s.offset.toNat + 3)).toNat) ∧
  ∀ s : State,
    (s.len.toNat < s.offset.toNat + 1 → readU8 s = .error ⟨.bounds, s.offset.toNat⟩ ∧
      readI8 s = .error ⟨.bounds, s.offset.toNat⟩) ∧
    (s.len.toNat < s.offset.toNat + 2 → readU16LE s = .error ⟨.bounds, s.offset.toNat⟩) ∧
    (s.len.toNat < s.offset.toNat + 4 → readU32BE s = .error ⟨.bounds, s.offset.toNat⟩)

/-! ## ADPCM -/

/-- 41_adpcm.md R153 and R158. -/
def Obligations.AdpcmInits : Prop :=
  decode (.cmd 0x00000010#32) = .ok .adpcmAInit ∧
  decode (.cmd 0x00000012#32) = .ok (.adpcmBInit 0#8) ∧
  decode (.cmd 0x00000112#32) = .ok (.adpcmBInit 1#8) ∧
  ∀ s : State, s.faulted = false →
    exec .adpcmAInit s =
      .next { s with apred := 0#32, aidx := 0#7, pcm := [], pcmCount := 0#32 } ∧
    exec (.adpcmBInit 0#8) s =
      .next { s with bpred := 0#32, bidx := 40#7, pcm := [], pcmCount := 0#32 } ∧
    exec (.adpcmBInit 1#8) s =
      .next { s with bpred := 0#32, bidx := 0#7, pcm := [], pcmCount := 0#32 } ∧
    ∀ c : Byte, 1 < c.toNat →
      ∃ t, exec (.adpcmBInit c) s = .next t ∧ FaultRecorded s t 0x01#8 s.cmd

/-- 41_adpcm.md R157, with the code order of R154 and the code step of R155: the samples, the predictor and
the index as integers; `BOUNDS(p)` for a range that passes `LEN`. -/
def Obligations.AdpcmADecode : Prop :=
  decode (.cmd 0x00000011#32) = .ok .adpcmADecode ∧
  ∀ s : State, s.faulted = false →
    (s.arg0.toNat + s.arg1.toNat ≤ s.len.toNat →
      ∃ t, exec .adpcmADecode s = .next t ∧
        t = { s with apred := t.apred, aidx := t.aidx, pcm := t.pcm, pcmCount := t.pcmCount } ∧
        t.pcm = s.pcm ++
          samplesOf 1 (s.adpcmA.trackA (s.bytesFrom s.arg0.toNat s.arg1.toNat)) ∧
        t.adpcmA =
          (s.adpcmA.trackA (s.bytesFrom s.arg0.toNat s.arg1.toNat)).getLastD s.adpcmA ∧
        (s.pcmCount.toNat + 2 * s.arg1.toNat < 2 ^ 32 →
          t.pcmCount.toNat = s.pcmCount.toNat + 2 * s.arg1.toNat)) ∧
    (s.len.toNat < s.arg0.toNat + s.arg1.toNat →
      ∃ t, exec .adpcmADecode s = .next t ∧ FaultRecorded s t 0x02#8 s.arg0)

/-- 41_adpcm.md R163, with the byte walk of R159, the code steps of R160 and R161 and the emission of R162,
under every `PCM_CAP`; `BOUNDS(p)` for a range that passes `LEN`. -/
def Obligations.AdpcmBDecode : Prop :=
  decode (.cmd 0x00000013#32) = .ok .adpcmBDecode ∧
  ∀ s : State, s.faulted = false →
    (s.arg0.toNat + s.arg1.toNat ≤ s.len.toNat → s.AdpcmLegal →
      s.pcm.length + 4 * s.arg1.toNat < 2 ^ 32 →
      ∃ t, exec .adpcmBDecode s = .next t ∧
        t = { s with bpred := t.bpred, bidx := t.bidx, pcm := t.pcm, pcmCount := t.pcmCount } ∧
        t.pcm = s.pcm ++ capSamples s.cfg.pcmCap s.pcm.length
          (samplesOf 16 (s.adpcmB.trackB (s.bytesFrom s.arg0.toNat s.arg1.toNat))) ∧
        t.pcmCount.toNat = t.pcm.length ∧
        t.adpcmB =
          (s.adpcmB.trackB (s.bytesFrom s.arg0.toNat s.arg1.toNat)).getLastD s.adpcmB) ∧
    (s.len.toNat < s.arg0.toNat + s.arg1.toNat →
      ∃ t, exec .adpcmBDecode s = .next t ∧ FaultRecorded s t 0x02#8 s.arg0)

/-- 41_adpcm.md R165 over the machine: variant A appends 2 samples for each byte; with no `PCM_CAP` variant B
appends 2, 3 or 4 for a byte, 4 exactly when `BIDX` is below 18 at positions 0, 2 and 4, 2 exactly when both
codes are 4-bit ones; so between 2n and 4n for n bytes (R163). -/
def Obligations.SampleCounts : Prop :=
  (∀ s : State, s.faulted = false → s.arg0.toNat + s.arg1.toNat ≤ s.len.toNat →
    (∃ t, exec .adpcmADecode s = .next t ∧ t.pcm.length = s.pcm.length + 2 * s.arg1.toNat) ∧
    (s.cfg.pcmCap = none →
      ∃ t, exec .adpcmBDecode s = .next t ∧ s.pcm.length + 2 * s.arg1.toNat ≤ t.pcm.length ∧
        t.pcm.length ≤ s.pcm.length + 4 * s.arg1.toNat)) ∧
  ∀ (s : State) (b : Byte), s.faulted = false → s.cfg.pcmCap = none → s.arg1 = 1#32 →
    s.arg0.toNat + 1 ≤ s.len.toNat → b = s.byteAt s.arg0.toNat →
    ∃ t, exec .adpcmBDecode s = .next t ∧ t = stepBByte b s ∧
      (t.pcm.length = s.pcm.length + 4 ↔
        s.bidx.toNat < 18 ∧ (stepB2 (code2At b 0) s).bidx.toNat < 18 ∧
        (stepB2 (code2At b 2) (stepB2 (code2At b 0) s)).bidx.toNat < 18) ∧
      (t.pcm.length = s.pcm.length + 2 ↔
        ¬ s.bidx.toNat < 18 ∧ ¬ (stepB4 (code4At b 0) s).bidx.toNat < 18) ∧
      (t.pcm.length = s.pcm.length + 2 ∨ t.pcm.length = s.pcm.length + 3 ∨
        t.pcm.length = s.pcm.length + 4)

/-- 41_adpcm.md R164: every sample a decode appends is in range, which is to say that narrowing it to 16 bits
loses nothing: read as signed numbers, the samples are the predictors (variant A), or sixteen times the
predictors, as many as the cap lets through (variant B). -/
def Obligations.SampleRange : Prop :=
  ∀ s t : State, s.faulted = false → t.faulted = false →
    (exec .adpcmADecode s = .next t →
      t.pcm.map BitVec.toInt = s.pcm.map BitVec.toInt ++
        (s.adpcmA.trackA (s.bytesFrom s.arg0.toNat s.arg1.toNat)).map Adpcm.pred ∧
      ∀ a ∈ s.adpcmA.trackA (s.bytesFrom s.arg0.toNat s.arg1.toNat), -32768 ≤ a.pred ∧ a.pred ≤ 32767) ∧
    (exec .adpcmBDecode s = .next t → s.AdpcmLegal → s.pcm.length + 4 * s.arg1.toNat < 2 ^ 32 →
      ∃ m, t.pcm.map BitVec.toInt = s.pcm.map BitVec.toInt ++
        ((s.adpcmB.trackB (s.bytesFrom s.arg0.toNat s.arg1.toNat)).map fun a => a.pred * 16).take m ∧
      m = (match s.cfg.pcmCap with
        | none => (s.adpcmB.trackB (s.bytesFrom s.arg0.toNat s.arg1.toNat)).length
        | some c => c - s.pcm.length) ∧
      ∀ a ∈ s.adpcmB.trackB (s.bytesFrom s.arg0.toNat s.arg1.toNat),
        -32768 ≤ a.pred * 16 ∧ a.pred * 16 ≤ 32752)

/-! ## Format A -/

/-- 42_frame_a.md R199 and R202, with R203: a blank line reads and writes nothing; a raw line is 32 bytes, bit
p of byte c at pixel 8c + p. -/
def Obligations.LineBlankRaw : Prop :=
  decode (.line 0#2) = .ok .lineBlank ∧ decode (.line 3#2) = .ok .lineRaw ∧
  ∀ s : State, s.faulted = false →
    exec .lineBlank s = .next s ∧
    (s.lA.ok → s.offset.toNat + 32 ≤ s.len.toNat →
      ∃ t, exec .lineRaw s = .next t ∧
        LineWritten s t 32 fun x => (s.byteAt (s.offset.toNat + x / 8)).getLsbD (x % 8))

/-- 42_frame_a.md R200 and R201, with R203: the mask, then one byte for each set bit, bit 31 − c for chunk c; an
absent chunk stays (type 1) or is all 1 (type 2). -/
def Obligations.LineMasked : Prop :=
  decode (.line 1#2) = .ok .lineSparse ∧ decode (.line 2#2) = .ok .lineInvSparse ∧
  ∀ (s : State) (m : Word) (n : Nat), s.faulted = false → s.lA.ok →
    m = s.wordBE s.offset.toNat → n = 4 + chunksBefore (chunkPresent m) 32 →
    s.offset.toNat + n ≤ s.len.toNat →
    (∃ t, exec .lineSparse s = .next t ∧
      LineWritten s t n fun x =>
        if chunkPresent m (x / 8) then
          (s.byteAt (s.offset.toNat + 4 + chunksBefore (chunkPresent m) (x / 8))).getLsbD (x % 8)
        else (rowA (s.lA.layer s.inner.layerA) s.inner.lineA.val).getLsbD x) ∧
    (∃ t, exec .lineInvSparse s = .next t ∧
      LineWritten s t n fun x =>
        if chunkPresent m (x / 8) then
          (s.byteAt (s.offset.toNat + 4 + chunksBefore (chunkPresent m) (x / 8))).getLsbD (x % 8)
        else true)

/-- 42_frame_a.md R195: 48 bytes, line y's type in bits 2(y mod 4) and up of byte y / 4; the other layer's types
stay, and `T_A` stays canonical. -/
def Obligations.UnpackTypes : Prop :=
  ∀ (k : Fin 2) (s : State), Sparse.wf 0 s.inner.tA = true → s.offset.toNat + 48 ≤ s.len.toNat →
    ∃ t, unpackTypes k s = .ok t ∧ t.offset.toNat = s.offset.toNat + 48 ∧
      (∀ y, y < 192 → (lineTypeOf t k y).toNat =
        (s.byteAt (s.offset.toNat + y / 4)).toNat / 4 ^ (y % 4) % 4) ∧
      (∀ k' y, k' ≠ k → y < 192 → lineTypeOf t k' y = lineTypeOf s k' y) ∧
      Sparse.wf 0 t.inner.tA = true ∧
      t = { s with offset := t.offset, inner := { s.inner with tA := t.inner.tA } }

/-- The line loop inside a command is the machine run for 192 steps, one line a step; where the loop raises,
one of those steps records the same fault (42_frame_a.md R198; log 10). -/
def Obligations.LineLoopIsSteps : Prop :=
  ∀ (k : Fin 2) (s : State), s.faulted = false →
    (∀ t, decodeLines k s = .ok t →
      Host.Core.run Sys2Proof.core 192 (s.atLine k 0) = .next { t with inner := Inner.idle }) ∧
    (∀ e, decodeLines k s = .error e →
      ∃ n u, n ≤ 192 ∧ Host.Core.run Sys2Proof.core n (s.atLine k 0) = .next u ∧
        u.faulted = true ∧ statusFcode u.status = fcodeOf e.code ∧ u.finfo = BitVec.ofInt 32 e.info)

/-- 42_frame_a.md R224. -/
def Obligations.FaReset : Prop :=
  decode (.cmd 0x00000020#32) = .ok .faReset ∧
  ∀ s : State, s.faulted = false → ∃ t, exec .faReset s = .next t ∧
    t = { s with lA := t.lA, pA := t.pA, lastA := 0xFFFFFFFF#32 } ∧
    ∀ k p, pixelA (t.lA.layer k) p = false ∧ pixelA (t.pA.layer k) p = false

/-- `FA_DECODE_AT` is the frame record's header, translation, line-type tables and lines, in the order of
`LINE_TABLE_ORDER`, over cleared layers, then the XOR of a non-key frame and the copy to `P_A`; `LASTA` is none,
no loop is left running (log 10), and a raise of a part is the command's. It completes wherever the longest
record fits, and faults where the header or the translation passes `LEN` (42_frame_a.md R190, R191, R194, R196,
R204, R206, R207). -/
def Obligations.FaDecodeAt : Prop :=
  ∀ s : State, s.faulted = false →
    (s.arg0.toNat + 13923 ≤ s.len.toNat →
      ∃ t, exec .faDecodeAt s = .next t ∧
        t = { s with
          offset := t.offset, lA := t.lA, pA := t.lA, lastA := 0xFFFFFFFF#32, inner := Inner.idle } ∧
        t.offset.toNat ≤ s.len.toNat) ∧
    (∀ (n : Nat) (tx ty : Int) (s0 : State) (lines : Run State),
      (n, tx, ty) = (if headerTranslated (s.byteAt s.arg0.toNat) then
        (3, (s.byteAt (s.arg0.toNat + 1)).toInt, (s.byteAt (s.arg0.toNat + 2)).toInt) else (1, 0, 0)) →
      s.arg0.toNat + n ≤ s.len.toNat →
      s0 = { s with
        offset := BitVec.ofNat 32 (s.arg0.toNat + n), lA := ⟨[], []⟩, inner := Inner.idle } →
      ((s.cfg.lineTableOrder = .tablesFirst ∧
          lines = (unpackTypes 0 s0 >>= unpackTypes 1 >>= decodeLines 0 >>= decodeLines 1)) ∨
        (s.cfg.lineTableOrder = .interleaved ∧
          lines = (unpackTypes 0 s0 >>= decodeLines 0 >>= unpackTypes 1 >>= decodeLines 1))) →
      (∀ a r, lines = .ok a →
        r = (if headerKey (s.byteAt s.arg0.toNat) then a else xorDelta tx ty a) →
        exec .faDecodeAt s =
          .next { r with pA := r.lA, lastA := 0xFFFFFFFF#32, inner := Inner.idle }) ∧
      (∀ e, lines = .error e → exec .faDecodeAt s = .next (raise e s))) ∧
    (s.len.toNat ≤ s.arg0.toNat →
      ∃ t, exec .faDecodeAt s = .next t ∧ FaultRecorded s t 0x02#8 s.arg0) ∧
    (s.arg0.toNat + 1 ≤ s.len.toNat → headerTranslated (s.byteAt s.arg0.toNat) = true →
      s.len.toNat < s.arg0.toNat + 3 →
      ∃ t, exec .faDecodeAt s = .next t ∧ FaultRecorded s t 0x02#8 s.len)

/-- 42_frame_a.md R208: two blocks with the same input, however different otherwise, decode a keyframe to the
same layers, or both fault the same way. -/
def Obligations.KeyframeIndependence : Prop :=
  ∀ s s' : State, s.faulted = false → s'.faulted = false →
    s'.mem = s.mem → s'.len = s.len → s'.cfg = s.cfg → s'.arg0 = s.arg0 →
    headerKey (s.byteAt s.arg0.toNat) = true →
    ∃ t t', exec .faDecodeAt s = .next t ∧ exec .faDecodeAt s' = .next t' ∧
      ((t.faulted = false ∧ t'.faulted = false ∧ t'.lA = t.lA ∧ t'.pA = t.pA ∧ t'.offset = t.offset) ∨
        (t.faulted = true ∧ t'.faulted = true ∧
          statusFcode t'.status = statusFcode t.status ∧ t'.finfo = t.finfo))

/-- 42_frame_a.md R204: a non-key frame is its own lines (what it decodes to over an empty `P_A`) XORed with
`P_A` at the translation; a destination whose source falls outside the frame keeps its value. -/
def Obligations.DeltaFrame : Prop :=
  ∀ (s t : State) (tx ty : Int), s.faulted = false → headerKey (s.byteAt s.arg0.toNat) = false →
    (tx, ty) = (if headerTranslated (s.byteAt s.arg0.toNat) then
      ((s.byteAt (s.arg0.toNat + 1)).toInt, (s.byteAt (s.arg0.toNat + 2)).toInt) else (0, 0)) →
    exec .faDecodeAt s = .next t → t.faulted = false →
    ∃ u, exec .faDecodeAt { s with pA := ⟨[], []⟩ } = .next u ∧ u.faulted = false ∧
      t.pA = t.lA ∧ t.offset = u.offset ∧
      ∀ (k : Fin 2) (x y : Nat), x < 256 → y < 192 →
        pixelA (t.lA.layer k) (256 * y + x) =
          (pixelA (u.lA.layer k) (256 * y + x) ^^
            if 0 ≤ (x : Int) - tx ∧ (x : Int) - tx < 256 ∧
                0 ≤ (y : Int) - ty ∧ (y : Int) - ty < 192 then
              pixelA (s.pA.layer k) (256 * ((y : Int) - ty).toNat + ((x : Int) - tx).toNat)
            else false)

/-- `FA_DECODE_FRAME` of the cached frame changes nothing; an index past the table and a non-key frame 0
raise `FRAME_RANGE` (42_frame_a.md R221, R223). -/
def Obligations.FaFrameLookup : Prop :=
  ∀ s : State, s.faulted = false →
    (s.arg0 = s.lastA → s.arg0 ≠ 0xFFFFFFFF#32 → s.arg0.toNat < s.cfg.frameOffsetA.length →
      exec .faDecodeFrame s = .next s) ∧
    (s.cfg.frameOffsetA.length ≤ s.arg0.toNat →
      ∃ t, exec .faDecodeFrame s = .next t ∧ FaultRecorded s t 0x06#8 s.arg0) ∧
    (∀ f, s.arg0 = 0#32 → s.lastA ≠ 0#32 → s.cfg.frameOffsetA[0]? = some f →
      f.toNat + 1 ≤ s.len.toNat → headerKey (s.byteAt f.toNat) = false →
      ∃ t, exec .faDecodeFrame s = .next t ∧ FaultRecorded s t 0x06#8 0xFFFFFFFF#32)

/-- The sequencer (42_frame_a.md R222): the header of the frame is looked at first, and `BOUNDS` raised where it
is past `LEN`; a keyframe, or the frame after the cached one, is its record alone; any other frame is its
predecessor's `FA_DECODE_FRAME` and then its own. What faults in a part, faults the same way in the whole
(60_exceptions.md R301, R302). -/
def Obligations.FaFrameChain : Prop :=
  ∀ (s si : State) (i : Nat) (f : Word), s.faulted = false → s.ConfigLegal →
    s.cfg.frameOffsetA[i]? = some f → s.lastA ≠ BitVec.ofNat 32 i →
    si = { s with arg0 := BitVec.ofNat 32 i } →
    (s.len.toNat ≤ f.toNat →
      ∃ t, exec .faDecodeFrame si = .next t ∧ FaultRecorded si t 0x02#8 f) ∧
    (f.toNat + 1 ≤ s.len.toNat →
      (headerKey (s.byteAt f.toNat) = true ∨ (0 < i ∧ s.lastA = BitVec.ofNat 32 (i - 1))) →
      ∀ t, exec .faDecodeAt { s with arg0 := f } = .next t →
        (t.faulted = false → exec .faDecodeFrame si =
          .next { t with arg0 := BitVec.ofNat 32 i, lastA := BitVec.ofNat 32 i }) ∧
        (t.faulted = true → ∃ v, exec .faDecodeFrame si = .next v ∧
          FaultRecorded si v (statusFcode t.status) t.finfo)) ∧
    (f.toNat + 1 ≤ s.len.toNat →
      headerKey (s.byteAt f.toNat) = false → 0 < i → s.lastA ≠ BitVec.ofNat 32 (i - 1) →
      ∀ t, exec .faDecodeFrame { s with arg0 := BitVec.ofNat 32 (i - 1) } = .next t →
        (t.faulted = false →
          t.lastA = BitVec.ofNat 32 (i - 1) ∧
          ∀ u, exec .faDecodeFrame { t with arg0 := BitVec.ofNat 32 i } = .next u →
            (u.faulted = false → exec .faDecodeFrame si = .next u) ∧
            (u.faulted = true → ∃ v, exec .faDecodeFrame si = .next v ∧
              FaultRecorded si v (statusFcode u.status) u.finfo)) ∧
        (t.faulted = true → ∃ v, exec .faDecodeFrame si = .next v ∧
          FaultRecorded si v (statusFcode t.status) t.finfo))

/-- `FA_DECODE_FRAME` completes for every index of a table whose records fit and whose frame 0 is a keyframe:
the frame is cached, and `P_A` equals `L_A` after a decode (42_frame_a.md R221). -/
def Obligations.FaFrameCompletes : Prop :=
  ∀ s : State, s.faulted = false → s.arg0.toNat < s.cfg.frameOffsetA.length →
    (∀ f ∈ s.cfg.frameOffsetA, f.toNat + 13923 ≤ s.len.toNat) →
    (∀ f, s.cfg.frameOffsetA[0]? = some f → headerKey (s.byteAt f.toNat) = true) →
    ∃ t, exec .faDecodeFrame s = .next t ∧
      t = { s with offset := t.offset, lA := t.lA, pA := t.pA, lastA := t.lastA, inner := t.inner } ∧
      t.lastA = s.arg0 ∧ (s.lastA ≠ s.arg0 → t.pA = t.lA)

/-- The format A cache is coherent, at reset and after every step: while the block runs, `L_A` and `P_A` hold
what the cached frame decodes to alone (42_frame_a.md R208, R221, R225). -/
def Obligations.CacheCoherent : Prop :=
  State.reset.CoherentA ∧ ∀ s t : State, s.Inv → s.CoherentA → step s = .next t → t.CoherentA

/-- 42_frame_a.md R225: decoding frames 0 to i in order and decoding frame i alone after `FA_RESET` leave the
same layers; and `FA_DECODE_FRAME` twice in a row leaves the state of a single call. That the cache is coherent
at the start is an invariant (CacheCoherent). -/
def Obligations.FaSequence : Prop :=
  (∀ (s t : State) (i : Nat), s.faulted = false → s.ConfigLegal → s.CoherentA →
    framesInOrder i s = some t → t.faulted = false → s.frameAlone i = some (t.lA, t.pA)) ∧
  (∀ s t : State, s.ConfigLegal → exec .faDecodeFrame s = .next t → exec .faDecodeFrame t = .next t)

/-! ## Format B -/

/-- 43_frame_b.md R242: the full dictionary and its rotated variant are bijections from [0, 6560] onto the
lines; a larger index has no entry. -/
def Obligations.FullDictionary : Prop :=
  (∀ l : Line, (∃ v, v ≤ 6560 ∧ fullEntry v = l ∧ ∀ v', v' ≤ 6560 → fullEntry v' = l → v' = v) ∧
    (∃ v, v ≤ 6560 ∧ shiftEntry v = l ∧ ∀ v', v' ≤ 6560 → shiftEntry v' = l → v' = v)) ∧
  ∀ v : Nat, 6560 < v → fullLine v = .error ⟨.badIndex, v⟩ ∧ shiftLine v = .error ⟨.badIndex, v⟩

/-- 43_frame_b.md R247: 1200 slots that cover every pixel of the canvas exactly once, the macro tiles in order,
and the anchors. -/
def Obligations.TileTraversal : Prop :=
  tileOrder.length = 1200 ∧
  (∀ x y, x < 320 → y < 240 → ∃ slot, slot < 1200 ∧ inTile (slotXY slot).1 (slotXY slot).2 (320 * y + x) ∧
    ∀ slot', slot' < 1200 → inTile (slotXY slot').1 (slotXY slot').2 (320 * y + x) → slot' = slot) ∧
  (tileOrder.map fun e => (e.1 / 128, e.2 / 128)) =
    List.replicate 256 (0, 0) ++ List.replicate 256 (1, 0) ++ List.replicate 128 (2, 0) ++
      List.replicate 224 (0, 1) ++ List.replicate 224 (1, 1) ++ List.replicate 112 (2, 1) ∧
  slotXY 0 = (0, 0) ∧ slotXY 15 = (120, 0) ∧ slotXY 16 = (0, 8) ∧ slotXY 255 = (120, 120) ∧
  slotXY 256 = (128, 0) ∧ slotXY 512 = (256, 0) ∧ slotXY 519 = (312, 0) ∧ slotXY 520 = (256, 8) ∧
  slotXY 639 = (312, 120) ∧ slotXY 640 = (0, 128) ∧ slotXY 864 = (128, 128) ∧
  slotXY 1088 = (256, 128) ∧ slotXY 1199 = (312, 232)

/-- 43_frame_b.md R249 and R251: five bits after the type field name a common line; every row is it, or it
and its rotation alternate. -/
def Obligations.TileCommon : Prop :=
  decode (.tile 0#3) = .ok .tileCommon ∧ decode (.tile 2#3) = .ok .tileCommonAlt ∧
  ∀ (s : State) (j : BitVec 5), s.faulted = false → s.Synced → s.lB.ok → s.roomFor 5 →
    j = BitVec.ofNat 5 (s.field s.bitPos 5) →
    (∃ t, exec .tileCommon s = .next t ∧ TileWritten s t 5 fun _ => commonEntry s.cfg j) ∧
    (∃ t, exec .tileCommonAlt s = .next t ∧
      TileWritten s t 5 fun r => if r % 2 = 0 then commonEntry s.cfg j else commonShiftEntry s.cfg j)

/-- 43_frame_b.md R250 and R252: thirteen bits name a full line; every row is it, or it and its rotation
alternate; an index past the dictionary raises `BAD_INDEX`. -/
def Obligations.TileFull : Prop :=
  decode (.tile 1#3) = .ok .tileFull ∧ decode (.tile 3#3) = .ok .tileFullAlt ∧
  ∀ (s : State) (v : Nat), s.faulted = false → s.Synced → s.lB.ok → s.roomFor 13 →
    v = s.field s.bitPos 13 →
    (v ≤ 6560 →
      (∃ t, exec .tileFull s = .next t ∧ TileWritten s t 13 fun _ => fullEntry v) ∧
      (∃ t, exec .tileFullAlt s = .next t ∧
        TileWritten s t 13 fun r => if r % 2 = 0 then fullEntry v else shiftEntry v)) ∧
    (6560 < v →
      (∃ t, exec .tileFull s = .next t ∧ FaultRecorded s t 0x08#8 (BitVec.ofNat 32 v)) ∧
      (∃ t, exec .tileFullAlt s = .next t ∧ FaultRecorded s t 0x08#8 (BitVec.ofNat 32 v)))

/-- 43_frame_b.md R253: eight flags, then one index for each row, common where its flag is set; the record is
115 − 8·popcount bits long with its type field (30_encoding.md R108). -/
def Obligations.TileRows : Prop :=
  decode (.tile 4#3) = .ok .tileRows ∧
  ∀ (s : State) (f : Byte), s.faulted = false → s.Synced → s.lB.ok →
    f = BitVec.ofNat 8 (s.field s.bitPos 8) →
    s.roomFor (112 - 8 * ((List.range 8).filter fun r => f.getLsbD r).length) →
    (∀ r, r < 8 → f.getLsbD r = false → s.field (s.bitPos + 8 + rowIndexPos f r) 13 ≤ 6560) →
    ∃ t, exec .tileRows s = .next t ∧
      TileWritten s t (112 - 8 * ((List.range 8).filter fun r => f.getLsbD r).length) fun r =>
        lineAt s (f.getLsbD r) (s.bitPos + 8 + rowIndexPos f r)

/-- 43_frame_b.md R256 and R257: the pattern code, the dictionary bit, two lines; with the common dictionary
the code counts one on, modulo 4. -/
def Obligations.TilePattern : Prop :=
  decode (.tile 7#3) = .ok .tilePattern ∧
  ∀ (s : State) (common : Bool) (q : Nat), s.faulted = false → s.Synced → s.lB.ok →
    common = s.streamBit (s.bitPos + 2) →
    q = (s.field s.bitPos 2 + if common then 1 else 0) % 4 →
    s.roomFor (3 + 2 * indexBits common) →
    (common = false → s.field (s.bitPos + 3) 13 ≤ 6560 ∧ s.field (s.bitPos + 16) 13 ≤ 6560) →
    ∃ t, exec .tilePattern s = .next t ∧
      TileWritten s t (3 + 2 * indexBits common) fun r =>
        if (q = 0 ∧ r % 2 = 0) ∨ (q = 1 ∧ r % 3 ≠ 2) ∨ (q = 2 ∧ r % 3 ≠ 1) ∨ (q = 3 ∧ r % 3 = 0) then
          lineAt s common (s.bitPos + 3)
        else lineAt s common (s.bitPos + 3 + indexBits common)

/-- 43_frame_b.md R258: the reserved type faults with its slot, or under `NoOp` does nothing. And a skip record
sets `SKIP` and writes nothing (the record's part of R254; the slots after it are in the tile loop). -/
def Obligations.TileSkipReserved : Prop :=
  decode (.tile 5#3) = .ok .tileSkip ∧ decode (.tile 6#3) = .ok .tileReserved ∧
  ∀ s : State, s.faulted = false →
    (s.Synced → s.roomFor 5 →
      ∃ t, exec .tileSkip s = .next t ∧ t.Synced ∧ t.bitPos = s.bitPos + 5 ∧
        t = { s with
          offset := t.offset, acc := t.acc, dfc := t.dfc
          inner := { s.inner with skip := BitVec.ofNat 5 (s.field s.bitPos 5) } }) ∧
    (s.cfg.tile6Policy = .noOp → exec .tileReserved s = .next s) ∧
    (s.cfg.tile6Policy = .fault →
      ∃ t, exec .tileReserved s = .next t ∧
        FaultRecorded s t 0x05#8 (BitVec.ofNat 32 s.inner.slot.val))

/-- 43_frame_b.md R279: an index above 6560 raises `BAD_INDEX` when it is read, for the tile types that read
a full index: types 1, 3 and 7 at their first, type 4 at any row whose earlier rows are legal. -/
def Obligations.TileBadIndex : Prop :=
  ∀ s : State, s.faulted = false → s.Synced →
    (s.roomFor 13 → 6560 < s.field s.bitPos 13 →
      (∃ t, exec .tileFull s = .next t ∧
        FaultRecorded s t 0x08#8 (BitVec.ofNat 32 (s.field s.bitPos 13))) ∧
      (∃ t, exec .tileFullAlt s = .next t ∧
        FaultRecorded s t 0x08#8 (BitVec.ofNat 32 (s.field s.bitPos 13)))) ∧
    (s.roomFor 16 → s.streamBit (s.bitPos + 2) = false → 6560 < s.field (s.bitPos + 3) 13 →
      ∃ t, exec .tilePattern s = .next t ∧
        FaultRecorded s t 0x08#8 (BitVec.ofNat 32 (s.field (s.bitPos + 3) 13))) ∧
    (s.roomFor 29 → s.streamBit (s.bitPos + 2) = false → s.field (s.bitPos + 3) 13 ≤ 6560 →
      6560 < s.field (s.bitPos + 16) 13 →
      ∃ t, exec .tilePattern s = .next t ∧
        FaultRecorded s t 0x08#8 (BitVec.ofNat 32 (s.field (s.bitPos + 16) 13))) ∧
    (∀ (f : Byte) (r : Nat), f = BitVec.ofNat 8 (s.field s.bitPos 8) → r < 8 →
      f.getLsbD r = false → s.roomFor (8 + rowIndexPos f (r + 1)) →
      (∀ r', r' < r → f.getLsbD r' = false → s.field (s.bitPos + 8 + rowIndexPos f r') 13 ≤ 6560) →
      6560 < s.field (s.bitPos + 8 + rowIndexPos f r) 13 →
      ∃ t, exec .tileRows s = .next t ∧
        FaultRecorded s t 0x08#8 (BitVec.ofNat 32 (s.field (s.bitPos + 8 + rowIndexPos f r) 13)))

/-- The tile loop inside a command is the machine run for 1200 steps, one slot a step; where the loop raises,
one of those steps records the same fault (43_frame_b.md R245; log 10). -/
def Obligations.TileLoopIsSteps : Prop :=
  ∀ (k : Fin 3) (p : Nat) (s : State), s.faulted = false → p ≤ s.len.toNat →
    (∀ t, decodeLayerB k p s = .ok t →
      Host.Core.run Sys2Proof.core 1200 (s.openLayerB k p) = .next t) ∧
    (∀ e, decodeLayerB k p s = .error e →
      ∃ n u, n ≤ 1200 ∧ Host.Core.run Sys2Proof.core n (s.openLayerB k p) = .next u ∧
        u.faulted = true ∧ statusFcode u.status = fcodeOf e.code ∧ u.finfo = BitVec.ofInt 32 e.info)

/-- 43_frame_b.md R276. -/
def Obligations.FbReset : Prop :=
  decode (.cmd 0x00000030#32) = .ok .fbReset ∧
  ∀ s : State, s.faulted = false → ∃ t, exec .fbReset s = .next t ∧
    t = { s with lB := t.lB, lastB := 0xFFFFFFFF#32 } ∧
    ∀ k p, pixelB (t.lB.layer k) p = 0

/-- `FB_DECODE_LAYER k` is `DecodeLayerB(k, ARG0)`, which is the machine's 1200 tile steps (TileLoopIsSteps), and
then `LASTB` none; its raise is the command's. It completes wherever the stream fits, changes the cursors, that
layer and `LASTB` only, and leaves the layer alone when its bytes are all skip records; a start past `LEN`, or a
layer above 2, faults (43_frame_b.md R245, R254, R260; log 10). -/
def Obligations.FbDecodeLayer : Prop :=
  ∀ (k : Byte) (s : State), s.faulted = false →
    (∀ h : k.toNat < 3,
      (∀ t, decodeLayerB ⟨k.toNat, h⟩ s.arg0.toNat s = .ok t →
        exec (.fbDecodeLayer k) s = .next { t with lastB := 0xFFFFFFFF#32 }) ∧
      (∀ e, decodeLayerB ⟨k.toNat, h⟩ s.arg0.toNat s = .error e →
        exec (.fbDecodeLayer k) s = .next (raise e s)) ∧
      (s.layerFits s.arg0.toNat →
        ∃ t, exec (.fbDecodeLayer k) s = .next t ∧
          t = { s with
            offset := t.offset, acc := t.acc, dfc := t.dfc, lB := t.lB
            lastB := 0xFFFFFFFF#32, inner := Inner.idle } ∧
          (∀ k', k' ≠ ⟨k.toNat, h⟩ → t.lB.layer k' = s.lB.layer k') ∧
          ((∀ j, j < 1200 → s.arg0.toNat + j < s.len.toNat →
              (s.byteAt (s.arg0.toNat + j)).extractLsb' 0 3 = 5#3) → t.lB = s.lB))) ∧
    (k.toNat < 3 → s.len.toNat < s.arg0.toNat →
      ∃ t, exec (.fbDecodeLayer k) s = .next t ∧ FaultRecorded s t 0x02#8 s.arg0) ∧
    (3 ≤ k.toNat →
      ∃ t, exec (.fbDecodeLayer k) s = .next t ∧ FaultRecorded s t 0x07#8 (k.setWidth 32))

/-- Frame 0, or the frame after the cached one, decodes its own layers only: layers 0, 1, 2 in turn, each what
`DecodeLayerB` leaves from the sum of the sizes before it, those that are sentinels or masked out not at all;
then it is cached. `FB_DECODE_FRAME` asks for all three, and a raise of a layer is its own. It completes wherever
the streams fit, and changes the format B decoder only (43_frame_b.md R271 to R275). -/
def Obligations.FbFrameAlone : Prop :=
  ∀ (s : State) (i : Nat) (fm : FrameMetaB), s.faulted = false → s.ConfigLegal →
    s.cfg.frameMetaB[i]? = some fm → s.lastB ≠ BitVec.ofNat 32 i →
    (i = 0 ∨ s.lastB = BitVec.ofNat 32 (i - 1)) →
    (∀ (mask : BitVec 3) (isPrev : Bool),
      decodeFrameB i mask isPrev s =
        ((if fm.size0 = 38 ∨ mask.getLsbD 0 = false then .ok s else decodeLayerB 0 fm.off s) >>= fun a =>
          (if fm.size1 = 38 ∨ mask.getLsbD 1 = false then .ok a
            else decodeLayerB 1 (fm.off + fm.size0) a) >>= fun b =>
          (if fm.size2 = 38 ∨ mask.getLsbD 2 = false then .ok b
            else decodeLayerB 2 (fm.off + fm.size0 + fm.size1) b) >>= fun c =>
          .ok { c with lastB := BitVec.ofNat 32 i })) ∧
    (s.arg0 = BitVec.ofNat 32 i →
      (∀ t, decodeFrameB i 0b111#3 false s = .ok t → exec .fbDecodeFrame s = .next t) ∧
      (∀ e, decodeFrameB i 0b111#3 false s = .error e → exec .fbDecodeFrame s = .next (raise e s)) ∧
      ((fm.size0 = 38 ∨ s.layerFits fm.off) →
        (fm.size1 = 38 ∨ s.layerFits (fm.off + fm.size0)) →
        (fm.size2 = 38 ∨ s.layerFits (fm.off + fm.size0 + fm.size1)) →
        ∃ t, exec .fbDecodeFrame s = .next t ∧
          t = { s with
            offset := t.offset, acc := t.acc, dfc := t.dfc, lB := t.lB, lastB := s.arg0
            inner := t.inner } ∧
          (fm.size0 = 38 → t.lB.layer 0 = s.lB.layer 0) ∧
          (fm.size1 = 38 → t.lB.layer 1 = s.lB.layer 1) ∧
          (fm.size2 = 38 → t.lB.layer 2 = s.lB.layer 2) ∧
          (fm.size0 = 38 → fm.size1 = 38 → fm.size2 = 38 → t = { s with lastB := s.arg0 })))

/-- The sequencer at every depth (43_frame_b.md R272): a request for a frame whose predecessor is not cached, under
any mask, as an ancestor or not, narrows the mask by the diff flag of the frame after it if it is an ancestor
request; with a layer left it is the ancestor request for the predecessor, which caches it, and then the frame's
own layers under that mask; with none left it only caches the frame. `FB_DECODE_FRAME` is such a request, and ends
as it would from the state that the predecessor leaves. What faults in a part, faults the whole
(60_exceptions.md R301, R302). -/
def Obligations.FbFrameChain : Prop :=
  ∀ (s : State) (i : Nat) (mask m : BitVec 3) (isPrev : Bool) (fm : FrameMetaB),
    s.faulted = false → s.ConfigLegal → s.cfg.frameMetaB[i + 1]? = some fm →
    s.lastB ≠ BitVec.ofNat 32 (i + 1) → s.lastB ≠ BitVec.ofNat 32 i →
    ((isPrev = false ∧ m = mask) ∨
      (isPrev = true ∧ ∃ later, s.cfg.frameMetaB[i + 2]? = some later ∧ m = mask &&& ~~~later.diff)) →
    (m ≠ 0#3 →
      (∀ t, decodeFrameB i m true s = .ok t →
        t.lastB = BitVec.ofNat 32 i ∧
        decodeFrameB (i + 1) mask isPrev s =
          ((if fm.size0 = 38 ∨ m.getLsbD 0 = false then .ok t else decodeLayerB 0 fm.off t) >>= fun a =>
            (if fm.size1 = 38 ∨ m.getLsbD 1 = false then .ok a
              else decodeLayerB 1 (fm.off + fm.size0) a) >>= fun b =>
            (if fm.size2 = 38 ∨ m.getLsbD 2 = false then .ok b
              else decodeLayerB 2 (fm.off + fm.size0 + fm.size1) b) >>= fun c =>
            .ok { c with lastB := BitVec.ofNat 32 (i + 1) })) ∧
      (∀ e, decodeFrameB i m true s = .error e → decodeFrameB (i + 1) mask isPrev s = .error e)) ∧
    (m = 0#3 →
      decodeFrameB (i + 1) mask isPrev s = .ok { s with lastB := BitVec.ofNat 32 (i + 1) }) ∧
    (s.arg0 = BitVec.ofNat 32 (i + 1) →
      (∀ t, decodeFrameB (i + 1) 0b111#3 false s = .ok t → exec .fbDecodeFrame s = .next t) ∧
      (∀ e, decodeFrameB (i + 1) 0b111#3 false s = .error e →
        exec .fbDecodeFrame s = .next (raise e s)) ∧
      (∀ t, decodeFrameB i 0b111#3 true s = .ok t → ∀ u, exec .fbDecodeFrame t = .next u →
        (u.faulted = false → exec .fbDecodeFrame s = .next u) ∧
        (u.faulted = true → ∃ v, exec .fbDecodeFrame s = .next v ∧
          FaultRecorded s v (statusFcode u.status) u.finfo)))

/-- 43_frame_b.md R277: a set bit k of frame i + 1's diff flag takes layer k out of the ancestor request for
frame i, and when nothing is left no earlier frame is decoded. -/
def Obligations.FbAncestorMask : Prop :=
  ∀ (s : State) (i : Nat) (mask : BitVec 3) (fm : FrameMetaB), s.ConfigLegal →
    s.cfg.frameMetaB[i + 1]? = some fm → 0 < i →
    s.lastB ≠ BitVec.ofNat 32 i → s.lastB ≠ BitVec.ofNat 32 (i - 1) →
    (∀ t, decodeFrameB i mask true s = .ok t →
      ∀ k : Fin 3, (fm.diff.getLsbD k.val = true ∨ mask.getLsbD k.val = false) →
        t.lB.layer k = s.lB.layer k) ∧
    (mask &&& ~~~fm.diff = 0#3 →
      decodeFrameB i mask true s = .ok { s with lastB := BitVec.ofNat 32 i })

/-- `FB_DECODE_FRAME` of the cached frame changes nothing, so a second call changes nothing; an index past
the table raises `FRAME_RANGE` (43_frame_b.md R271, R272, R278). -/
def Obligations.FbFrameLookup : Prop :=
  (∀ s : State, s.faulted = false → s.arg0 = s.lastB → s.arg0 ≠ 0xFFFFFFFF#32 →
    s.arg0.toNat < s.cfg.frameMetaB.length → exec .fbDecodeFrame s = .next s) ∧
  (∀ s : State, s.faulted = false → s.cfg.frameMetaB.length ≤ s.arg0.toNat →
    ∃ t, exec .fbDecodeFrame s = .next t ∧ FaultRecorded s t 0x06#8 s.arg0) ∧
  (∀ s t : State, s.faulted = false → s.ConfigLegal → exec .fbDecodeFrame s = .next t →
    t.faulted = false → exec .fbDecodeFrame t = .next t)
end

