-- ==== Sys2Proof/Laws/Sparse.lean ====
section
/-! SUPPORT. The laws of the sparse store: read after write, and every operation keeps the canonical form. -/

namespace Sys2Proof.Machine

section
variable {α : Type} {d : α} {m : Sparse α}

@[simp] theorem Sparse.get_nil (k : Nat) : Sparse.get d [] k = d := rfl

theorem Sparse.get_cons (a k : Nat) (v : α) (m : Sparse α) :
    Sparse.get d ((a, v) :: m) k = if a = k then v else Sparse.get d m k := rfl

theorem Sparse.below_cons {n a : Nat} {v : α} :
    Sparse.below n ((a, v) :: m) = true ↔ a < n ∧ Sparse.below n m = true := by
  simp [Sparse.below]

@[simp] theorem Sparse.below_nil (n : Nat) : Sparse.below n ([] : Sparse α) = true := rfl

/-- Keys that are not listed read as the default. -/
theorem Sparse.get_of_not_listed {k : Nat} (h : ∀ e ∈ m, e.1 ≠ k) : Sparse.get d m k = d := by
  induction m with
  | nil => rfl
  | cons e m ih =>
    obtain ⟨a, v⟩ := e
    rw [Sparse.get_cons, if_neg (h (a, v) (by simp)), ih fun e he => h e (by simp [he])]

theorem Sparse.get_of_below {n k : Nat} (h : Sparse.below n m = true) (hk : n ≤ k) :
    Sparse.get d m k = d := by
  simp only [Sparse.below, List.all_eq_true, decide_eq_true_eq] at h
  refine Sparse.get_of_not_listed fun e he => ?_
  have := h e he
  omega

end

variable {α : Type} [DecidableEq α] {d : α} {m : Sparse α}

theorem Sparse.wf_cons {a : Nat} {v : α} :
    Sparse.wf d ((a, v) :: m) = true ↔
      v ≠ d ∧ (∀ e ∈ m, a < e.1) ∧ Sparse.wf d m = true := by
  simp [Sparse.wf, and_assoc]

@[simp] theorem Sparse.wf_nil : Sparse.wf d ([] : Sparse α) = true := rfl

/-- A write leaves every other key alone. -/
theorem Sparse.get_set_ne {k j : Nat} {v : α} (h : j ≠ k) :
    Sparse.get d (Sparse.set d m k v) j = Sparse.get d m j := by
  induction m with
  | nil =>
    unfold Sparse.set
    split <;> simp [Sparse.get, Ne.symm h]
  | cons e m ih =>
    obtain ⟨a, w⟩ := e
    unfold Sparse.set
    split
    · split <;> simp [Sparse.get, Ne.symm h]
    · split
      · rename_i hk
        subst hk
        split <;> simp [Sparse.get, Ne.symm h]
      · simp [Sparse.get, ih]

/-- A read of the key just written gives the value written. -/
theorem Sparse.get_set_self {k : Nat} {v : α} (h : Sparse.wf d m = true) :
    Sparse.get d (Sparse.set d m k v) k = v := by
  induction m with
  | nil =>
    unfold Sparse.set
    split <;> simp_all [Sparse.get]
  | cons e m ih =>
    obtain ⟨a, w⟩ := e
    obtain ⟨hw, hlt, hm⟩ := Sparse.wf_cons.1 h
    unfold Sparse.set
    split
    · rename_i hk
      split
      · subst v
        apply Sparse.get_of_not_listed
        rintro e he
        rcases List.mem_cons.1 he with rfl | he
        · exact Nat.ne_of_gt hk
        · exact Nat.ne_of_gt (Nat.lt_trans hk (hlt e he))
      · simp [Sparse.get]
    · split
      · rename_i hk
        subst k
        split
        · subst v
          exact Sparse.get_of_not_listed fun e he => Nat.ne_of_gt (hlt e he)
        · simp [Sparse.get]
      · rename_i hk
        rw [Sparse.get_cons, if_neg (fun h => hk h.symm), ih hm]

theorem Sparse.get_set {k j : Nat} {v : α} (h : Sparse.wf d m = true) :
    Sparse.get d (Sparse.set d m k v) j = if j = k then v else Sparse.get d m j := by
  split
  · subst j; exact Sparse.get_set_self h
  · rename_i hj; exact Sparse.get_set_ne hj

/-- Every key a write leaves listed was listed, or is the key written. -/
theorem Sparse.mem_set {k : Nat} {v : α} {e : Nat × α} (h : e ∈ Sparse.set d m k v) :
    e ∈ m ∨ e = (k, v) := by
  induction m with
  | nil =>
    unfold Sparse.set at h
    split at h <;> simp_all
  | cons e' m ih =>
    obtain ⟨a, w⟩ := e'
    unfold Sparse.set at h
    split at h
    · split at h <;> simp_all
      tauto
    · split at h
      · split at h <;> simp_all
        tauto
      · rcases List.mem_cons.1 h with rfl | h
        · simp
        · rcases ih h with h | h <;> simp [h]

/-- A write keeps the canonical form. -/
theorem Sparse.wf_set {k : Nat} {v : α} (h : Sparse.wf d m = true) :
    Sparse.wf d (Sparse.set d m k v) = true := by
  induction m with
  | nil =>
    unfold Sparse.set
    split <;> simp_all [Sparse.wf]
  | cons e m ih =>
    obtain ⟨a, w⟩ := e
    have h' := Sparse.wf_cons.1 h
    obtain ⟨hw, hlt, hm⟩ := h'
    unfold Sparse.set
    split
    · rename_i hk
      split
      · exact h
      · rename_i hv
        refine Sparse.wf_cons.2 ⟨hv, ?_, h⟩
        rintro e he
        rcases List.mem_cons.1 he with rfl | he
        · exact hk
        · exact Nat.lt_trans hk (hlt e he)
    · rename_i hk
      split
      · rename_i hka
        split
        · exact hm
        · rename_i hv
          exact Sparse.wf_cons.2 ⟨hv, fun e he => hka ▸ hlt e he, hm⟩
      · refine Sparse.wf_cons.2 ⟨hw, fun e he => ?_, ih hm⟩
        rcases Sparse.mem_set he with he | rfl
        · exact hlt e he
        · simp only; omega

/-- A write below `n` keeps every listed key below `n`. -/
theorem Sparse.below_set {n k : Nat} {v : α} (h : Sparse.below n m = true) (hk : k < n) :
    Sparse.below n (Sparse.set d m k v) = true := by
  simp only [Sparse.below, List.all_eq_true, decide_eq_true_eq] at h ⊢
  intro e he
  rcases Sparse.mem_set he with he | rfl
  · exact h e he
  · exact hk

theorem Sparse.mem_tabulate {f : Nat → α} {i n : Nat} {e : Nat × α}
    (h : e ∈ Sparse.tabulate d f i n) : i ≤ e.1 ∧ e.1 < i + n ∧ e.2 = f e.1 ∧ e.2 ≠ d := by
  induction n generalizing i with
  | zero => simp [Sparse.tabulate] at h
  | succ n ih =>
    unfold Sparse.tabulate at h
    split at h
    · obtain ⟨h1, h2, h3, h4⟩ := ih h
      exact ⟨by omega, by omega, h3, h4⟩
    · rcases List.mem_cons.1 h with rfl | h
      · exact ⟨by simp, by simp, rfl, by assumption⟩
      · obtain ⟨h1, h2, h3, h4⟩ := ih h
        exact ⟨by omega, by omega, h3, h4⟩

/-- A tabulated store is in canonical form. -/
theorem Sparse.wf_tabulate {f : Nat → α} {i n : Nat} :
    Sparse.wf d (Sparse.tabulate d f i n) = true := by
  induction n generalizing i with
  | zero => rfl
  | succ n ih =>
    unfold Sparse.tabulate
    split
    · exact ih
    · rename_i hv
      refine Sparse.wf_cons.2 ⟨hv, fun e he => ?_, ih⟩
      have := (Sparse.mem_tabulate he).1
      omega

theorem Sparse.below_tabulate {f : Nat → α} {i n b : Nat} (h : i + n ≤ b) :
    Sparse.below b (Sparse.tabulate d f i n) = true := by
  simp only [Sparse.below, List.all_eq_true, decide_eq_true_eq]
  intro e he
  have := (Sparse.mem_tabulate he).2.1
  omega

/-- What a tabulated store reads as. -/
theorem Sparse.get_tabulate {f : Nat → α} {i n k : Nat} :
    Sparse.get d (Sparse.tabulate d f i n) k = if i ≤ k ∧ k < i + n then f k else d := by
  induction n generalizing i with
  | zero =>
    rw [if_neg (by omega)]
    rfl
  | succ n ih =>
    unfold Sparse.tabulate
    split
    · rename_i hd
      rw [ih]
      by_cases hik : i = k
      · subst hik
        rw [if_neg (by omega), if_pos (by omega), hd]
      · by_cases hc : i + 1 ≤ k ∧ k < i + 1 + n
        · rw [if_pos hc, if_pos (by omega)]
        · rw [if_neg hc, if_neg (by omega)]
    · rw [Sparse.get_cons, ih]
      by_cases hik : i = k
      · subst hik
        rw [if_pos rfl, if_pos (by omega)]
      · rw [if_neg hik]
        by_cases hc : i + 1 ≤ k ∧ k < i + 1 + n
        · rw [if_pos hc, if_pos (by omega)]
        · rw [if_neg hc, if_neg (by omega)]

/-- In canonical form, equal reads mean equal data. -/
theorem Sparse.ext {m' : Sparse α} (h : Sparse.wf d m = true) (h' : Sparse.wf d m' = true)
    (heq : ∀ k, Sparse.get d m k = Sparse.get d m' k) : m = m' := by
  induction m generalizing m' with
  | nil =>
    cases m' with
    | nil => rfl
    | cons e m' =>
      obtain ⟨a, v⟩ := e
      obtain ⟨hv, -, -⟩ := Sparse.wf_cons.1 h'
      have := heq a
      simp only [Sparse.get, if_pos] at this
      exact absurd this.symm hv
  | cons e m ih =>
    obtain ⟨a, v⟩ := e
    obtain ⟨hv, hlt, hm⟩ := Sparse.wf_cons.1 h
    cases m' with
    | nil =>
      have := heq a
      simp only [Sparse.get, if_pos] at this
      exact absurd this hv
    | cons e' m' =>
      obtain ⟨a', v'⟩ := e'
      obtain ⟨hv', hlt', hm'⟩ := Sparse.wf_cons.1 h'
      have hnot : ∀ {b : Nat} {l : Sparse α}, (∀ e ∈ l, b < e.1) → Sparse.get d l b = d :=
        fun hl => Sparse.get_of_not_listed fun e he => Nat.ne_of_gt (hl e he)
      have haa : a = a' := by
        rcases Nat.lt_trichotomy a a' with hc | hc | hc
        · have h1 := heq a
          rw [Sparse.get_cons, if_pos rfl, Sparse.get_cons, if_neg (by omega),
            Sparse.get_of_not_listed (m := m') fun e he => by have := hlt' e he; omega] at h1
          exact absurd h1 hv
        · exact hc
        · have h1 := heq a'
          rw [Sparse.get_cons, if_neg (by omega), Sparse.get_cons, if_pos rfl,
            Sparse.get_of_not_listed (m := m) fun e he => by have := hlt e he; omega] at h1
          exact absurd h1.symm hv'
      subst haa
      have hvv : v = v' := by simpa [Sparse.get_cons] using heq a
      subst hvv
      rw [ih hm hm' fun k => ?_]
      by_cases hk : a = k
      · subst hk
        rw [hnot hlt, hnot hlt']
      · have := heq k
        rwa [Sparse.get_cons, if_neg hk, Sparse.get_cons, if_neg hk] at this

end Sys2Proof.Machine
end

