-- ==== Sys2Proof/Laws/State.lean ====
section
/-! SUPPORT. What each named update of the state does to each field, true by unfolding; and `STATUS`. -/

namespace Sys2Proof.Machine
section
variable (s : State) (n : Nat)
@[simp] theorem State.advance_cmd : (s.advance n).cmd = s.cmd := rfl
@[simp] theorem State.advance_arg0 : (s.advance n).arg0 = s.arg0 := rfl
@[simp] theorem State.advance_arg1 : (s.advance n).arg1 = s.arg1 := rfl
@[simp] theorem State.advance_result : (s.advance n).result = s.result := rfl
@[simp] theorem State.advance_status : (s.advance n).status = s.status := rfl
@[simp] theorem State.advance_offset : (s.advance n).offset = s.offset + BitVec.ofNat 32 n := rfl
@[simp] theorem State.advance_len : (s.advance n).len = s.len := rfl
@[simp] theorem State.advance_acc : (s.advance n).acc = s.acc := rfl
@[simp] theorem State.advance_dfc : (s.advance n).dfc = s.dfc := rfl
@[simp] theorem State.advance_apred : (s.advance n).apred = s.apred := rfl
@[simp] theorem State.advance_aidx : (s.advance n).aidx = s.aidx := rfl
@[simp] theorem State.advance_bpred : (s.advance n).bpred = s.bpred := rfl
@[simp] theorem State.advance_bidx : (s.advance n).bidx = s.bidx := rfl
@[simp] theorem State.advance_lastA : (s.advance n).lastA = s.lastA := rfl
@[simp] theorem State.advance_lastB : (s.advance n).lastB = s.lastB := rfl
@[simp] theorem State.advance_pcmCount : (s.advance n).pcmCount = s.pcmCount := rfl
@[simp] theorem State.advance_finfo : (s.advance n).finfo = s.finfo := rfl
@[simp] theorem State.advance_lA : (s.advance n).lA = s.lA := rfl
@[simp] theorem State.advance_pA : (s.advance n).pA = s.pA := rfl
@[simp] theorem State.advance_lB : (s.advance n).lB = s.lB := rfl
@[simp] theorem State.advance_pcm : (s.advance n).pcm = s.pcm := rfl
@[simp] theorem State.advance_mem : (s.advance n).mem = s.mem := rfl
@[simp] theorem State.advance_cfg : (s.advance n).cfg = s.cfg := rfl
@[simp] theorem State.advance_inner : (s.advance n).inner = s.inner := rfl
@[simp] theorem State.advance_host : (s.advance n).host = s.host := rfl
@[simp] theorem State.advance_draws : (s.advance n).draws = s.draws := rfl
end

section
variable (s : State) 
@[simp] theorem State.resetBits_cmd : s.resetBits.cmd = s.cmd := rfl
@[simp] theorem State.resetBits_arg0 : s.resetBits.arg0 = s.arg0 := rfl
@[simp] theorem State.resetBits_arg1 : s.resetBits.arg1 = s.arg1 := rfl
@[simp] theorem State.resetBits_result : s.resetBits.result = s.result := rfl
@[simp] theorem State.resetBits_status : s.resetBits.status = s.status := rfl
@[simp] theorem State.resetBits_offset : s.resetBits.offset = s.offset := rfl
@[simp] theorem State.resetBits_len : s.resetBits.len = s.len := rfl
@[simp] theorem State.resetBits_acc : s.resetBits.acc = 0 := rfl
@[simp] theorem State.resetBits_dfc : s.resetBits.dfc = 16 := rfl
@[simp] theorem State.resetBits_apred : s.resetBits.apred = s.apred := rfl
@[simp] theorem State.resetBits_aidx : s.resetBits.aidx = s.aidx := rfl
@[simp] theorem State.resetBits_bpred : s.resetBits.bpred = s.bpred := rfl
@[simp] theorem State.resetBits_bidx : s.resetBits.bidx = s.bidx := rfl
@[simp] theorem State.resetBits_lastA : s.resetBits.lastA = s.lastA := rfl
@[simp] theorem State.resetBits_lastB : s.resetBits.lastB = s.lastB := rfl
@[simp] theorem State.resetBits_pcmCount : s.resetBits.pcmCount = s.pcmCount := rfl
@[simp] theorem State.resetBits_finfo : s.resetBits.finfo = s.finfo := rfl
@[simp] theorem State.resetBits_lA : s.resetBits.lA = s.lA := rfl
@[simp] theorem State.resetBits_pA : s.resetBits.pA = s.pA := rfl
@[simp] theorem State.resetBits_lB : s.resetBits.lB = s.lB := rfl
@[simp] theorem State.resetBits_pcm : s.resetBits.pcm = s.pcm := rfl
@[simp] theorem State.resetBits_mem : s.resetBits.mem = s.mem := rfl
@[simp] theorem State.resetBits_cfg : s.resetBits.cfg = s.cfg := rfl
@[simp] theorem State.resetBits_inner : s.resetBits.inner = s.inner := rfl
@[simp] theorem State.resetBits_host : s.resetBits.host = s.host := rfl
@[simp] theorem State.resetBits_draws : s.resetBits.draws = s.draws := rfl
end

section
variable (s : State) (k : Fin 2) (y : Nat) (v : RowA)
@[simp] theorem State.setRowA_cmd : (s.setRowA k y v).cmd = s.cmd := rfl
@[simp] theorem State.setRowA_arg0 : (s.setRowA k y v).arg0 = s.arg0 := rfl
@[simp] theorem State.setRowA_arg1 : (s.setRowA k y v).arg1 = s.arg1 := rfl
@[simp] theorem State.setRowA_result : (s.setRowA k y v).result = s.result := rfl
@[simp] theorem State.setRowA_status : (s.setRowA k y v).status = s.status := rfl
@[simp] theorem State.setRowA_offset : (s.setRowA k y v).offset = s.offset := rfl
@[simp] theorem State.setRowA_len : (s.setRowA k y v).len = s.len := rfl
@[simp] theorem State.setRowA_acc : (s.setRowA k y v).acc = s.acc := rfl
@[simp] theorem State.setRowA_dfc : (s.setRowA k y v).dfc = s.dfc := rfl
@[simp] theorem State.setRowA_apred : (s.setRowA k y v).apred = s.apred := rfl
@[simp] theorem State.setRowA_aidx : (s.setRowA k y v).aidx = s.aidx := rfl
@[simp] theorem State.setRowA_bpred : (s.setRowA k y v).bpred = s.bpred := rfl
@[simp] theorem State.setRowA_bidx : (s.setRowA k y v).bidx = s.bidx := rfl
@[simp] theorem State.setRowA_lastA : (s.setRowA k y v).lastA = s.lastA := rfl
@[simp] theorem State.setRowA_lastB : (s.setRowA k y v).lastB = s.lastB := rfl
@[simp] theorem State.setRowA_pcmCount : (s.setRowA k y v).pcmCount = s.pcmCount := rfl
@[simp] theorem State.setRowA_finfo : (s.setRowA k y v).finfo = s.finfo := rfl
@[simp] theorem State.setRowA_lA : (s.setRowA k y v).lA = s.lA.withLayer k (Sparse.set 0 (s.lA.layer k) y v) := rfl
@[simp] theorem State.setRowA_pA : (s.setRowA k y v).pA = s.pA := rfl
@[simp] theorem State.setRowA_lB : (s.setRowA k y v).lB = s.lB := rfl
@[simp] theorem State.setRowA_pcm : (s.setRowA k y v).pcm = s.pcm := rfl
@[simp] theorem State.setRowA_mem : (s.setRowA k y v).mem = s.mem := rfl
@[simp] theorem State.setRowA_cfg : (s.setRowA k y v).cfg = s.cfg := rfl
@[simp] theorem State.setRowA_inner : (s.setRowA k y v).inner = s.inner := rfl
@[simp] theorem State.setRowA_host : (s.setRowA k y v).host = s.host := rfl
@[simp] theorem State.setRowA_draws : (s.setRowA k y v).draws = s.draws := rfl
end

section
variable (s : State) (k : Fin 3) (g : Nat) (v : Line)
@[simp] theorem State.setSegB_cmd : (s.setSegB k g v).cmd = s.cmd := rfl
@[simp] theorem State.setSegB_arg0 : (s.setSegB k g v).arg0 = s.arg0 := rfl
@[simp] theorem State.setSegB_arg1 : (s.setSegB k g v).arg1 = s.arg1 := rfl
@[simp] theorem State.setSegB_result : (s.setSegB k g v).result = s.result := rfl
@[simp] theorem State.setSegB_status : (s.setSegB k g v).status = s.status := rfl
@[simp] theorem State.setSegB_offset : (s.setSegB k g v).offset = s.offset := rfl
@[simp] theorem State.setSegB_len : (s.setSegB k g v).len = s.len := rfl
@[simp] theorem State.setSegB_acc : (s.setSegB k g v).acc = s.acc := rfl
@[simp] theorem State.setSegB_dfc : (s.setSegB k g v).dfc = s.dfc := rfl
@[simp] theorem State.setSegB_apred : (s.setSegB k g v).apred = s.apred := rfl
@[simp] theorem State.setSegB_aidx : (s.setSegB k g v).aidx = s.aidx := rfl
@[simp] theorem State.setSegB_bpred : (s.setSegB k g v).bpred = s.bpred := rfl
@[simp] theorem State.setSegB_bidx : (s.setSegB k g v).bidx = s.bidx := rfl
@[simp] theorem State.setSegB_lastA : (s.setSegB k g v).lastA = s.lastA := rfl
@[simp] theorem State.setSegB_lastB : (s.setSegB k g v).lastB = s.lastB := rfl
@[simp] theorem State.setSegB_pcmCount : (s.setSegB k g v).pcmCount = s.pcmCount := rfl
@[simp] theorem State.setSegB_finfo : (s.setSegB k g v).finfo = s.finfo := rfl
@[simp] theorem State.setSegB_lA : (s.setSegB k g v).lA = s.lA := rfl
@[simp] theorem State.setSegB_pA : (s.setSegB k g v).pA = s.pA := rfl
@[simp] theorem State.setSegB_lB : (s.setSegB k g v).lB = s.lB.withLayer k (Sparse.set default (s.lB.layer k) g v) := rfl
@[simp] theorem State.setSegB_pcm : (s.setSegB k g v).pcm = s.pcm := rfl
@[simp] theorem State.setSegB_mem : (s.setSegB k g v).mem = s.mem := rfl
@[simp] theorem State.setSegB_cfg : (s.setSegB k g v).cfg = s.cfg := rfl
@[simp] theorem State.setSegB_inner : (s.setSegB k g v).inner = s.inner := rfl
@[simp] theorem State.setSegB_host : (s.setSegB k g v).host = s.host := rfl
@[simp] theorem State.setSegB_draws : (s.setSegB k g v).draws = s.draws := rfl
end

section
variable (s : State) (v : Int)
@[simp] theorem State.appendSample_cmd : (s.appendSample v).cmd = s.cmd := rfl
@[simp] theorem State.appendSample_arg0 : (s.appendSample v).arg0 = s.arg0 := rfl
@[simp] theorem State.appendSample_arg1 : (s.appendSample v).arg1 = s.arg1 := rfl
@[simp] theorem State.appendSample_result : (s.appendSample v).result = s.result := rfl
@[simp] theorem State.appendSample_status : (s.appendSample v).status = s.status := rfl
@[simp] theorem State.appendSample_offset : (s.appendSample v).offset = s.offset := rfl
@[simp] theorem State.appendSample_len : (s.appendSample v).len = s.len := rfl
@[simp] theorem State.appendSample_acc : (s.appendSample v).acc = s.acc := rfl
@[simp] theorem State.appendSample_dfc : (s.appendSample v).dfc = s.dfc := rfl
@[simp] theorem State.appendSample_apred : (s.appendSample v).apred = s.apred := rfl
@[simp] theorem State.appendSample_aidx : (s.appendSample v).aidx = s.aidx := rfl
@[simp] theorem State.appendSample_bpred : (s.appendSample v).bpred = s.bpred := rfl
@[simp] theorem State.appendSample_bidx : (s.appendSample v).bidx = s.bidx := rfl
@[simp] theorem State.appendSample_lastA : (s.appendSample v).lastA = s.lastA := rfl
@[simp] theorem State.appendSample_lastB : (s.appendSample v).lastB = s.lastB := rfl
@[simp] theorem State.appendSample_pcmCount : (s.appendSample v).pcmCount = nextPcmCount s.pcmCount s.pcm.length := rfl
@[simp] theorem State.appendSample_finfo : (s.appendSample v).finfo = s.finfo := rfl
@[simp] theorem State.appendSample_lA : (s.appendSample v).lA = s.lA := rfl
@[simp] theorem State.appendSample_pA : (s.appendSample v).pA = s.pA := rfl
@[simp] theorem State.appendSample_lB : (s.appendSample v).lB = s.lB := rfl
@[simp] theorem State.appendSample_pcm : (s.appendSample v).pcm = s.pcm ++ [BitVec.ofInt 16 v] := rfl
@[simp] theorem State.appendSample_mem : (s.appendSample v).mem = s.mem := rfl
@[simp] theorem State.appendSample_cfg : (s.appendSample v).cfg = s.cfg := rfl
@[simp] theorem State.appendSample_inner : (s.appendSample v).inner = s.inner := rfl
@[simp] theorem State.appendSample_host : (s.appendSample v).host = s.host := rfl
@[simp] theorem State.appendSample_draws : (s.appendSample v).draws = s.draws := rfl
end

section
variable (s : State) 
@[simp] theorem State.emptyPcm_cmd : s.emptyPcm.cmd = s.cmd := rfl
@[simp] theorem State.emptyPcm_arg0 : s.emptyPcm.arg0 = s.arg0 := rfl
@[simp] theorem State.emptyPcm_arg1 : s.emptyPcm.arg1 = s.arg1 := rfl
@[simp] theorem State.emptyPcm_result : s.emptyPcm.result = s.result := rfl
@[simp] theorem State.emptyPcm_status : s.emptyPcm.status = s.status := rfl
@[simp] theorem State.emptyPcm_offset : s.emptyPcm.offset = s.offset := rfl
@[simp] theorem State.emptyPcm_len : s.emptyPcm.len = s.len := rfl
@[simp] theorem State.emptyPcm_acc : s.emptyPcm.acc = s.acc := rfl
@[simp] theorem State.emptyPcm_dfc : s.emptyPcm.dfc = s.dfc := rfl
@[simp] theorem State.emptyPcm_apred : s.emptyPcm.apred = s.apred := rfl
@[simp] theorem State.emptyPcm_aidx : s.emptyPcm.aidx = s.aidx := rfl
@[simp] theorem State.emptyPcm_bpred : s.emptyPcm.bpred = s.bpred := rfl
@[simp] theorem State.emptyPcm_bidx : s.emptyPcm.bidx = s.bidx := rfl
@[simp] theorem State.emptyPcm_lastA : s.emptyPcm.lastA = s.lastA := rfl
@[simp] theorem State.emptyPcm_lastB : s.emptyPcm.lastB = s.lastB := rfl
@[simp] theorem State.emptyPcm_pcmCount : s.emptyPcm.pcmCount = 0 := rfl
@[simp] theorem State.emptyPcm_finfo : s.emptyPcm.finfo = s.finfo := rfl
@[simp] theorem State.emptyPcm_lA : s.emptyPcm.lA = s.lA := rfl
@[simp] theorem State.emptyPcm_pA : s.emptyPcm.pA = s.pA := rfl
@[simp] theorem State.emptyPcm_lB : s.emptyPcm.lB = s.lB := rfl
@[simp] theorem State.emptyPcm_pcm : s.emptyPcm.pcm = [] := rfl
@[simp] theorem State.emptyPcm_mem : s.emptyPcm.mem = s.mem := rfl
@[simp] theorem State.emptyPcm_cfg : s.emptyPcm.cfg = s.cfg := rfl
@[simp] theorem State.emptyPcm_inner : s.emptyPcm.inner = s.inner := rfl
@[simp] theorem State.emptyPcm_host : s.emptyPcm.host = s.host := rfl
@[simp] theorem State.emptyPcm_draws : s.emptyPcm.draws = s.draws := rfl
end

section
variable (s : State) (k : Fin 2) (y : Nat) (c : LineCode)
@[simp] theorem State.setLineType_cmd : (s.setLineType k y c).cmd = s.cmd := rfl
@[simp] theorem State.setLineType_arg0 : (s.setLineType k y c).arg0 = s.arg0 := rfl
@[simp] theorem State.setLineType_arg1 : (s.setLineType k y c).arg1 = s.arg1 := rfl
@[simp] theorem State.setLineType_result : (s.setLineType k y c).result = s.result := rfl
@[simp] theorem State.setLineType_status : (s.setLineType k y c).status = s.status := rfl
@[simp] theorem State.setLineType_offset : (s.setLineType k y c).offset = s.offset := rfl
@[simp] theorem State.setLineType_len : (s.setLineType k y c).len = s.len := rfl
@[simp] theorem State.setLineType_acc : (s.setLineType k y c).acc = s.acc := rfl
@[simp] theorem State.setLineType_dfc : (s.setLineType k y c).dfc = s.dfc := rfl
@[simp] theorem State.setLineType_apred : (s.setLineType k y c).apred = s.apred := rfl
@[simp] theorem State.setLineType_aidx : (s.setLineType k y c).aidx = s.aidx := rfl
@[simp] theorem State.setLineType_bpred : (s.setLineType k y c).bpred = s.bpred := rfl
@[simp] theorem State.setLineType_bidx : (s.setLineType k y c).bidx = s.bidx := rfl
@[simp] theorem State.setLineType_lastA : (s.setLineType k y c).lastA = s.lastA := rfl
@[simp] theorem State.setLineType_lastB : (s.setLineType k y c).lastB = s.lastB := rfl
@[simp] theorem State.setLineType_pcmCount : (s.setLineType k y c).pcmCount = s.pcmCount := rfl
@[simp] theorem State.setLineType_finfo : (s.setLineType k y c).finfo = s.finfo := rfl
@[simp] theorem State.setLineType_lA : (s.setLineType k y c).lA = s.lA := rfl
@[simp] theorem State.setLineType_pA : (s.setLineType k y c).pA = s.pA := rfl
@[simp] theorem State.setLineType_lB : (s.setLineType k y c).lB = s.lB := rfl
@[simp] theorem State.setLineType_pcm : (s.setLineType k y c).pcm = s.pcm := rfl
@[simp] theorem State.setLineType_mem : (s.setLineType k y c).mem = s.mem := rfl
@[simp] theorem State.setLineType_cfg : (s.setLineType k y c).cfg = s.cfg := rfl
@[simp] theorem State.setLineType_inner : (s.setLineType k y c).inner = { s.inner with tA := Sparse.set 0 s.inner.tA (192 * k.val + y) c } := rfl
@[simp] theorem State.setLineType_host : (s.setLineType k y c).host = s.host := rfl
@[simp] theorem State.setLineType_draws : (s.setLineType k y c).draws = s.draws := rfl
end

section
variable (s : State) (k : Fin 2) (y : Nat)
@[simp] theorem State.atLine_cmd : (s.atLine k y).cmd = s.cmd := rfl
@[simp] theorem State.atLine_arg0 : (s.atLine k y).arg0 = s.arg0 := rfl
@[simp] theorem State.atLine_arg1 : (s.atLine k y).arg1 = s.arg1 := rfl
@[simp] theorem State.atLine_result : (s.atLine k y).result = s.result := rfl
@[simp] theorem State.atLine_status : (s.atLine k y).status = s.status := rfl
@[simp] theorem State.atLine_offset : (s.atLine k y).offset = s.offset := rfl
@[simp] theorem State.atLine_len : (s.atLine k y).len = s.len := rfl
@[simp] theorem State.atLine_acc : (s.atLine k y).acc = s.acc := rfl
@[simp] theorem State.atLine_dfc : (s.atLine k y).dfc = s.dfc := rfl
@[simp] theorem State.atLine_apred : (s.atLine k y).apred = s.apred := rfl
@[simp] theorem State.atLine_aidx : (s.atLine k y).aidx = s.aidx := rfl
@[simp] theorem State.atLine_bpred : (s.atLine k y).bpred = s.bpred := rfl
@[simp] theorem State.atLine_bidx : (s.atLine k y).bidx = s.bidx := rfl
@[simp] theorem State.atLine_lastA : (s.atLine k y).lastA = s.lastA := rfl
@[simp] theorem State.atLine_lastB : (s.atLine k y).lastB = s.lastB := rfl
@[simp] theorem State.atLine_pcmCount : (s.atLine k y).pcmCount = s.pcmCount := rfl
@[simp] theorem State.atLine_finfo : (s.atLine k y).finfo = s.finfo := rfl
@[simp] theorem State.atLine_lA : (s.atLine k y).lA = s.lA := rfl
@[simp] theorem State.atLine_pA : (s.atLine k y).pA = s.pA := rfl
@[simp] theorem State.atLine_lB : (s.atLine k y).lB = s.lB := rfl
@[simp] theorem State.atLine_pcm : (s.atLine k y).pcm = s.pcm := rfl
@[simp] theorem State.atLine_mem : (s.atLine k y).mem = s.mem := rfl
@[simp] theorem State.atLine_cfg : (s.atLine k y).cfg = s.cfg := rfl
@[simp] theorem State.atLine_inner : (s.atLine k y).inner = { s.inner with seq := .lines, layerA := k, lineA := Fin.ofNat 192 y } := rfl
@[simp] theorem State.atLine_host : (s.atLine k y).host = s.host := rfl
@[simp] theorem State.atLine_draws : (s.atLine k y).draws = s.draws := rfl
end

section
variable (s : State) (f : Nat)
@[simp] theorem State.openFrameA_cmd : (s.openFrameA f).cmd = s.cmd := rfl
@[simp] theorem State.openFrameA_arg0 : (s.openFrameA f).arg0 = s.arg0 := rfl
@[simp] theorem State.openFrameA_arg1 : (s.openFrameA f).arg1 = s.arg1 := rfl
@[simp] theorem State.openFrameA_result : (s.openFrameA f).result = s.result := rfl
@[simp] theorem State.openFrameA_status : (s.openFrameA f).status = s.status := rfl
@[simp] theorem State.openFrameA_offset : (s.openFrameA f).offset = BitVec.ofNat 32 f := rfl
@[simp] theorem State.openFrameA_len : (s.openFrameA f).len = s.len := rfl
@[simp] theorem State.openFrameA_acc : (s.openFrameA f).acc = s.acc := rfl
@[simp] theorem State.openFrameA_dfc : (s.openFrameA f).dfc = s.dfc := rfl
@[simp] theorem State.openFrameA_apred : (s.openFrameA f).apred = s.apred := rfl
@[simp] theorem State.openFrameA_aidx : (s.openFrameA f).aidx = s.aidx := rfl
@[simp] theorem State.openFrameA_bpred : (s.openFrameA f).bpred = s.bpred := rfl
@[simp] theorem State.openFrameA_bidx : (s.openFrameA f).bidx = s.bidx := rfl
@[simp] theorem State.openFrameA_lastA : (s.openFrameA f).lastA = s.lastA := rfl
@[simp] theorem State.openFrameA_lastB : (s.openFrameA f).lastB = s.lastB := rfl
@[simp] theorem State.openFrameA_pcmCount : (s.openFrameA f).pcmCount = s.pcmCount := rfl
@[simp] theorem State.openFrameA_finfo : (s.openFrameA f).finfo = s.finfo := rfl
@[simp] theorem State.openFrameA_lA : (s.openFrameA f).lA = ⟨[], []⟩ := rfl
@[simp] theorem State.openFrameA_pA : (s.openFrameA f).pA = s.pA := rfl
@[simp] theorem State.openFrameA_lB : (s.openFrameA f).lB = s.lB := rfl
@[simp] theorem State.openFrameA_pcm : (s.openFrameA f).pcm = s.pcm := rfl
@[simp] theorem State.openFrameA_mem : (s.openFrameA f).mem = s.mem := rfl
@[simp] theorem State.openFrameA_cfg : (s.openFrameA f).cfg = s.cfg := rfl
@[simp] theorem State.openFrameA_inner : (s.openFrameA f).inner = Inner.idle := rfl
@[simp] theorem State.openFrameA_host : (s.openFrameA f).host = s.host := rfl
@[simp] theorem State.openFrameA_draws : (s.openFrameA f).draws = s.draws := rfl
end

section
variable (s : State) 
@[simp] theorem State.closeFrameA_cmd : s.closeFrameA.cmd = s.cmd := rfl
@[simp] theorem State.closeFrameA_arg0 : s.closeFrameA.arg0 = s.arg0 := rfl
@[simp] theorem State.closeFrameA_arg1 : s.closeFrameA.arg1 = s.arg1 := rfl
@[simp] theorem State.closeFrameA_result : s.closeFrameA.result = s.result := rfl
@[simp] theorem State.closeFrameA_status : s.closeFrameA.status = s.status := rfl
@[simp] theorem State.closeFrameA_offset : s.closeFrameA.offset = s.offset := rfl
@[simp] theorem State.closeFrameA_len : s.closeFrameA.len = s.len := rfl
@[simp] theorem State.closeFrameA_acc : s.closeFrameA.acc = s.acc := rfl
@[simp] theorem State.closeFrameA_dfc : s.closeFrameA.dfc = s.dfc := rfl
@[simp] theorem State.closeFrameA_apred : s.closeFrameA.apred = s.apred := rfl
@[simp] theorem State.closeFrameA_aidx : s.closeFrameA.aidx = s.aidx := rfl
@[simp] theorem State.closeFrameA_bpred : s.closeFrameA.bpred = s.bpred := rfl
@[simp] theorem State.closeFrameA_bidx : s.closeFrameA.bidx = s.bidx := rfl
@[simp] theorem State.closeFrameA_lastA : s.closeFrameA.lastA = s.lastA := rfl
@[simp] theorem State.closeFrameA_lastB : s.closeFrameA.lastB = s.lastB := rfl
@[simp] theorem State.closeFrameA_pcmCount : s.closeFrameA.pcmCount = s.pcmCount := rfl
@[simp] theorem State.closeFrameA_finfo : s.closeFrameA.finfo = s.finfo := rfl
@[simp] theorem State.closeFrameA_lA : s.closeFrameA.lA = s.lA := rfl
@[simp] theorem State.closeFrameA_pA : s.closeFrameA.pA = s.lA := rfl
@[simp] theorem State.closeFrameA_lB : s.closeFrameA.lB = s.lB := rfl
@[simp] theorem State.closeFrameA_pcm : s.closeFrameA.pcm = s.pcm := rfl
@[simp] theorem State.closeFrameA_mem : s.closeFrameA.mem = s.mem := rfl
@[simp] theorem State.closeFrameA_cfg : s.closeFrameA.cfg = s.cfg := rfl
@[simp] theorem State.closeFrameA_inner : s.closeFrameA.inner = Inner.idle := rfl
@[simp] theorem State.closeFrameA_host : s.closeFrameA.host = s.host := rfl
@[simp] theorem State.closeFrameA_draws : s.closeFrameA.draws = s.draws := rfl
end

section
variable (s : State) (tx ty : Int)
@[simp] theorem State.xorDelta_cmd : (xorDelta tx ty s).cmd = s.cmd := rfl
@[simp] theorem State.xorDelta_arg0 : (xorDelta tx ty s).arg0 = s.arg0 := rfl
@[simp] theorem State.xorDelta_arg1 : (xorDelta tx ty s).arg1 = s.arg1 := rfl
@[simp] theorem State.xorDelta_result : (xorDelta tx ty s).result = s.result := rfl
@[simp] theorem State.xorDelta_status : (xorDelta tx ty s).status = s.status := rfl
@[simp] theorem State.xorDelta_offset : (xorDelta tx ty s).offset = s.offset := rfl
@[simp] theorem State.xorDelta_len : (xorDelta tx ty s).len = s.len := rfl
@[simp] theorem State.xorDelta_acc : (xorDelta tx ty s).acc = s.acc := rfl
@[simp] theorem State.xorDelta_dfc : (xorDelta tx ty s).dfc = s.dfc := rfl
@[simp] theorem State.xorDelta_apred : (xorDelta tx ty s).apred = s.apred := rfl
@[simp] theorem State.xorDelta_aidx : (xorDelta tx ty s).aidx = s.aidx := rfl
@[simp] theorem State.xorDelta_bpred : (xorDelta tx ty s).bpred = s.bpred := rfl
@[simp] theorem State.xorDelta_bidx : (xorDelta tx ty s).bidx = s.bidx := rfl
@[simp] theorem State.xorDelta_lastA : (xorDelta tx ty s).lastA = s.lastA := rfl
@[simp] theorem State.xorDelta_lastB : (xorDelta tx ty s).lastB = s.lastB := rfl
@[simp] theorem State.xorDelta_pcmCount : (xorDelta tx ty s).pcmCount = s.pcmCount := rfl
@[simp] theorem State.xorDelta_finfo : (xorDelta tx ty s).finfo = s.finfo := rfl
@[simp] theorem State.xorDelta_lA : (xorDelta tx ty s).lA = ⟨xorLayer tx ty s.lA.l0 s.pA.l0, xorLayer tx ty s.lA.l1 s.pA.l1⟩ := rfl
@[simp] theorem State.xorDelta_pA : (xorDelta tx ty s).pA = s.pA := rfl
@[simp] theorem State.xorDelta_lB : (xorDelta tx ty s).lB = s.lB := rfl
@[simp] theorem State.xorDelta_pcm : (xorDelta tx ty s).pcm = s.pcm := rfl
@[simp] theorem State.xorDelta_mem : (xorDelta tx ty s).mem = s.mem := rfl
@[simp] theorem State.xorDelta_cfg : (xorDelta tx ty s).cfg = s.cfg := rfl
@[simp] theorem State.xorDelta_inner : (xorDelta tx ty s).inner = s.inner := rfl
@[simp] theorem State.xorDelta_host : (xorDelta tx ty s).host = s.host := rfl
@[simp] theorem State.xorDelta_draws : (xorDelta tx ty s).draws = s.draws := rfl
end

section
variable (s : State) 
@[simp] theorem State.countSkip_cmd : s.countSkip.cmd = s.cmd := rfl
@[simp] theorem State.countSkip_arg0 : s.countSkip.arg0 = s.arg0 := rfl
@[simp] theorem State.countSkip_arg1 : s.countSkip.arg1 = s.arg1 := rfl
@[simp] theorem State.countSkip_result : s.countSkip.result = s.result := rfl
@[simp] theorem State.countSkip_status : s.countSkip.status = s.status := rfl
@[simp] theorem State.countSkip_offset : s.countSkip.offset = s.offset := rfl
@[simp] theorem State.countSkip_len : s.countSkip.len = s.len := rfl
@[simp] theorem State.countSkip_acc : s.countSkip.acc = s.acc := rfl
@[simp] theorem State.countSkip_dfc : s.countSkip.dfc = s.dfc := rfl
@[simp] theorem State.countSkip_apred : s.countSkip.apred = s.apred := rfl
@[simp] theorem State.countSkip_aidx : s.countSkip.aidx = s.aidx := rfl
@[simp] theorem State.countSkip_bpred : s.countSkip.bpred = s.bpred := rfl
@[simp] theorem State.countSkip_bidx : s.countSkip.bidx = s.bidx := rfl
@[simp] theorem State.countSkip_lastA : s.countSkip.lastA = s.lastA := rfl
@[simp] theorem State.countSkip_lastB : s.countSkip.lastB = s.lastB := rfl
@[simp] theorem State.countSkip_pcmCount : s.countSkip.pcmCount = s.pcmCount := rfl
@[simp] theorem State.countSkip_finfo : s.countSkip.finfo = s.finfo := rfl
@[simp] theorem State.countSkip_lA : s.countSkip.lA = s.lA := rfl
@[simp] theorem State.countSkip_pA : s.countSkip.pA = s.pA := rfl
@[simp] theorem State.countSkip_lB : s.countSkip.lB = s.lB := rfl
@[simp] theorem State.countSkip_pcm : s.countSkip.pcm = s.pcm := rfl
@[simp] theorem State.countSkip_mem : s.countSkip.mem = s.mem := rfl
@[simp] theorem State.countSkip_cfg : s.countSkip.cfg = s.cfg := rfl
@[simp] theorem State.countSkip_inner : s.countSkip.inner = { s.inner with skip := s.inner.skip - 1#5 } := rfl
@[simp] theorem State.countSkip_host : s.countSkip.host = s.host := rfl
@[simp] theorem State.countSkip_draws : s.countSkip.draws = s.draws := rfl
end

section
variable (s : State) (slot : Nat)
@[simp] theorem State.atSlot_cmd : (s.atSlot slot).cmd = s.cmd := rfl
@[simp] theorem State.atSlot_arg0 : (s.atSlot slot).arg0 = s.arg0 := rfl
@[simp] theorem State.atSlot_arg1 : (s.atSlot slot).arg1 = s.arg1 := rfl
@[simp] theorem State.atSlot_result : (s.atSlot slot).result = s.result := rfl
@[simp] theorem State.atSlot_status : (s.atSlot slot).status = s.status := rfl
@[simp] theorem State.atSlot_offset : (s.atSlot slot).offset = s.offset := rfl
@[simp] theorem State.atSlot_len : (s.atSlot slot).len = s.len := rfl
@[simp] theorem State.atSlot_acc : (s.atSlot slot).acc = s.acc := rfl
@[simp] theorem State.atSlot_dfc : (s.atSlot slot).dfc = s.dfc := rfl
@[simp] theorem State.atSlot_apred : (s.atSlot slot).apred = s.apred := rfl
@[simp] theorem State.atSlot_aidx : (s.atSlot slot).aidx = s.aidx := rfl
@[simp] theorem State.atSlot_bpred : (s.atSlot slot).bpred = s.bpred := rfl
@[simp] theorem State.atSlot_bidx : (s.atSlot slot).bidx = s.bidx := rfl
@[simp] theorem State.atSlot_lastA : (s.atSlot slot).lastA = s.lastA := rfl
@[simp] theorem State.atSlot_lastB : (s.atSlot slot).lastB = s.lastB := rfl
@[simp] theorem State.atSlot_pcmCount : (s.atSlot slot).pcmCount = s.pcmCount := rfl
@[simp] theorem State.atSlot_finfo : (s.atSlot slot).finfo = s.finfo := rfl
@[simp] theorem State.atSlot_lA : (s.atSlot slot).lA = s.lA := rfl
@[simp] theorem State.atSlot_pA : (s.atSlot slot).pA = s.pA := rfl
@[simp] theorem State.atSlot_lB : (s.atSlot slot).lB = s.lB := rfl
@[simp] theorem State.atSlot_pcm : (s.atSlot slot).pcm = s.pcm := rfl
@[simp] theorem State.atSlot_mem : (s.atSlot slot).mem = s.mem := rfl
@[simp] theorem State.atSlot_cfg : (s.atSlot slot).cfg = s.cfg := rfl
@[simp] theorem State.atSlot_inner : (s.atSlot slot).inner = { s.inner with slot := Fin.ofNat 1200 slot } := rfl
@[simp] theorem State.atSlot_host : (s.atSlot slot).host = s.host := rfl
@[simp] theorem State.atSlot_draws : (s.atSlot slot).draws = s.draws := rfl
end

section
variable (s : State) (k : Fin 3) (p : Nat)
@[simp] theorem State.openLayerB_cmd : (s.openLayerB k p).cmd = s.cmd := rfl
@[simp] theorem State.openLayerB_arg0 : (s.openLayerB k p).arg0 = s.arg0 := rfl
@[simp] theorem State.openLayerB_arg1 : (s.openLayerB k p).arg1 = s.arg1 := rfl
@[simp] theorem State.openLayerB_result : (s.openLayerB k p).result = s.result := rfl
@[simp] theorem State.openLayerB_status : (s.openLayerB k p).status = s.status := rfl
@[simp] theorem State.openLayerB_offset : (s.openLayerB k p).offset = BitVec.ofNat 32 p := rfl
@[simp] theorem State.openLayerB_len : (s.openLayerB k p).len = s.len := rfl
@[simp] theorem State.openLayerB_acc : (s.openLayerB k p).acc = 0 := rfl
@[simp] theorem State.openLayerB_dfc : (s.openLayerB k p).dfc = 16 := rfl
@[simp] theorem State.openLayerB_apred : (s.openLayerB k p).apred = s.apred := rfl
@[simp] theorem State.openLayerB_aidx : (s.openLayerB k p).aidx = s.aidx := rfl
@[simp] theorem State.openLayerB_bpred : (s.openLayerB k p).bpred = s.bpred := rfl
@[simp] theorem State.openLayerB_bidx : (s.openLayerB k p).bidx = s.bidx := rfl
@[simp] theorem State.openLayerB_lastA : (s.openLayerB k p).lastA = s.lastA := rfl
@[simp] theorem State.openLayerB_lastB : (s.openLayerB k p).lastB = s.lastB := rfl
@[simp] theorem State.openLayerB_pcmCount : (s.openLayerB k p).pcmCount = s.pcmCount := rfl
@[simp] theorem State.openLayerB_finfo : (s.openLayerB k p).finfo = s.finfo := rfl
@[simp] theorem State.openLayerB_lA : (s.openLayerB k p).lA = s.lA := rfl
@[simp] theorem State.openLayerB_pA : (s.openLayerB k p).pA = s.pA := rfl
@[simp] theorem State.openLayerB_lB : (s.openLayerB k p).lB = s.lB := rfl
@[simp] theorem State.openLayerB_pcm : (s.openLayerB k p).pcm = s.pcm := rfl
@[simp] theorem State.openLayerB_mem : (s.openLayerB k p).mem = s.mem := rfl
@[simp] theorem State.openLayerB_cfg : (s.openLayerB k p).cfg = s.cfg := rfl
@[simp] theorem State.openLayerB_inner : (s.openLayerB k p).inner = { Inner.idle with seq := .tiles, layerB := k } := rfl
@[simp] theorem State.openLayerB_host : (s.openLayerB k p).host = s.host := rfl
@[simp] theorem State.openLayerB_draws : (s.openLayerB k p).draws = s.draws := rfl
end

section
variable (s : State) 
@[simp] theorem State.closeLayerB_cmd : s.closeLayerB.cmd = s.cmd := rfl
@[simp] theorem State.closeLayerB_arg0 : s.closeLayerB.arg0 = s.arg0 := rfl
@[simp] theorem State.closeLayerB_arg1 : s.closeLayerB.arg1 = s.arg1 := rfl
@[simp] theorem State.closeLayerB_result : s.closeLayerB.result = s.result := rfl
@[simp] theorem State.closeLayerB_status : s.closeLayerB.status = s.status := rfl
@[simp] theorem State.closeLayerB_offset : s.closeLayerB.offset = s.offset := rfl
@[simp] theorem State.closeLayerB_len : s.closeLayerB.len = s.len := rfl
@[simp] theorem State.closeLayerB_acc : s.closeLayerB.acc = s.acc := rfl
@[simp] theorem State.closeLayerB_dfc : s.closeLayerB.dfc = s.dfc := rfl
@[simp] theorem State.closeLayerB_apred : s.closeLayerB.apred = s.apred := rfl
@[simp] theorem State.closeLayerB_aidx : s.closeLayerB.aidx = s.aidx := rfl
@[simp] theorem State.closeLayerB_bpred : s.closeLayerB.bpred = s.bpred := rfl
@[simp] theorem State.closeLayerB_bidx : s.closeLayerB.bidx = s.bidx := rfl
@[simp] theorem State.closeLayerB_lastA : s.closeLayerB.lastA = s.lastA := rfl
@[simp] theorem State.closeLayerB_lastB : s.closeLayerB.lastB = s.lastB := rfl
@[simp] theorem State.closeLayerB_pcmCount : s.closeLayerB.pcmCount = s.pcmCount := rfl
@[simp] theorem State.closeLayerB_finfo : s.closeLayerB.finfo = s.finfo := rfl
@[simp] theorem State.closeLayerB_lA : s.closeLayerB.lA = s.lA := rfl
@[simp] theorem State.closeLayerB_pA : s.closeLayerB.pA = s.pA := rfl
@[simp] theorem State.closeLayerB_lB : s.closeLayerB.lB = s.lB := rfl
@[simp] theorem State.closeLayerB_pcm : s.closeLayerB.pcm = s.pcm := rfl
@[simp] theorem State.closeLayerB_mem : s.closeLayerB.mem = s.mem := rfl
@[simp] theorem State.closeLayerB_cfg : s.closeLayerB.cfg = s.cfg := rfl
@[simp] theorem State.closeLayerB_inner : s.closeLayerB.inner = Inner.idle := rfl
@[simp] theorem State.closeLayerB_host : s.closeLayerB.host = s.host := rfl
@[simp] theorem State.closeLayerB_draws : s.closeLayerB.draws = s.draws := rfl
end

end Sys2Proof.Machine
end

