-- ==== Sys2Proof/Laws/Ops.lean ====
section
/-! SUPPORT. One lemma per shared operation: what `memRead`, the typed reads, `readBits`, the loops, `raise` and
`attempt` can do. -/

namespace Sys2Proof.Machine

open Host (Outcome)

@[simp] theorem Run.bind_ok {α β : Type} (a : α) (f : α → Run β) :
    ((Except.ok a : Run α) >>= f) = f a := rfl

@[simp] theorem Run.bind_error {α β : Type} (e : Raised) (f : α → Run β) :
    ((Except.error e : Run α) >>= f) = .error e := rfl

/-- A sequence completes exactly when both parts do. -/
theorem Run.bind_eq_ok {α β : Type} {m : Run α} {f : α → Run β} {b : β} :
    (m >>= f) = .ok b ↔ ∃ a, m = .ok a ∧ f a = .ok b := by
  cases m <;> simp

/-- A sequence raises when its first part does, or its second part after the first has completed. -/
theorem Run.bind_eq_error {α β : Type} {m : Run α} {f : α → Run β} {e : Raised} :
    (m >>= f) = .error e ↔ m = .error e ∨ ∃ a, m = .ok a ∧ f a = .error e := by
  cases m <;> simp

/-! ## Loops -/

/-- An invariant of a loop, indexed by the iteration, holds where the loop ends. -/
theorem forRange_induct {f : Nat → State → Run State} {P : Nat → State → Prop} {i n : Nat} {s t : State}
    (h0 : P i s)
    (hstep : ∀ j s t, i ≤ j → j < i + n → P j s → f j s = .ok t → P (j + 1) t)
    (h : forRange f i n s = .ok t) : P (i + n) t := by
  induction n generalizing i s with
  | zero =>
    simp only [forRange, Except.ok.injEq] at h
    exact h ▸ h0
  | succ n ih =>
    obtain ⟨u, hu, h⟩ := Run.bind_eq_ok.1 h
    have := ih (hstep i s u (Nat.le_refl _) (by omega) h0 hu)
      (fun j s t h1 h2 => hstep j s t (by omega) (by omega)) h
    rwa [show i + 1 + n = i + (n + 1) by omega] at this

/-- A loop completes when each iteration does, under an invariant that gives the next one's condition. -/
theorem forRange_completes {f : Nat → State → Run State} {P : Nat → State → Prop} {i n : Nat}
    {s : State} (h0 : P i s)
    (hstep : ∀ j s, i ≤ j → j < i + n → P j s → ∃ t, f j s = .ok t ∧ P (j + 1) t) :
    ∃ t, forRange f i n s = .ok t ∧ P (i + n) t := by
  induction n generalizing i s with
  | zero => exact ⟨s, rfl, h0⟩
  | succ n ih =>
    obtain ⟨u, hu, hP⟩ := hstep i s (Nat.le_refl _) (by omega) h0
    obtain ⟨t, ht, hPt⟩ := ih hP fun j s h1 h2 => hstep j s (by omega) (by omega)
    refine ⟨t, ?_, by rwa [show i + (n + 1) = i + 1 + n by omega]⟩
    simp [forRange, hu, ht]

/-- Two runs of the same part agree: both complete in related states, or both raise the same fault. -/
def Run.Agree (R : State → State → Prop) (a b : Run State) : Prop :=
  match a, b with
  | .ok s, .ok t => R s t
  | .error e, .error e' => e = e'
  | _, _ => False

theorem Run.Agree.bind {R Q : State → State → Prop} {a b : Run State} {f g : State → Run State}
    (h : Run.Agree R a b) (hfg : ∀ s t, R s t → Run.Agree Q (f s) (g t)) :
    Run.Agree Q (a >>= f) (b >>= g) := by
  cases a <;> cases b <;> simp_all [Run.Agree]

/-- A loop carries a relation between two runs. -/
theorem forRange_agree {R : State → State → Prop} {f g : Nat → State → Run State} {i n : Nat}
    {s t : State} (h0 : R s t)
    (hstep : ∀ j s t, i ≤ j → j < i + n → R s t → Run.Agree R (f j s) (g j t)) :
    Run.Agree R (forRange f i n s) (forRange g i n t) := by
  induction n generalizing i s t with
  | zero => exact h0
  | succ n ih =>
    exact Run.Agree.bind (hstep i s t (Nat.le_refl _) (by omega) h0) fun u v huv =>
      ih huv fun j s t h1 h2 => hstep j s t (by omega) (by omega)

theorem runIf_true {f : State → Run State} {s : State} : runIf true f s = f s := rfl
theorem runIf_false {f : State → Run State} {s : State} : runIf false f s = .ok s := rfl

theorem runIf_eq_ok {c : Bool} {f : State → Run State} {s t : State} :
    runIf c f s = .ok t ↔ (c = true ∧ f s = .ok t) ∨ (c = false ∧ s = t) := by
  cases c <;> simp [runIf]

/-! ## The byte cursor -/

/-- A read that passes `LEN` raises `BOUNDS` with its start address and nothing else (20_memory.md R63). -/
theorem memRead_bounds {a n : Nat} {s : State} (h : a + n > s.len.toNat) :
    memRead a n s = .error ⟨.bounds, a⟩ := by
  simp [memRead, h]

theorem memRead_ok {a n : Nat} {s : State} (h : a + n ≤ s.len.toNat) :
    memRead a n s = .ok ((List.range n).map fun j => s.byteAt (a + j)) := by
  simp [memRead, Nat.not_lt.2 h]

theorem readU8_ok {s : State} (h : s.offset.toNat + 1 ≤ s.len.toNat) :
    readU8 s = .ok (s.byteAt s.offset.toNat, s.advance 1) := by
  simp [readU8, memRead_ok h]

theorem readU8_bounds {s : State} (h : s.offset.toNat + 1 > s.len.toNat) :
    readU8 s = .error ⟨.bounds, s.offset.toNat⟩ := by
  simp [readU8, memRead_bounds h]

theorem readU8_eq_ok {s : State} {r : Byte × State} :
    readU8 s = .ok r ↔
      s.offset.toNat + 1 ≤ s.len.toNat ∧ r = (s.byteAt s.offset.toNat, s.advance 1) := by
  by_cases h : s.offset.toNat + 1 ≤ s.len.toNat
  · rw [readU8_ok h]
    simp [h, eq_comm]
  · rw [readU8_bounds (by omega)]
    simp [h]

theorem readU16LE_ok {s : State} (h : s.offset.toNat + 2 ≤ s.len.toNat) :
    readU16LE s =
      .ok (s.byteAt (s.offset.toNat + 1) ++ s.byteAt s.offset.toNat, s.advance 2) := by
  simp [readU16LE, memRead_ok h, List.range_succ]

theorem readU16LE_bounds {s : State} (h : s.offset.toNat + 2 > s.len.toNat) :
    readU16LE s = .error ⟨.bounds, s.offset.toNat⟩ := by
  simp [readU16LE, memRead_bounds h]

theorem readU32BE_ok {s : State} (h : s.offset.toNat + 4 ≤ s.len.toNat) :
    readU32BE s = .ok (s.wordBE s.offset.toNat, s.advance 4) := by
  simp [readU32BE, memRead_ok h, List.range_succ, State.wordBE]

theorem readU32BE_bounds {s : State} (h : s.offset.toNat + 4 > s.len.toNat) :
    readU32BE s = .error ⟨.bounds, s.offset.toNat⟩ := by
  simp [readU32BE, memRead_bounds h]

theorem readU32BE_eq_ok {s : State} {r : Word × State} :
    readU32BE s = .ok r ↔
      s.offset.toNat + 4 ≤ s.len.toNat ∧ r = (s.wordBE s.offset.toNat, s.advance 4) := by
  by_cases h : s.offset.toNat + 4 ≤ s.len.toNat
  · rw [readU32BE_ok h]
    simp [h, eq_comm]
  · rw [readU32BE_bounds (by omega)]
    simp [h]

/-- Moving the byte cursor within the buffer does not wrap. -/
theorem State.advance_toNat {s : State} {n : Nat} (h : s.offset.toNat + n ≤ s.len.toNat) :
    (s.advance n).offset.toNat = s.offset.toNat + n := by
  have := s.len.isLt
  simp only [State.advance_offset, BitVec.toNat_add, BitVec.toNat_ofNat]
  omega

@[simp] theorem State.byteAt_advance (s : State) (n a : Nat) : (s.advance n).byteAt a = s.byteAt a :=
  rfl

/-! ## The bit cursor -/

/-- A field inside the window: no refill (40_cursor.md R129). -/
theorem readBits_window {n : Nat} {s : State} (h : s.dfc.toNat + n ≤ 16) :
    readBits n s = .ok (takeBits n s.acc (s.dfc.toNat + n) s) := by
  simp [readBits, Nat.not_lt.2 h]

/-- A field that needs the next word: exactly one refill, shifted above the unconsumed bits
(40_cursor.md R129, R132). -/
theorem readBits_refill {n : Nat} {s : State} (h : s.dfc.toNat + n > 16)
    (hb : s.offset.toNat + 2 ≤ s.len.toNat) :
    readBits n s =
      .ok (takeBits n
        (s.acc ||| ((s.byteAt (s.offset.toNat + 1) ++ s.byteAt s.offset.toNat).setWidth 32
          <<< (16 - s.dfc.toNat)))
        (s.dfc.toNat + n - 16) (s.advance 2)) := by
  simp [readBits, h, readU16LE_ok hb]

/-- A refill past `LEN` raises before anything changes (40_cursor.md R129, R130). -/
theorem readBits_bounds {n : Nat} {s : State} (h : s.dfc.toNat + n > 16)
    (hb : s.offset.toNat + 2 > s.len.toNat) :
    readBits n s = .error ⟨.bounds, s.offset.toNat⟩ := by
  simp [readBits, h, readU16LE_bounds hb]

/-- Everything `readBits` can do. -/
theorem readBits_cases (n : Nat) (s : State) :
    (s.dfc.toNat + n ≤ 16 ∧ readBits n s = .ok (takeBits n s.acc (s.dfc.toNat + n) s)) ∨
    (s.dfc.toNat + n > 16 ∧ s.offset.toNat + 2 ≤ s.len.toNat ∧
      readBits n s =
        .ok (takeBits n
          (s.acc ||| ((s.byteAt (s.offset.toNat + 1) ++ s.byteAt s.offset.toNat).setWidth 32
            <<< (16 - s.dfc.toNat)))
          (s.dfc.toNat + n - 16) (s.advance 2))) ∨
    (s.dfc.toNat + n > 16 ∧ s.offset.toNat + 2 > s.len.toNat ∧
      readBits n s = .error ⟨.bounds, s.offset.toNat⟩) := by
  by_cases h : s.dfc.toNat + n ≤ 16
  · exact .inl ⟨h, readBits_window h⟩
  · by_cases hb : s.offset.toNat + 2 ≤ s.len.toNat
    · exact .inr (.inl ⟨by omega, hb, readBits_refill (by omega) hb⟩)
    · exact .inr (.inr ⟨by omega, by omega, readBits_bounds (by omega) (by omega)⟩)

/-! ## Raising and completing -/

theorem raise_of_faulted {r : Raised} {s : State} (h : s.faulted = true) : raise r s = s := by
  simp [raise, h]

theorem raise_of_running {r : Raised} {s : State} (h : s.faulted = false) :
    raise r s =
      { havoc s with
        status := statusWithFault s.status (fcodeOf r.code)
        finfo := BitVec.ofInt 32 r.info } := by
  simp [raise, h]

theorem attempt_faulted {s : State} {r : Run State} (h : s.faulted = true) :
    attempt s r = .next s := by
  simp [attempt, h]

theorem attempt_ok {s t : State} (h : s.faulted = false) : attempt s (.ok t) = .next t := by
  simp [attempt, h]

theorem attempt_error {s : State} {f : Raised} (h : s.faulted = false) :
    attempt s (.error f) = .next (raise f s) := by
  simp [attempt, h]

/-- Every instruction but `RESET` has a next state: its own, or the fault's, or itself when refused. -/
theorem attempt_cases (s : State) (r : Run State) :
    (s.faulted = true ∧ attempt s r = .next s) ∨
    (s.faulted = false ∧ ∃ t, r = .ok t ∧ attempt s r = .next t) ∨
    (s.faulted = false ∧ ∃ f, r = .error f ∧ attempt s r = .next (raise f s)) := by
  cases h : s.faulted
  · cases r with
    | ok t => exact .inr (.inl ⟨rfl, t, rfl, attempt_ok h⟩)
    | error f => exact .inr (.inr ⟨rfl, f, rfl, attempt_error h⟩)
  · exact .inl ⟨rfl, attempt_faulted h⟩

/-- A recorded fault sets `FAULTED`. -/
theorem statusFaulted_withFault (st : Word) (c : Byte) :
    statusFaulted (statusWithFault st c) = true := by
  simp [statusFaulted, statusWithFault]

theorem raise_faulted (r : Raised) (s : State) : (raise r s).faulted = true := by
  unfold raise
  split
  · assumption
  · exact statusFaulted_withFault _ _

end Sys2Proof.Machine
end

