-- ==== Sys2Proof/Laws/Adpcm.lean ====
section
/-! SUPPORT. The laws of the ADPCM decoders (41_adpcm.md R156, R162 to R165): ranges, how many samples a byte
gives, and what a decode changes. -/

namespace Sys2Proof.Machine

theorem clampInt_bounds {v lo hi : Int} (h : lo ≤ hi) :
    lo ≤ clampInt v lo hi ∧ clampInt v lo hi ≤ hi := by
  unfold clampInt
  omega

theorem ofInt32_toInt {p : Int} (h1 : -32768 ≤ p) (h2 : p ≤ 32767) :
    (BitVec.ofInt 32 p).toInt = p := by
  rw [BitVec.toInt_ofInt, Int.bmod_def]
  norm_num
  split <;> omega

/-- A sample in the 16-bit range is stored without truncation (00_scope.md R11). -/
theorem ofInt16_toInt {p : Int} (h1 : -32768 ≤ p) (h2 : p ≤ 32767) :
    (BitVec.ofInt 16 p).toInt = p := by
  rw [BitVec.toInt_ofInt, Int.bmod_def]
  norm_num
  split <;> omega

theorem ofInt7_toNat {i : Int} (h1 : 0 ≤ i) (h2 : i ≤ 127) :
    (BitVec.ofInt 7 i).toNat = i.toNat := by
  rw [BitVec.toNat_ofInt]
  norm_num
  omega

/-- Only variant A's state and the output may change. -/
def OnlyAdpcmA (s t : State) : Prop :=
  t = { s with apred := t.apred, aidx := t.aidx, pcm := t.pcm, pcmCount := t.pcmCount }

/-- Only variant B's state and the output may change. -/
def OnlyAdpcmB (s t : State) : Prop :=
  t = { s with bpred := t.bpred, bidx := t.bidx, pcm := t.pcm, pcmCount := t.pcmCount }

theorem OnlyAdpcmA.trans {s t u : State} (h : OnlyAdpcmA s t) (h' : OnlyAdpcmA t u) :
    OnlyAdpcmA s u := by
  unfold OnlyAdpcmA at *
  rw [h']
  rw [h]

theorem OnlyAdpcmB.trans {s t u : State} (h : OnlyAdpcmB s t) (h' : OnlyAdpcmB t u) :
    OnlyAdpcmB s u := by
  unfold OnlyAdpcmB at *
  rw [h']
  rw [h]

theorem stepA_only (c : BitVec 4) (s : State) : OnlyAdpcmA s (stepA c s) := rfl

theorem stepAByte_only (b : Byte) (s : State) : OnlyAdpcmA s (stepAByte b s) :=
  (stepA_only _ s).trans (stepA_only _ _)

theorem State.emitB_cases (s : State) (v : Int) :
    s.emitB v = s.appendSample v ∨ s.emitB v = s := by
  unfold State.emitB
  split
  · exact .inl rfl
  · split
    · exact .inl rfl
    · exact .inr rfl

theorem stepB_only (d x : Int) (s : State) : OnlyAdpcmB s (stepB d x s) := by
  unfold stepB
  rcases State.emitB_cases
    { s with
      bpred := BitVec.ofInt 32 (clampInt (s.bpred.toInt + d) (-2048) 2047)
      bidx := BitVec.ofInt 7 (clampInt ((s.bidx.toNat : Int) + x) 0 Config.bidxMax) }
    (clampInt (s.bpred.toInt + d) (-2048) 2047 * 16) with h | h <;>
  · simp only [h]
    rfl

theorem stepBWalk_only (b : Byte) (fuel pos : Nat) (s : State) :
    OnlyAdpcmB s (stepBWalk b fuel pos s) := by
  induction fuel generalizing pos s with
  | zero => rfl
  | succ fuel ih =>
    unfold stepBWalk
    split
    · split
      · exact (stepB_only _ _ s).trans (ih _ _)
      · exact (stepB_only _ _ s).trans (ih _ _)
    · rfl

theorem stepBByte_only (b : Byte) (s : State) : OnlyAdpcmB s (stepBByte b s) :=
  stepBWalk_only b 4 0 s

/-- A transitive change of a byte step is the change of the whole range. -/
theorem feedBytes_rel {f : Byte → State → State} {R : State → State → Prop} (hr : ∀ s, R s s)
    (ht : ∀ {s t u}, R s t → R t u → R s u) (hf : ∀ b s, R s (f b s)) (p n : Nat) (s : State) :
    R s (feedBytes f p n s) := by
  induction n generalizing p s with
  | zero => exact hr s
  | succ n ih => exact ht (hf _ s) (ih _ _)

/-- A property each byte step keeps holds after the whole range. -/
theorem feedBytes_keeps {f : Byte → State → State} {P : State → Prop}
    (hf : ∀ b s, P s → P (f b s)) (p n : Nat) {s : State} (h : P s) : P (feedBytes f p n s) := by
  induction n generalizing p s with
  | zero => exact h
  | succ n ih => exact ih _ (hf _ s h)

/-- Decoding goes on from where it stood: a range in two parts (41_adpcm.md R157, R163). -/
theorem feedBytes_add (f : Byte → State → State) (p m n : Nat) (s : State) :
    feedBytes f p (m + n) s = feedBytes f (p + m) n (feedBytes f p m s) := by
  induction m generalizing p s with
  | zero => simp [feedBytes]
  | succ m ih =>
    rw [show m + 1 + n = (m + n) + 1 by omega]
    simp only [feedBytes]
    rw [ih, show p + 1 + m = p + (m + 1) by omega]

theorem feedBytes_only_A (p n : Nat) (s : State) : OnlyAdpcmA s (feedBytes stepAByte p n s) :=
  feedBytes_rel (R := OnlyAdpcmA) (fun _ => rfl) OnlyAdpcmA.trans stepAByte_only p n s

theorem feedBytes_only_B (p n : Nat) (s : State) : OnlyAdpcmB s (feedBytes stepBByte p n s) :=
  feedBytes_rel (R := OnlyAdpcmB) (fun _ => rfl) OnlyAdpcmB.trans stepBByte_only p n s

/-! ## Ranges -/

theorem nextPcmCount_toNat {c : Word} {k : Nat} (h : c.toNat + 1 < 2 ^ 32) :
    (nextPcmCount c k).toNat = c.toNat + 1 := by
  simp only [nextPcmCount, h, if_true, BitVec.toNat_add, BitVec.toNat_ofNat]
  omega

theorem State.appendSample_count {s : State} {v : Int}
    (h : s.pcm.length < 2 ^ 32 → s.pcmCount.toNat = s.pcm.length) :
    (s.appendSample v).pcm.length < 2 ^ 32 →
      (s.appendSample v).pcmCount.toNat = (s.appendSample v).pcm.length := by
  intro hlt
  simp only [State.appendSample_pcm, State.appendSample_pcmCount, List.length_append,
    List.length_cons, List.length_nil] at *
  rw [nextPcmCount_toNat] <;> (have := h (by omega); omega)

/-- Variant A's ranges hold after every code (41_adpcm.md R156). -/
theorem stepA_legal (c : BitVec 4) {s : State} (h : s.AdpcmLegal) : (stepA c s).AdpcmLegal := by
  have hp := clampInt_bounds (v := s.apred.toInt + diff4 c (stepSize s.aidx))
    (lo := -32768) (hi := 32767) (by omega)
  have hi := clampInt_bounds (v := (s.aidx.toNat : Int) + idx4 c)
    (lo := 0) (hi := Config.aidxMax) (by decide)
  constructor
  · simp only [stepA, State.appendSample_apred]
    rw [ofInt32_toInt hp.1 hp.2]
    exact hp.1
  · simp only [stepA, State.appendSample_apred]
    rw [ofInt32_toInt hp.1 hp.2]
    exact hp.2
  · simp only [stepA, State.appendSample_aidx]
    have h2 : (Config.aidxMax : Int) = 88 := rfl
    rw [ofInt7_toNat hi.1 (by omega)]
    omega
  · exact h.bpredLow
  · exact h.bpredHigh
  · exact h.bidx
  · exact State.appendSample_count h.count

theorem stepAByte_legal (b : Byte) (s : State) (h : s.AdpcmLegal) : (stepAByte b s).AdpcmLegal :=
  stepA_legal _ (stepA_legal _ h)

/-- Variant B's ranges hold after every code (41_adpcm.md R162). -/
theorem stepB_legal (d x : Int) {s : State} (h : s.AdpcmLegal) : (stepB d x s).AdpcmLegal := by
  have hp := clampInt_bounds (v := s.bpred.toInt + d) (lo := -2048) (hi := 2047) (by omega)
  have hi := clampInt_bounds (v := (s.bidx.toNat : Int) + x)
    (lo := 0) (hi := Config.bidxMax) (by decide)
  have h2 : (Config.bidxMax : Int) = 79 := rfl
  have hb := ofInt32_toInt (p := clampInt (s.bpred.toInt + d) (-2048) 2047) (by omega) (by omega)
  have hx := ofInt7_toNat (i := clampInt ((s.bidx.toNat : Int) + x) 0 Config.bidxMax) hi.1 (by omega)
  have base : State.AdpcmLegal
    { s with
      bpred := BitVec.ofInt 32 (clampInt (s.bpred.toInt + d) (-2048) 2047)
      bidx := BitVec.ofInt 7 (clampInt ((s.bidx.toNat : Int) + x) 0 Config.bidxMax) } :=
    ⟨h.apredLow, h.apredHigh, h.aidx, by simp only [hb]; exact hp.1, by simp only [hb]; exact hp.2,
      by simp only [hx]; omega, h.count⟩
  unfold stepB
  rcases State.emitB_cases
    { s with
      bpred := BitVec.ofInt 32 (clampInt (s.bpred.toInt + d) (-2048) 2047)
      bidx := BitVec.ofInt 7 (clampInt ((s.bidx.toNat : Int) + x) 0 Config.bidxMax) }
    (clampInt (s.bpred.toInt + d) (-2048) 2047 * 16) with he | he
  · simp only [he]
    exact ⟨base.apredLow, base.apredHigh, base.aidx, base.bpredLow, base.bpredHigh, base.bidx,
      State.appendSample_count base.count⟩
  · simp only [he]
    exact base

theorem stepBWalk_legal (b : Byte) (fuel pos : Nat) {s : State} (h : s.AdpcmLegal) :
    (stepBWalk b fuel pos s).AdpcmLegal := by
  induction fuel generalizing pos s with
  | zero => exact h
  | succ fuel ih =>
    unfold stepBWalk
    split
    · split
      · exact ih _ (stepB_legal _ _ h)
      · exact ih _ (stepB_legal _ _ h)
    · exact h

theorem stepBByte_legal (b : Byte) (s : State) (h : s.AdpcmLegal) : (stepBByte b s).AdpcmLegal :=
  stepBWalk_legal b 4 0 h

/-! ## How many samples -/

@[simp] theorem stepAByte_length (b : Byte) (s : State) :
    (stepAByte b s).pcm.length = s.pcm.length + 2 := by
  simp [stepAByte, stepA]

/-- Variant A gives two samples for each byte (41_adpcm.md R165). -/
theorem feedBytes_length_A (p n : Nat) (s : State) :
    (feedBytes stepAByte p n s).pcm.length = s.pcm.length + 2 * n := by
  induction n generalizing p s with
  | zero => rfl
  | succ n ih =>
    simp only [feedBytes]
    rw [ih, stepAByte_length]
    omega

theorem stepB_length {d x : Int} {s : State} (h : s.cfg.pcmCap = none) :
    (stepB d x s).pcm.length = s.pcm.length + 1 := by
  simp [stepB, State.emitB, h]

theorem stepB_cfg (d x : Int) (s : State) : (stepB d x s).cfg = s.cfg := by
  rw [stepB_only d x s]

/-- Variant B gives two to four samples for each byte, without a cap (41_adpcm.md R165). -/
theorem stepBByte_length (b : Byte) {s : State} (h : s.cfg.pcmCap = none) :
    s.pcm.length + 2 ≤ (stepBByte b s).pcm.length ∧
      (stepBByte b s).pcm.length ≤ s.pcm.length + 4 := by
  have walk : ∀ fuel pos (s : State), s.cfg.pcmCap = none →
      s.pcm.length + min fuel ((11 - pos) / 4) ≤ (stepBWalk b fuel pos s).pcm.length ∧
        (stepBWalk b fuel pos s).pcm.length ≤ s.pcm.length + fuel := by
    intro fuel
    induction fuel with
    | zero => intro pos s _; simp [stepBWalk]
    | succ fuel ih =>
      intro pos s hs
      unfold stepBWalk
      split
      · split
        · have h1 : (stepB2 (code2At b pos) s).pcm.length = s.pcm.length + 1 := stepB_length hs
          have h2 := ih (pos + 2) (stepB2 (code2At b pos) s) (by
            rw [stepB2, stepB_cfg]; exact hs)
          rw [h1] at h2
          omega
        · have h1 : (stepB4 (code4At b pos) s).pcm.length = s.pcm.length + 1 := stepB_length hs
          have h2 := ih (pos + 4) (stepB4 (code4At b pos) s) (by
            rw [stepB4, stepB_cfg]; exact hs)
          rw [h1] at h2
          omega
      · omega
  have := walk 4 0 s h
  simpa [stepBByte] using this

theorem feedBytes_length_B (p n : Nat) {s : State} (h : s.cfg.pcmCap = none) :
    s.pcm.length + 2 * n ≤ (feedBytes stepBByte p n s).pcm.length ∧
      (feedBytes stepBByte p n s).pcm.length ≤ s.pcm.length + 4 * n := by
  induction n generalizing p s with
  | zero => simp [feedBytes]
  | succ n ih =>
    have h1 := stepBByte_length (s.byteAt p) h
    have h2 := ih (p := p + 1) (s := stepBByte (s.byteAt p) s) (by rw [stepBByte_only]; exact h)
    simp only [feedBytes]
    omega

/-- Every sample variant B emits is in range and a multiple of 16 (41_adpcm.md R162, R164). -/
theorem feedBytes_B_range (p n : Nat) (s : State) : ∃ l, (feedBytes stepBByte p n s).pcm = s.pcm ++ l ∧
    ∀ v ∈ l, -32768 ≤ v.toInt ∧ v.toInt ≤ 32752 ∧ v.toInt % 16 = 0 := by
  let R : State → State → Prop := fun s t => ∃ l, t.pcm = s.pcm ++ l ∧
    ∀ v ∈ l, -32768 ≤ v.toInt ∧ v.toInt ≤ 32752 ∧ v.toInt % 16 = 0
  have hr : ∀ s, R s s := fun s => ⟨[], by simp, by simp⟩
  have ht : ∀ {s t u}, R s t → R t u → R s u := by
    rintro s t u ⟨l, h1, h2⟩ ⟨l', h3, h4⟩
    refine ⟨l ++ l', by rw [h3, h1, List.append_assoc], fun v hv => ?_⟩
    rcases List.mem_append.1 hv with h | h
    · exact h2 v h
    · exact h4 v h
  have hs : ∀ d x s, R s (stepB d x s) := by
    intro d x s
    have hc := clampInt_bounds (v := s.bpred.toInt + d) (lo := -2048) (hi := 2047) (by omega)
    unfold stepB
    generalize clampInt (s.bpred.toInt + d) (-2048) 2047 = p at hc
    rcases State.emitB_cases { s with bpred := BitVec.ofInt 32 p, bidx := BitVec.ofInt 7 (clampInt (↑s.bidx.toNat + x) 0 ↑Config.bidxMax) } (p * 16) with h | h <;> simp only [h]
    · refine ⟨[BitVec.ofInt 16 (p * 16)], rfl, fun v hv => ?_⟩
      obtain rfl := List.mem_singleton.1 hv
      rw [ofInt16_toInt (by omega) (by omega)]; omega
    · exact ⟨[], by simp, by simp⟩
  have hw : ∀ b fuel pos s, R s (stepBWalk b fuel pos s) := by
    intro b fuel
    induction fuel with
    | zero => intro pos s; exact hr s
    | succ fuel ih =>
      intro pos s
      unfold stepBWalk
      split
      · split
        · exact ht (hs _ _ _) (ih _ _)
        · exact ht (hs _ _ _) (ih _ _)
      · exact hr s
  exact feedBytes_rel (R := R) hr ht (fun b s => hw b 4 0 s) p n s

end Sys2Proof.Machine
end

