-- ==== Sys2Proof/Laws/AdpcmSpec.lean ====
section
/-! SUPPORT. The ADPCM commands compute the integer recurrences of 41_adpcm.md, without wrap or truncation. -/

namespace Sys2Proof.Machine

theorem nibble_cases (c : BitVec 4) : ∃ n, n < 16 ∧ c = BitVec.ofNat 4 n :=
  ⟨c.toNat, c.isLt, by simp⟩

theorem diff4_eq (c : BitVec 4) (s : Nat) : diff4 c s = imaDiff c.toNat s := by
  obtain ⟨n, hn, rfl⟩ := nibble_cases c
  have : n = 0 ∨ n = 1 ∨ n = 2 ∨ n = 3 ∨ n = 4 ∨ n = 5 ∨ n = 6 ∨ n = 7 ∨ n = 8 ∨ n = 9 ∨ n = 10 ∨ n = 11 ∨
      n = 12 ∨ n = 13 ∨ n = 14 ∨ n = 15 := by omega
  rcases this with rfl | rfl | rfl | rfl | rfl | rfl | rfl | rfl | rfl | rfl | rfl | rfl | rfl | rfl |
    rfl | rfl <;> simp [diff4, magnitude4, imaDiff]

theorem diff2_eq (c : BitVec 2) (s : Nat) : diff2 c s = twoBitDiff c.toNat s := by
  have : ∀ c : BitVec 2, c = 0#2 ∨ c = 1#2 ∨ c = 2#2 ∨ c = 3#2 := by decide
  rcases this c with rfl | rfl | rfl | rfl <;> simp [diff2, twoBitDiff]

theorem idx4_eq (c : BitVec 4) : idx4 c = idx4List.getD c.toNat 0 := by
  revert c
  decide

theorem idx2_eq (c : BitVec 2) : idx2 c = idx2List.getD c.toNat 0 := by
  revert c
  decide

/-! ## Variant A -/

theorem stepA_spec (c : BitVec 4) (s : State) :
    (stepA c s).adpcmA = s.adpcmA.codeA c.toNat ∧
    (stepA c s).pcm = s.pcm ++ [BitVec.ofInt 16 (s.adpcmA.codeA c.toNat).pred] := by
  have hp := clampInt_bounds (v := s.apred.toInt + diff4 c (stepSize s.aidx))
    (lo := -32768) (hi := 32767) (by omega)
  have hi := clampInt_bounds (v := (s.aidx.toNat : Int) + idx4 c)
    (lo := 0) (hi := Config.aidxMax) (by decide)
  have h88 : (Config.aidxMax : Int) = 88 := rfl
  have e1 : clampInt (s.apred.toInt + diff4 c (stepSize s.aidx)) (-32768) 32767 =
      (s.adpcmA.codeA c.toNat).pred := by
    rw [diff4_eq]
    rfl
  have e2 : (clampInt ((s.aidx.toNat : Int) + idx4 c) 0 Config.aidxMax).toNat =
      (s.adpcmA.codeA c.toNat).idx := by
    rw [idx4_eq]
    rfl
  refine ⟨?_, ?_⟩
  · simp only [stepA, State.adpcmA, State.appendSample_apred, State.appendSample_aidx]
    rw [ofInt32_toInt hp.1 hp.2, ofInt7_toNat hi.1 (by omega), e1, e2]
    rfl
  · simp only [stepA, State.appendSample_pcm, e1]

theorem lowNibble_toNat (b : Byte) : (lowNibble b).toNat = b.toNat % 16 := by
  simp [lowNibble, BitVec.extractLsb'_toNat]

theorem highNibble_toNat (b : Byte) : (highNibble b).toNat = b.toNat / 16 := by
  have := b.isLt
  simp only [highNibble, BitVec.extractLsb'_toNat, Nat.shiftRight_eq_div_pow]
  omega

theorem bytesFrom_congr {s t : State} (h : t.mem = s.mem) (p n : Nat) : t.bytesFrom p n = s.bytesFrom p n := by
  induction n generalizing p with
  | zero => rfl
  | succ n ih => simp only [State.bytesFrom, ih, State.byteAt, h]

theorem bytesFrom_length (s : State) (p n : Nat) : (s.bytesFrom p n).length = n := by
  induction n generalizing p with
  | zero => rfl
  | succ n ih => simp [State.bytesFrom, ih]

/-- Variant A over a byte range (41_adpcm.md R154, R155, R157). -/
theorem feedBytes_A_spec (p n : Nat) (s : State) :
    (feedBytes stepAByte p n s).adpcmA = (s.adpcmA.trackA (s.bytesFrom p n)).getLastD s.adpcmA ∧
    (feedBytes stepAByte p n s).pcm = s.pcm ++ samplesOf 1 (s.adpcmA.trackA (s.bytesFrom p n)) := by
  induction n generalizing p s with
  | zero => simp [feedBytes, State.bytesFrom, Adpcm.trackA, samplesOf]
  | succ n ih =>
    obtain ⟨a1, a2⟩ := stepA_spec (lowNibble (s.byteAt p)) s
    obtain ⟨b1, b2⟩ := stepA_spec (highNibble (s.byteAt p)) (stepA (lowNibble (s.byteAt p)) s)
    have hmem : (stepAByte (s.byteAt p) s).mem = s.mem := by rw [stepAByte_only]
    obtain ⟨c1, c2⟩ := ih (p := p + 1) (s := stepAByte (s.byteAt p) s)
    rw [lowNibble_toNat] at a1 a2
    rw [highNibble_toNat, a1] at b1 b2
    have hst : (stepAByte (s.byteAt p) s).adpcmA =
        (s.adpcmA.codeA ((s.byteAt p).toNat % 16)).codeA ((s.byteAt p).toNat / 16) := b1
    have hpcm : (stepAByte (s.byteAt p) s).pcm = s.pcm ++
        [BitVec.ofInt 16 (s.adpcmA.codeA ((s.byteAt p).toNat % 16)).pred,
          BitVec.ofInt 16 ((s.adpcmA.codeA ((s.byteAt p).toNat % 16)).codeA
            ((s.byteAt p).toNat / 16)).pred] := by
      show (stepA _ _).pcm = _
      rw [b2, a2]
      simp
    simp only [feedBytes, State.bytesFrom, Adpcm.trackA]
    rw [c1, c2, hst, hpcm, bytesFrom_congr hmem]
    refine ⟨by rw [List.getLastD_cons, List.getLastD_cons], by simp [samplesOf]⟩

theorem feedBytes_A_count (p n : Nat) {s : State} (h : s.AdpcmLegal)
    (hn : s.pcm.length + 2 * n < 2 ^ 32) :
    (feedBytes stepAByte p n s).pcmCount = s.pcmCount + BitVec.ofNat 32 (2 * n) := by
  have h1 := (feedBytes_keeps (P := State.AdpcmLegal) stepAByte_legal p n h).count
  rw [feedBytes_length_A] at h1
  have h2 := h.count (by omega)
  apply BitVec.eq_of_toNat_eq
  rw [h1 hn, BitVec.toNat_add, h2, BitVec.toNat_ofNat]
  omega

/-! ## Variant B -/

theorem capSamples_append (cap : Option Nat) (n : Nat) (l l' : List Sample) :
    capSamples cap n l ++ capSamples cap (n + (capSamples cap n l).length) l' =
      capSamples cap n (l ++ l') := by
  cases cap with
  | none => rfl
  | some c =>
    simp only [capSamples, List.take_append, List.length_take]
    congr 2
    omega

theorem emitB_pcm {s : State} {v : Int} (hc : s.pcmCount.toNat = s.pcm.length) :
    (s.emitB v).pcm = s.pcm ++ capSamples s.cfg.pcmCap s.pcm.length [BitVec.ofInt 16 v] := by
  cases hcap : s.cfg.pcmCap with
  | none =>
    have h : s.emitB v = s.appendSample v := by simp only [State.emitB, hcap]
    rw [h]
    rfl
  | some cap =>
    have h : s.emitB v = if s.pcmCount.toNat < cap then s.appendSample v else s := by
      simp only [State.emitB, hcap]
    have h' : ∀ l, capSamples (some cap) s.pcm.length l = l.take (cap - s.pcm.length) := fun _ => rfl
    rw [h, h', hc]
    split
    · obtain ⟨d, hd⟩ : ∃ d, cap - s.pcm.length = d + 1 := ⟨cap - s.pcm.length - 1, by omega⟩
      rw [hd]
      simp
    · rw [show cap - s.pcm.length = 0 by omega]
      simp

theorem stepB_spec (d x : Int) {s : State} {a : Adpcm} (hl : s.AdpcmLegal) (hn : s.pcm.length + 1 < 2 ^ 32)
    (ha : a = s.adpcmB.next d x (-2048) 2047 79) :
    (stepB d x s).adpcmB = a ∧
    (stepB d x s).pcm = s.pcm ++ capSamples s.cfg.pcmCap s.pcm.length [BitVec.ofInt 16 (a.pred * 16)] := by
  have hp := clampInt_bounds (v := s.bpred.toInt + d) (lo := -2048) (hi := 2047) (by omega)
  have hi := clampInt_bounds (v := (s.bidx.toNat : Int) + x) (lo := 0) (hi := Config.bidxMax) (by decide)
  have h79 : (Config.bidxMax : Int) = 79 := rfl
  have e1 : clampInt (s.bpred.toInt + d) (-2048) 2047 = a.pred := by rw [ha]; rfl
  have e2 : (clampInt ((s.bidx.toNat : Int) + x) 0 Config.bidxMax).toNat = a.idx := by rw [ha]; rfl
  refine ⟨?_, ?_⟩
  · have hb : (stepB d x s).bpred = BitVec.ofInt 32 (clampInt (s.bpred.toInt + d) (-2048) 2047) := by
      unfold stepB
      simp only
      rcases State.emitB_cases _ _ with h | h
      · rw [h]
        rfl
      · rw [h]
    have hx : (stepB d x s).bidx = BitVec.ofInt 7 (clampInt ((s.bidx.toNat : Int) + x) 0 Config.bidxMax) := by
      unfold stepB
      simp only
      rcases State.emitB_cases _ _ with h | h
      · rw [h]
        rfl
      · rw [h]
    simp only [State.adpcmB, hb, hx]
    rw [ofInt32_toInt (by omega) (by omega), ofInt7_toNat hi.1 (by omega), e1, e2]
  · have hc := hl.count (by omega)
    refine (emitB_pcm (s := { s with
      bpred := BitVec.ofInt 32 (clampInt (s.bpred.toInt + d) (-2048) 2047)
      bidx := BitVec.ofInt 7 (clampInt ((s.bidx.toNat : Int) + x) 0 Config.bidxMax) }) hc).trans ?_
    rw [e1]

theorem stepB_grows (d x : Int) (s : State) : (stepB d x s).pcm.length ≤ s.pcm.length + 1 := by
  unfold stepB
  simp only
  rcases State.emitB_cases
    { s with
      bpred := BitVec.ofInt 32 (clampInt (s.bpred.toInt + d) (-2048) 2047)
      bidx := BitVec.ofInt 7 (clampInt ((s.bidx.toNat : Int) + x) 0 Config.bidxMax) }
    (clampInt (s.bpred.toInt + d) (-2048) 2047 * 16) with h | h <;> rw [h]
  · simp
  · simp

theorem code2At_toNat (b : Byte) (pos : Nat) : (code2At b pos).toNat = b.toNat / 2 ^ pos % 4 := by
  simp [code2At, BitVec.extractLsb'_toNat, Nat.shiftRight_eq_div_pow]

theorem code4At_toNat (b : Byte) (pos : Nat) : (code4At b pos).toNat = b.toNat / 2 ^ pos % 16 := by
  simp [code4At, BitVec.extractLsb'_toNat, Nat.shiftRight_eq_div_pow]

theorem stepB2_spec (b : Byte) (pos : Nat) {s : State} (hl : s.AdpcmLegal) (hn : s.pcm.length + 1 < 2 ^ 32) :
    (stepB2 (code2At b pos) s).adpcmB = s.adpcmB.codeB2 (b.toNat / 2 ^ pos % 4) ∧
    (stepB2 (code2At b pos) s).pcm = s.pcm ++ capSamples s.cfg.pcmCap s.pcm.length
      [BitVec.ofInt 16 ((s.adpcmB.codeB2 (b.toNat / 2 ^ pos % 4)).pred * 16)] := by
  refine stepB_spec _ _ hl hn ?_
  rw [diff2_eq, idx2_eq, code2At_toNat]
  rfl

theorem stepB4_spec (b : Byte) (pos : Nat) {s : State} (hl : s.AdpcmLegal) (hn : s.pcm.length + 1 < 2 ^ 32) :
    (stepB4 (code4At b pos) s).adpcmB = s.adpcmB.codeB4 (b.toNat / 2 ^ pos % 16) ∧
    (stepB4 (code4At b pos) s).pcm = s.pcm ++ capSamples s.cfg.pcmCap s.pcm.length
      [BitVec.ofInt 16 ((s.adpcmB.codeB4 (b.toNat / 2 ^ pos % 16)).pred * 16)] := by
  refine stepB_spec _ _ hl hn ?_
  rw [diff4_eq, idx4_eq, code4At_toNat]
  rfl

/-- The rest of a byte from bit position 8 − 2k, as k groups. -/
def groupsFrom (b : Byte) : Nat → List Nat
  | 0 => []
  | k + 1 => b.toNat / 2 ^ (8 - 2 * (k + 1)) % 4 :: groupsFrom b k

theorem groupsFrom_four (b : Byte) : groupsFrom b 4 = byteGroups b := by
  have := b.isLt
  simp only [groupsFrom, byteGroups]
  norm_num
  omega

theorem stepBWalk_spec (b : Byte) (fuel k : Nat) {s : State} (hk : k ≤ 4) (hfk : k ≤ fuel)
    (hl : s.AdpcmLegal) (hn : s.pcm.length + k < 2 ^ 32) :
    (stepBWalk b fuel (8 - 2 * k) s).adpcmB =
      (s.adpcmB.groupsB (groupsFrom b k)).getLastD s.adpcmB ∧
    (stepBWalk b fuel (8 - 2 * k) s).pcm = s.pcm ++ capSamples s.cfg.pcmCap s.pcm.length
      (samplesOf 16 (s.adpcmB.groupsB (groupsFrom b k))) := by
  induction k using Nat.strongRecOn generalizing fuel s with
  | _ k ih =>
    cases k with
    | zero =>
      have hw : stepBWalk b fuel (8 - 2 * 0) s = s := by
        cases fuel <;> simp [stepBWalk]
      rw [hw]
      cases s.cfg.pcmCap <;> simp [groupsFrom, Adpcm.groupsB, samplesOf, capSamples]
    | succ k =>
      obtain ⟨fuel, rfl⟩ : ∃ f, fuel = f + 1 := ⟨fuel - 1, by omega⟩
      have hpos : 8 - 2 * (k + 1) < 8 := by omega
      -- what one step gives, then the rest
      have glue : ∀ (u : State) (a : Adpcm) (j : Nat), j ≤ k →
          u.adpcmB = a → u.AdpcmLegal → u.cfg = s.cfg →
          u.pcm = s.pcm ++ capSamples s.cfg.pcmCap s.pcm.length [BitVec.ofInt 16 (a.pred * 16)] →
          u.pcm.length ≤ s.pcm.length + 1 →
          (stepBWalk b fuel (8 - 2 * j) u).adpcmB =
            (a :: a.groupsB (groupsFrom b j)).getLastD s.adpcmB ∧
          (stepBWalk b fuel (8 - 2 * j) u).pcm = s.pcm ++ capSamples s.cfg.pcmCap s.pcm.length
            (samplesOf 16 (a :: a.groupsB (groupsFrom b j))) := by
        intro u a j hj h1 h2 h3 h4 h5
        obtain ⟨c1, c2⟩ := ih j (by omega) (fuel := fuel) (s := u) (by omega) (by omega) h2 (by omega)
        refine ⟨by rw [c1, h1, List.getLastD_cons], ?_⟩
        rw [c2, h1, h3, h4, List.append_assoc]
        congr 1
        rw [List.length_append]
        exact capSamples_append _ _ _ _
      unfold stepBWalk
      rw [if_pos hpos]
      by_cases hc : s.bidx.toNat < Config.b2Threshold ∨ 8 - 2 * (k + 1) > 4
      · rw [if_pos hc]
        obtain ⟨a1, a2⟩ := stepB2_spec b (8 - 2 * (k + 1)) hl (by omega)
        have := glue _ _ k (Nat.le_refl _) a1 (stepB_legal _ _ hl) (stepB_cfg _ _ _) a2 (stepB_grows _ _ _)
        rw [show 8 - 2 * (k + 1) + 2 = 8 - 2 * k by omega]
        cases k with
        | zero => exact this
        | succ k =>
          have h18 : s.adpcmB.idx < 18 := by
            rcases hc with hc | hc
            · exact hc
            · omega
          simp only [groupsFrom, Adpcm.groupsB, h18, if_true] at this ⊢
          exact this
      · rw [if_neg hc]
        obtain ⟨k, rfl⟩ : ∃ k', k = k' + 1 := ⟨k - 1, by omega⟩
        obtain ⟨a1, a2⟩ := stepB4_spec b (8 - 2 * (k + 1 + 1)) hl (by omega)
        have := glue _ _ k (by omega) a1 (stepB_legal _ _ hl) (stepB_cfg _ _ _) a2 (stepB_grows _ _ _)
        rw [show 8 - 2 * (k + 1 + 1) + 4 = 8 - 2 * k by omega]
        have h18 : ¬ s.adpcmB.idx < 18 := fun h => hc (.inl h)
        have h16 : b.toNat / 2 ^ (8 - 2 * (k + 1 + 1)) % 16 =
            b.toNat / 2 ^ (8 - 2 * (k + 1 + 1)) % 4 + 4 * (b.toNat / 2 ^ (8 - 2 * (k + 1)) % 4) := by
          have : k = 0 ∨ k = 1 ∨ k = 2 := by omega
          rcases this with rfl | rfl | rfl <;> norm_num <;> omega
        simp only [groupsFrom, Adpcm.groupsB, h18, if_false]
        rw [← h16]
        exact this

theorem stepBByte_spec (b : Byte) {s : State} (hl : s.AdpcmLegal) (hn : s.pcm.length + 4 < 2 ^ 32) :
    (stepBByte b s).adpcmB = (s.adpcmB.groupsB (byteGroups b)).getLastD s.adpcmB ∧
    (stepBByte b s).pcm = s.pcm ++ capSamples s.cfg.pcmCap s.pcm.length
      (samplesOf 16 (s.adpcmB.groupsB (byteGroups b))) := by
  rw [← groupsFrom_four]
  exact stepBWalk_spec b 4 4 (by omega) (by omega) hl hn

theorem stepBByte_grows (b : Byte) (s : State) : (stepBByte b s).pcm.length ≤ s.pcm.length + 4 := by
  have walk : ∀ fuel pos (s : State), (stepBWalk b fuel pos s).pcm.length ≤ s.pcm.length + fuel := by
    intro fuel
    induction fuel with
    | zero => intro pos s; simp [stepBWalk]
    | succ fuel ih =>
      intro pos s
      unfold stepBWalk
      split
      · split
        · have := ih (pos + 2) (stepB2 (code2At b pos) s)
          have h1 : (stepB2 (code2At b pos) s).pcm.length ≤ s.pcm.length + 1 := stepB_grows _ _ _
          omega
        · have := ih (pos + 4) (stepB4 (code4At b pos) s)
          have h1 : (stepB4 (code4At b pos) s).pcm.length ≤ s.pcm.length + 1 := stepB_grows _ _ _
          omega
      · omega
  exact walk 4 0 s

/-- Variant B over a byte range (41_adpcm.md R159 to R163). -/
theorem feedBytes_B_spec (p n : Nat) {s : State} (hl : s.AdpcmLegal) (hn : s.pcm.length + 4 * n < 2 ^ 32) :
    (feedBytes stepBByte p n s).adpcmB = (s.adpcmB.trackB (s.bytesFrom p n)).getLastD s.adpcmB ∧
    (feedBytes stepBByte p n s).pcm = s.pcm ++ capSamples s.cfg.pcmCap s.pcm.length
      (samplesOf 16 (s.adpcmB.trackB (s.bytesFrom p n))) := by
  induction n generalizing p s with
  | zero =>
    cases s.cfg.pcmCap <;> simp [feedBytes, State.bytesFrom, Adpcm.trackB, samplesOf, capSamples]
  | succ n ih =>
    obtain ⟨a1, a2⟩ := stepBByte_spec (s.byteAt p) hl (by omega)
    have hmem : (stepBByte (s.byteAt p) s).mem = s.mem := by rw [stepBByte_only]
    have hcfg : (stepBByte (s.byteAt p) s).cfg = s.cfg := by rw [stepBByte_only]
    have hgrow := stepBByte_grows (s.byteAt p) s
    obtain ⟨c1, c2⟩ := ih (p := p + 1) (s := stepBByte (s.byteAt p) s) (stepBByte_legal _ _ hl) (by omega)
    simp only [feedBytes, State.bytesFrom, Adpcm.trackB]
    rw [bytesFrom_congr hmem, a1] at c1 c2
    refine ⟨?_, ?_⟩
    · rw [c1]
      cases h : ((s.adpcmB.groupsB (byteGroups (s.byteAt p))).getLastD s.adpcmB).trackB
          (s.bytesFrom (p + 1) n) with
      | nil => simp
      | cons x l => simp [List.getLastD_eq_getLast?, List.getLast?_append]
    · rw [c2, hcfg, a2, List.append_assoc]
      congr 1
      rw [List.length_append, capSamples_append]
      simp [samplesOf]

/-- Variant A counts two samples for each byte (41_adpcm.md R154). -/
theorem feedBytes_A_pcmCount (p n : Nat) {s : State} (h : s.pcmCount.toNat + 2 * n < 2 ^ 32) :
    (feedBytes stepAByte p n s).pcmCount.toNat = s.pcmCount.toNat + 2 * n := by
  induction n generalizing p s with
  | zero => rfl
  | succ n ih =>
    have h2 : (stepAByte (s.byteAt p) s).pcmCount.toNat = s.pcmCount.toNat + 2 := by
      have e1 : (stepA (lowNibble (s.byteAt p)) s).pcmCount.toNat = s.pcmCount.toNat + 1 := by
        simp only [stepA, State.appendSample_pcmCount]
        exact nextPcmCount_toNat (by omega)
      have e2 : ∀ u : State, u.pcmCount.toNat + 1 < 2 ^ 32 → (stepA (highNibble (s.byteAt p)) u).pcmCount.toNat = u.pcmCount.toNat + 1 := by
        intro u hu
        simp only [stepA, State.appendSample_pcmCount]
        exact nextPcmCount_toNat (by omega)
      rw [stepAByte, e2 _ (by omega), e1]
    simp only [feedBytes]
    rw [ih _ (by omega), h2]; omega

/-- Two codes for each byte. -/
theorem trackA_length (bs : List Byte) : ∀ a : Adpcm, (a.trackA bs).length = 2 * bs.length := by
  induction bs with
  | nil => intro a; rfl
  | cons b bs ih => intro a; simp only [Adpcm.trackA, List.length_cons, ih]; omega

/-- Variant A's predictors are clamped (41_adpcm.md R155). -/
theorem trackA_pred (bs : List Byte) : ∀ a : Adpcm, ∀ x ∈ a.trackA bs, -32768 ≤ x.pred ∧ x.pred ≤ 32767 := by
  have hc : ∀ (a : Adpcm) c, -32768 ≤ (a.codeA c).pred ∧ (a.codeA c).pred ≤ 32767 := by
    intro a c; simp only [Adpcm.codeA, Adpcm.next]; omega
  induction bs with
  | nil => intro a x hx; cases hx
  | cons b bs ih =>
    intro a x hx
    simp only [Adpcm.trackA, List.mem_cons] at hx
    rcases hx with rfl | rfl | hx
    · exact hc _ _
    · exact hc _ _
    · exact ih _ x hx

/-- Variant B's predictors are clamped (41_adpcm.md R160). -/
theorem groupsB_pred (gs : List Nat) (a : Adpcm) :
    ∀ x ∈ a.groupsB gs, -2048 ≤ x.pred ∧ x.pred ≤ 2047 := by
  have h2 : ∀ (a : Adpcm) c, -2048 ≤ (a.codeB2 c).pred ∧ (a.codeB2 c).pred ≤ 2047 := by
    intro a c; simp only [Adpcm.codeB2, Adpcm.next]; omega
  have h4 : ∀ (a : Adpcm) c, -2048 ≤ (a.codeB4 c).pred ∧ (a.codeB4 c).pred ≤ 2047 := by
    intro a c; simp only [Adpcm.codeB4, Adpcm.next]; omega
  induction a, gs using Adpcm.groupsB.induct with
  | case1 a => intro x hx; cases hx
  | case2 a g => intro x hx; obtain rfl := List.mem_singleton.1 hx; exact h2 _ _
  | case3 a g h rest hi ih =>
    intro x hx
    simp only [Adpcm.groupsB, if_pos hi, List.mem_cons] at hx
    rcases hx with rfl | hx
    · exact h2 _ _
    · exact ih _ hx
  | case4 a g h rest hi ih =>
    intro x hx
    simp only [Adpcm.groupsB, if_neg hi, List.mem_cons] at hx
    rcases hx with rfl | hx
    · exact h4 _ _
    · exact ih _ hx

theorem trackB_pred (bs : List Byte) : ∀ a : Adpcm, ∀ x ∈ a.trackB bs, -2048 ≤ x.pred ∧ x.pred ≤ 2047 := by
  induction bs with
  | nil => intro a x hx; cases hx
  | cons b bs ih =>
    intro a x hx
    simp only [Adpcm.trackB, List.mem_append] at hx
    exact hx.elim (groupsB_pred _ a x) (ih _ x)

/-- Samples whose values fit 16 bits read back as those values. -/
theorem samplesOf_toInt {m : Int} {l : List Adpcm} (h : ∀ a ∈ l, -32768 ≤ a.pred * m ∧ a.pred * m ≤ 32767) :
    (samplesOf m l).map BitVec.toInt = l.map fun a => a.pred * m := by
  rw [samplesOf, List.map_map]
  exact List.map_congr_left fun a ha => ofInt16_toInt (h a ha).1 (h a ha).2

end Sys2Proof.Machine
end

