-- ==== Sys2Proof/Laws/Cursor.lean ====
section
/-! SUPPORT. The laws of the bit cursor (10_state.md R30, 40_cursor.md R131 to R133): its invariant, the stream it
reads, and what a read changes. -/

namespace Sys2Proof.Machine

/-- A word is below 2^k exactly when its bits from k on are 0. -/
theorem toNat_lt_two_pow_iff {w k : Nat} (x : BitVec w) :
    x.toNat < 2 ^ k ↔ ∀ i, k ≤ i → x.getLsbD i = false := by
  constructor
  · intro h i hi
    exact Nat.testBit_lt_two_pow (Nat.lt_of_lt_of_le h (Nat.pow_le_pow_right (by omega) hi))
  · intro h
    exact Nat.lt_pow_two_of_testBit _ fun i hi => h i hi

theorem lowBits_getLsbD {n : Nat} (hn : n ≤ 16) (acc : Word) (i : Nat) :
    (lowBits n acc).getLsbD i = (decide (i < n) && acc.getLsbD i) := by
  have hp : 2 ^ n ≤ 2 ^ 16 := Nat.pow_le_pow_right (by omega) hn
  have h1 : 1 ≤ 2 ^ n := Nat.one_le_two_pow
  have hm : ((1#32 <<< n) - 1#32).toNat = 2 ^ n - 1 := by
    rw [BitVec.toNat_sub, BitVec.toNat_shiftLeft]
    simp only [BitVec.toNat_ofNat, Nat.shiftLeft_eq]
    omega
  have : ((1#32 <<< n) - 1#32).getLsbD i = decide (i < n) := by
    rw [BitVec.getLsbD, hm, Nat.testBit_two_pow_sub_one]
  rw [lowBits, BitVec.getLsbD_and, this, Bool.and_comm]

theorem lowBits_toNat {n : Nat} (hn : n ≤ 16) (acc : Word) :
    (lowBits n acc).toNat = acc.toNat % 2 ^ n := by
  apply Nat.eq_of_testBit_eq
  intro i
  have := lowBits_getLsbD hn acc i
  rw [BitVec.getLsbD] at this
  rw [this, Nat.testBit_mod_two_pow]
  rfl

/-- A returned field is below 2^n (40_cursor.md R129). -/
theorem lowBits_lt {n : Nat} (hn : n ≤ 16) (acc : Word) : (lowBits n acc).toNat < 2 ^ n := by
  rw [lowBits_toNat hn]
  exact Nat.mod_lt _ (Nat.two_pow_pos n)

theorem CursorOnly.refl (s : State) : CursorOnly s s := rfl

theorem CursorOnly.trans {s t u : State} (h : CursorOnly s t) (h' : CursorOnly t u) :
    CursorOnly s u := by
  unfold CursorOnly at *
  rw [h']
  rw [h]

/-- The refill word is 16 stream bits at the byte cursor (40_cursor.md R133). -/
theorem refill_getLsbD (s : State) {k : Nat} (hk : k < 16) :
    (s.byteAt (s.offset.toNat + 1) ++ s.byteAt s.offset.toNat).getLsbD k =
      s.streamBit (8 * s.offset.toNat + k) := by
  rw [BitVec.getLsbD_append, State.streamBit]
  split
  · rw [show (8 * s.offset.toNat + k) / 8 = s.offset.toNat by omega,
      show (8 * s.offset.toNat + k) % 8 = k by omega]
  · rw [show (8 * s.offset.toNat + k) / 8 = s.offset.toNat + 1 by omega,
      show (8 * s.offset.toNat + k) % 8 = k - 8 by omega]

/-- The accumulator after a refill: the unconsumed bits, then the word (40_cursor.md R129). -/
theorem refilled_getLsbD (s : State) (w : BitVec 16) {d i : Nat} (hd : 1 ≤ d) (hd' : d ≤ 16)
    (above : ∀ i, 16 - d ≤ i → s.acc.getLsbD i = false) :
    (s.acc ||| (w.setWidth 32 <<< (16 - d))).getLsbD i =
      if i < 16 - d then s.acc.getLsbD i else w.getLsbD (i - (16 - d)) := by
  rw [BitVec.getLsbD_or, BitVec.getLsbD_shiftLeft, BitVec.getLsbD_setWidth]
  split
  · rename_i h
    simp [h]
  · rename_i h
    rw [above i (by omega)]
    by_cases hi : i < 32
    · simp [hi, h]
      intro hlt
      omega
    · have : w.getLsbD (i - (16 - d)) = false := BitVec.getLsbD_of_ge _ _ (by omega)
      simp [this]

theorem ofNat5_toNat {d : Nat} (h : d ≤ 16) : (BitVec.ofNat 5 d).toNat = d := by
  rw [BitVec.toNat_ofNat]
  exact Nat.mod_eq_of_lt (by omega)

/-- `ReadBits(n)` in stream terms (40_cursor.md R132, R133): it returns the next n stream bits, first bit
lowest, moves on by n bits, and changes the cursor only. -/
theorem readBits_stream {n : Nat} {s : State} {r : Word × State} (hs : s.Synced) (hn : 1 ≤ n)
    (hn' : n ≤ 16) (h : readBits n s = .ok r) :
    r.2.Synced ∧ r.2.bitPos = s.bitPos + n ∧
    (∀ i, r.1.getLsbD i = (decide (i < n) && s.streamBit (s.bitPos + i))) ∧
    CursorOnly s r.2 := by
  obtain ⟨low, high, origin, window, above⟩ := hs
  rcases readBits_cases n s with ⟨hd, he⟩ | ⟨hd, hb, he⟩ | ⟨_, _, he⟩ <;> rw [he] at h
  · obtain rfl := Except.ok.inj h
    have hdfc : (BitVec.ofNat 5 (s.dfc.toNat + n)).toNat = s.dfc.toNat + n := ofNat5_toNat hd
    have hpos : (takeBits n s.acc (s.dfc.toNat + n) s).2.bitPos = s.bitPos + n := by
      simp only [takeBits, State.bitPos, hdfc]
      omega
    refine ⟨⟨by simp only [takeBits, hdfc]; omega, by simp only [takeBits, hdfc]; omega,
      by simp only [takeBits, hdfc]; omega, fun i hi => ?_, fun i hi => ?_⟩, hpos, fun i => ?_, rfl⟩
    · simp only [takeBits, hdfc] at hi
      rw [hpos]
      simp only [takeBits, BitVec.getLsbD_ushiftRight, State.streamBit, State.byteAt]
      rw [window (n + i) (by omega), Nat.add_assoc]
      rfl
    · simp only [takeBits, hdfc] at hi
      simp only [takeBits, BitVec.getLsbD_ushiftRight]
      exact above (n + i) (by omega)
    · simp only [takeBits, lowBits_getLsbD hn']
      by_cases hi : i < n
      · simp [hi, window i (by omega)]
      · simp [hi]
  · obtain rfl := Except.ok.inj h
    have hdfc : (BitVec.ofNat 5 (s.dfc.toNat + n - 16)).toNat = s.dfc.toNat + n - 16 :=
      ofNat5_toNat (by omega)
    have hoff : (s.advance 2).offset.toNat = s.offset.toNat + 2 := State.advance_toNat hb
    have hbits : ∀ i, i < 32 - s.dfc.toNat →
        (s.acc ||| ((s.byteAt (s.offset.toNat + 1) ++ s.byteAt s.offset.toNat).setWidth 32
          <<< (16 - s.dfc.toNat))).getLsbD i = s.streamBit (s.bitPos + i) := by
      intro i hi
      rw [refilled_getLsbD s _ low high above]
      split
      · exact window i (by assumption)
      · rw [refill_getLsbD s (by omega)]
        congr 1
        simp only [State.bitPos]
        omega
    have hpos : (takeBits n
        (s.acc ||| ((s.byteAt (s.offset.toNat + 1) ++ s.byteAt s.offset.toNat).setWidth 32
          <<< (16 - s.dfc.toNat)))
        (s.dfc.toNat + n - 16) (s.advance 2)).2.bitPos = s.bitPos + n := by
      simp only [takeBits, State.bitPos, hdfc, hoff]
      omega
    refine ⟨⟨by simp only [takeBits, hdfc]; omega, by simp only [takeBits, hdfc]; omega,
      by simp only [takeBits, hdfc, hoff]; omega, fun i hi => ?_, fun i hi => ?_⟩, hpos, fun i => ?_,
      rfl⟩
    · simp only [takeBits, hdfc] at hi
      rw [hpos]
      simp only [takeBits, BitVec.getLsbD_ushiftRight]
      rw [hbits (n + i) (by omega), Nat.add_assoc]
      rfl
    · simp only [takeBits, hdfc] at hi
      simp only [takeBits, BitVec.getLsbD_ushiftRight]
      rw [refilled_getLsbD s _ low high above, if_neg (by omega)]
      exact BitVec.getLsbD_of_ge _ _ (by omega)
    · simp only [takeBits, lowBits_getLsbD hn']
      by_cases hi : i < n
      · simp only [hi, decide_true, Bool.true_and]
        exact hbits i (by omega)
      · simp [hi]
  · simp at h

/-- The accumulator fits 32 − `DFC` bits just after a refill (40_cursor.md R131). -/
theorem refilled_lt (s : State) (w : BitVec 16) (hs : s.CursorLegal) :
    (s.acc ||| (w.setWidth 32 <<< (16 - s.dfc.toNat))).toNat < 2 ^ (32 - s.dfc.toNat) := by
  rw [toNat_lt_two_pow_iff]
  intro i hi
  have := hs.low
  have := hs.high
  rw [refilled_getLsbD s w hs.low hs.high ((toNat_lt_two_pow_iff _).1 hs.acc), if_neg (by omega)]
  exact BitVec.getLsbD_of_ge _ _ (by omega)

/-- `ReadBits(n)` keeps the bit cursor invariant (10_state.md R30) and changes the cursor only. -/
theorem readBits_legal {n : Nat} {s : State} {r : Word × State} (hs : s.CursorLegal) (hn : 1 ≤ n)
    (hn' : n ≤ 16) (h : readBits n s = .ok r) :
    r.2.CursorLegal ∧ r.1.toNat < 2 ^ n ∧ CursorOnly s r.2 := by
  have hs' := hs
  obtain ⟨low, high, acc, offset⟩ := hs
  rcases readBits_cases n s with ⟨hd, he⟩ | ⟨hd, hb, he⟩ | ⟨_, _, he⟩ <;> rw [he] at h
  · obtain rfl := Except.ok.inj h
    have hdfc : (BitVec.ofNat 5 (s.dfc.toNat + n)).toNat = s.dfc.toNat + n := ofNat5_toNat hd
    refine ⟨⟨by simp only [takeBits, hdfc]; omega, by simp only [takeBits, hdfc]; omega, ?_,
      by simpa [takeBits] using offset⟩, lowBits_lt hn' _, rfl⟩
    rw [toNat_lt_two_pow_iff]
    intro i hi
    simp only [takeBits, hdfc] at hi
    simp only [takeBits, BitVec.getLsbD_ushiftRight]
    exact (toNat_lt_two_pow_iff _).1 acc _ (by omega)
  · obtain rfl := Except.ok.inj h
    have hdfc : (BitVec.ofNat 5 (s.dfc.toNat + n - 16)).toNat = s.dfc.toNat + n - 16 :=
      ofNat5_toNat (by omega)
    refine ⟨⟨by simp only [takeBits, hdfc]; omega, by simp only [takeBits, hdfc]; omega, ?_, ?_⟩,
      lowBits_lt hn' _, rfl⟩
    · rw [toNat_lt_two_pow_iff]
      intro i hi
      simp only [takeBits, hdfc] at hi
      simp only [takeBits, BitVec.getLsbD_ushiftRight]
      exact (toNat_lt_two_pow_iff _).1 (refilled_lt s _ hs') _ (by omega)
    · have := State.advance_toNat hb
      simp only [takeBits] at this ⊢
      rw [this]
      exact hb
  · simp at h

/-! ## Fields of the stream -/

theorem streamBit_congr {s t : State} (h : t.mem = s.mem) (j : Nat) : t.streamBit j = s.streamBit j := by
  simp only [State.streamBit, State.byteAt, h]

theorem roomFor_congr {s t : State} {n : Nat} (h : s.roomFor n) (h1 : t.offset = s.offset)
    (h2 : t.dfc = s.dfc) (h3 : t.len = s.len) : t.roomFor n := by
  unfold State.roomFor at *
  rw [h1, h2, h3]
  exact h

theorem Synced_congr {s t : State} (h : s.Synced) (h1 : t.offset = s.offset) (h2 : t.dfc = s.dfc)
    (h3 : t.acc = s.acc) (h4 : t.mem = s.mem) : t.Synced := by
  have hp : t.bitPos = s.bitPos := by simp only [State.bitPos, h1, h2]
  refine ⟨by rw [h2]; exact h.low, by rw [h2]; exact h.high, by rw [h1, h2]; exact h.origin,
    fun i hi => ?_, fun i hi => ?_⟩
  · rw [h3, hp, streamBit_congr h4]
    exact h.window i (by rwa [h2] at hi)
  · rw [h3]
    exact h.above i (by rwa [h2] at hi)

theorem field_congr {s t : State} (h : t.mem = s.mem) (pos n : Nat) : t.field pos n = s.field pos n := by
  induction n generalizing pos with
  | zero => rfl
  | succ n ih => simp only [State.field, ih, streamBit_congr h]

theorem CursorOnly.mem {s t : State} (h : CursorOnly s t) : t.mem = s.mem := by rw [h]

theorem State.field_lt (s : State) (pos n : Nat) : s.field pos n < 2 ^ n := by
  induction n generalizing pos with
  | zero => simp [State.field]
  | succ n ih =>
    have := ih (pos + 1)
    have hb : (s.streamBit pos).toNat ≤ 1 := Bool.toNat_le _
    simp only [State.field, Nat.pow_succ]
    omega

theorem State.testBit_field (s : State) (pos n i : Nat) :
    (s.field pos n).testBit i = (decide (i < n) && s.streamBit (pos + i)) := by
  induction n generalizing pos i with
  | zero => simp [State.field]
  | succ n ih =>
    simp only [State.field]
    cases i with
    | zero =>
      rw [Nat.testBit_zero]
      cases s.streamBit pos <;> simp
    | succ i =>
      rw [Nat.testBit_succ]
      have : ((s.streamBit pos).toNat + 2 * s.field (pos + 1) n) / 2 = s.field (pos + 1) n := by
        have hb : (s.streamBit pos).toNat ≤ 1 := Bool.toNat_le _
        omega
      rw [this, ih, show pos + 1 + i = pos + (i + 1) by omega]
      simp

/-- The value of a field whose bits are stream bits. -/
theorem toNat_eq_field {w : Nat} {s : State} {x : BitVec w} {pos n : Nat}
    (h : ∀ i, x.getLsbD i = (decide (i < n) && s.streamBit (pos + i))) : x.toNat = s.field pos n := by
  apply Nat.eq_of_testBit_eq
  intro i
  rw [State.testBit_field, ← h i, BitVec.getLsbD]

/-- `ReadBits(n)` where `MEM` holds the words it needs: it completes, returns the field at the stream
position, and leaves room for the bits that follow (40_cursor.md R129, R132, R133). -/
theorem readBits_field {n m : Nat} {s : State} (hs : s.Synced) (hn : 1 ≤ n) (hn' : n ≤ 16)
    (hr : s.roomFor (n + m)) :
    ∃ r, readBits n s = .ok r ∧ r.1.toNat = s.field s.bitPos n ∧ r.2.Synced ∧
      r.2.bitPos = s.bitPos + n ∧ CursorOnly s r.2 ∧ r.2.roomFor m := by
  have low := hs.low
  have high := hs.high
  unfold State.roomFor at hr
  rcases readBits_cases n s with ⟨hd, he⟩ | ⟨hd, hb, he⟩ | ⟨hd, hb, he⟩
  · obtain ⟨h1, h2, h3, h4⟩ := readBits_stream hs hn hn' he
    refine ⟨_, he, toNat_eq_field h3, h1, h2, h4, ?_⟩
    have hdfc : (BitVec.ofNat 5 (s.dfc.toNat + n)).toNat = s.dfc.toNat + n := ofNat5_toNat hd
    simp only [State.roomFor, takeBits, hdfc]
    rwa [show s.dfc.toNat + n + m - 1 = s.dfc.toNat + (n + m) - 1 by omega]
  · obtain ⟨h1, h2, h3, h4⟩ := readBits_stream hs hn hn' he
    refine ⟨_, he, toNat_eq_field h3, h1, h2, h4, ?_⟩
    have hdfc : (BitVec.ofNat 5 (s.dfc.toNat + n - 16)).toNat = s.dfc.toNat + n - 16 :=
      ofNat5_toNat (by omega)
    have hoff : (s.advance 2).offset.toNat = s.offset.toNat + 2 := State.advance_toNat hb
    simp only [State.roomFor, takeBits, hdfc, hoff, State.advance_len]
    omega
  · exfalso
    omega

/-- The exact number of words a completed `ReadBits` has loaded (40_cursor.md R132). -/
theorem readBits_words {n : Nat} {s : State} {r : Word × State} (hs : s.Synced) (hn : 1 ≤ n)
    (hn' : n ≤ 16) (h : readBits n s = .ok r) :
    8 * r.2.offset.toNat + r.2.dfc.toNat = 8 * s.offset.toNat + s.dfc.toNat + n := by
  have h1 := readBits_stream hs hn hn' h
  have := hs.origin
  have := h1.1.origin
  have := h1.2.1
  simp only [State.bitPos] at this
  omega

theorem resetBits_synced (s : State) : s.resetBits.Synced where
  low := by simp
  high := by simp
  origin := by simp
  window := by
    intro i hi
    simp at hi
  above := by
    intro i _
    simp

/-- The accumulator after a refill, as a number (40_cursor.md R129). -/
theorem refilled_toNat (s : State) (w : BitVec 16) (hs : s.CursorLegal) :
    (s.acc ||| (w.setWidth 32 <<< (16 - s.dfc.toNat))).toNat =
      s.acc.toNat + w.toNat * 2 ^ (16 - s.dfc.toNat) := by
  have := hs.low
  have := hs.high
  have hacc := hs.acc
  have hw := w.isLt
  have hp : 2 ^ (16 - s.dfc.toNat) ≤ 2 ^ 15 := Nat.pow_le_pow_right (by omega) (by omega)
  have hm : w.toNat * 2 ^ (16 - s.dfc.toNat) < 2 ^ 32 := by
    have := Nat.mul_lt_mul_of_lt_of_le hw hp (by omega)
    omega
  rw [BitVec.toNat_or, BitVec.toNat_shiftLeft, BitVec.toNat_setWidth, Nat.shiftLeft_eq,
    Nat.mod_eq_of_lt (a := w.toNat) (by omega), Nat.mod_eq_of_lt hm, Nat.or_comm, Nat.mul_comm,
    ← Nat.two_pow_add_eq_or_of_lt hacc]
  omega

/-- Where a completed `ReadBits` leaves the byte cursor and the deficit (40_cursor.md R132). -/
theorem readBits_offset {n : Nat} {s : State} {r : Word × State} (h1 : 1 ≤ n) (h2 : n ≤ 16) (hs : s.Synced) (h : readBits n s = .ok r) :
    r.2.offset.toNat = s.offset.toNat + 2 * ((s.dfc.toNat + n - 1) / 16) ∧
    r.2.dfc.toNat = s.dfc.toNat + n - 16 * ((s.dfc.toNat + n - 1) / 16) := by
  have := hs.low
  have := hs.high
  rcases readBits_cases n s with ⟨hd, he⟩ | ⟨hd, hb, he⟩ | ⟨_, _, he⟩ <;> rw [he] at h
  · obtain rfl := Except.ok.inj h
    refine ⟨?_, (ofNat5_toNat hd).trans (by omega)⟩
    simp only [takeBits]; omega
  · obtain rfl := Except.ok.inj h
    refine ⟨?_, (ofNat5_toNat (d := s.dfc.toNat + n - 16) (by omega)).trans (by omega)⟩
    have := State.advance_toNat hb
    simp only [takeBits]; omega
  · simp at h

end Sys2Proof.Machine
end

