-- ==== Sys2Proof/Laws/FrameA.lean ====
section
/-! SUPPORT. The laws of the format A decoder: what the line types write, that the layer buffers keep their
canonical form, what a frame record needs and changes, and what it depends on. -/

namespace Sys2Proof.Machine

/-! ## Layers and rows -/

@[simp] theorem LayersA.layer_withLayer_self (l : LayersA) (k : Fin 2) (v : LayerA) :
    (l.withLayer k v).layer k = v := by
  unfold LayersA.withLayer LayersA.layer
  split <;> rfl

theorem LayersA.layer_withLayer_ne {l : LayersA} {k k' : Fin 2} {v : LayerA} (h : k' ≠ k) :
    (l.withLayer k v).layer k' = l.layer k' := by
  unfold LayersA.withLayer LayersA.layer
  by_cases h0 : k = 0
  · have : k' ≠ 0 := h0 ▸ h
    simp [h0, this]
  · have : k' = 0 := by omega
    simp [h0, this]

theorem LayersA.ok_layer {l : LayersA} (h : l.ok) (k : Fin 2) :
    Sparse.wf 0 (l.layer k) = true ∧ Sparse.below 192 (l.layer k) = true := by
  unfold LayersA.layer
  split
  · exact ⟨h.1, h.2.2.1⟩
  · exact ⟨h.2.1, h.2.2.2⟩

theorem LayersA.ok_withLayer {l : LayersA} (h : l.ok) (k : Fin 2) {v : LayerA}
    (hw : Sparse.wf 0 v = true) (hb : Sparse.below 192 v = true) : (l.withLayer k v).ok := by
  unfold LayersA.withLayer
  split
  · exact ⟨hw, h.2.1, hb, h.2.2.2⟩
  · exact ⟨h.1, hw, h.2.2.1, hb⟩

theorem LayersA.ok_empty : LayersA.ok ⟨[], []⟩ := ⟨rfl, rfl, rfl, rfl⟩

/-- Writing a row keeps the canonical form. -/
theorem State.setRowA_ok {s : State} (h : s.lA.ok) (k : Fin 2) {y : Nat} (hy : y < 192) (v : RowA) :
    (s.setRowA k y v).lA.ok :=
  LayersA.ok_withLayer h k (Sparse.wf_set (LayersA.ok_layer h k).1)
    (Sparse.below_set (LayersA.ok_layer h k).2 hy)

/-- The row just written. -/
theorem State.setRowA_row {s : State} (h : s.lA.ok) (k : Fin 2) (y : Nat) (v : RowA) :
    rowA ((s.setRowA k y v).lA.layer k) y = v := by
  simp only [State.setRowA_lA, LayersA.layer_withLayer_self, rowA]
  exact Sparse.get_set_self (LayersA.ok_layer h k).1

/-- Every other row is as before. -/
theorem State.setRowA_other {s : State} {k k' : Fin 2} {y y' : Nat} {v : RowA}
    (h : k' ≠ k ∨ y' ≠ y) : rowA ((s.setRowA k y v).lA.layer k') y' = rowA (s.lA.layer k') y' := by
  simp only [State.setRowA_lA]
  by_cases hk : k' = k
  · subst hk
    simp only [LayersA.layer_withLayer_self, rowA]
    exact Sparse.get_set_ne (by tauto)
  · rw [LayersA.layer_withLayer_ne hk]

/-- What `WriteChunk` does to a row (42_frame_a.md R203). -/
theorem putChunk_getLsbD (row : RowA) (c : Nat) (b : Byte) {j : Nat} (hj : j < 256) :
    (putChunk row c b).getLsbD j = if j / 8 = c then b.getLsbD (j % 8) else row.getLsbD j := by
  have hFF : ∀ i, (0xFF#256).getLsbD i = decide (i < 8) := by
    intro i
    rw [show (0xFF#256) = (BitVec.allOnes 8).setWidth 256 by decide, BitVec.getLsbD_setWidth,
      BitVec.getLsbD_allOnes]
    by_cases h : i < 8
    · simp [h]; omega
    · simp [h]
  unfold putChunk
  rw [BitVec.getLsbD_or, BitVec.getLsbD_and, BitVec.getLsbD_not, BitVec.getLsbD_shiftLeft,
    BitVec.getLsbD_shiftLeft, BitVec.getLsbD_setWidth, hFF]
  split
  · rename_i h
    have h1 : ¬ j < 8 * c := by omega
    have h2 : j - 8 * c < 8 := by omega
    have h3 : j - 8 * c = j % 8 := by omega
    have h4 : j % 8 < 8 := by omega
    have h5 : j % 8 < 256 := by omega
    simp [hj, h1, h3, h4, h5]
  · rename_i h
    by_cases h1 : j < 8 * c
    · simp [hj, h1]
    · have h2 : ¬ j - 8 * c < 8 := by omega
      have h3 : b.getLsbD (j - 8 * c) = false := BitVec.getLsbD_of_ge _ _ (by omega)
      simp [hj, h1, h2, h3]

/-! ## What a record may change -/

/-- The byte cursor, `L_A` and the loop state may change, nothing else. -/
def StreamA (s t : State) : Prop :=
  t = { s with offset := t.offset, lA := t.lA, inner := t.inner }

theorem StreamA.refl (s : State) : StreamA s s := rfl

theorem StreamA.trans {s t u : State} (h : StreamA s t) (h' : StreamA t u) : StreamA s u := by
  unfold StreamA at *
  rw [h']
  rw [h]

/-- `L_A` is in canonical form and the byte cursor is within the buffer. -/
def GoodA (s : State) : Prop := s.lA.ok ∧ s.offset.toNat ≤ s.len.toNat

/-- What every part of a frame decode keeps. -/
def StepsA (s t : State) : Prop := StreamA s t ∧ (GoodA s → GoodA t)

theorem StepsA.refl (s : State) : StepsA s s := ⟨rfl, id⟩

theorem StepsA.trans {s t u : State} (h : StepsA s t) (h' : StepsA t u) : StepsA s u :=
  ⟨h.1.trans h'.1, fun hg => h'.2 (h.2 hg)⟩

theorem forRange_stepsA {f : Nat → State → Run State} {i n : Nat} {s t : State}
    (hf : ∀ j s t, f j s = .ok t → StepsA s t) (h : forRange f i n s = .ok t) : StepsA s t :=
  forRange_induct (P := fun _ u => StepsA s u) (StepsA.refl s)
    (fun j _ _ _ _ hu hv => hu.trans (hf j _ _ hv)) h

theorem advance_stepsA {s : State} {n : Nat} (h : s.offset.toNat + n ≤ s.len.toNat) :
    StepsA s (s.advance n) :=
  ⟨rfl, fun hg => ⟨hg.1, by rw [State.advance_toNat h]; exact h⟩⟩

theorem setRowA_stepsA (s : State) (k : Fin 2) {y : Nat} (hy : y < 192) (v : RowA) :
    StepsA s (s.setRowA k y v) :=
  ⟨rfl, fun hg => ⟨State.setRowA_ok hg.1 k hy v, hg.2⟩⟩

theorem readChunk_stepsA {c : Nat} {s t : State} (h : readChunk c s = .ok t) : StepsA s t := by
  obtain ⟨r, hr, ht⟩ := Run.bind_eq_ok.1 h
  obtain ⟨hb, rfl⟩ := readU8_eq_ok.1 hr
  obtain rfl := Except.ok.inj ht
  exact (advance_stepsA hb).trans (setRowA_stepsA _ _ (Fin.isLt _) _)

theorem maskedChunk_stepsA {m : Word} {c : Nat} {s t : State} (h : maskedChunk m c s = .ok t) :
    StepsA s t := by
  rcases runIf_eq_ok.1 h with ⟨_, h⟩ | ⟨_, rfl⟩
  · exact readChunk_stepsA h
  · exact StepsA.refl _

theorem lineSparseBody_stepsA {s t : State} (h : lineSparseBody s = .ok t) : StepsA s t := by
  obtain ⟨r, hr, ht⟩ := Run.bind_eq_ok.1 h
  obtain ⟨hb, rfl⟩ := readU32BE_eq_ok.1 hr
  exact (advance_stepsA hb).trans (forRange_stepsA (fun _ _ _ => maskedChunk_stepsA) ht)

theorem lineInvSparseBody_stepsA {s t : State} (h : lineInvSparseBody s = .ok t) : StepsA s t := by
  obtain ⟨r, hr, ht⟩ := Run.bind_eq_ok.1 h
  obtain ⟨hb, rfl⟩ := readU32BE_eq_ok.1 hr
  exact ((advance_stepsA hb).trans (setRowA_stepsA _ _ (Fin.isLt _) _)).trans
    (forRange_stepsA (fun _ _ _ => maskedChunk_stepsA) ht)

theorem lineRawBody_stepsA {s t : State} (h : lineRawBody s = .ok t) : StepsA s t :=
  forRange_stepsA (fun _ _ _ => readChunk_stepsA) h

/-- One lemma for the four line types. -/
theorem lineBody_stepsA {c : LineCode} {s t : State} (h : lineBody c s = .ok t) : StepsA s t := by
  unfold lineBody at h
  split at h
  · obtain rfl := Except.ok.inj h
    exact StepsA.refl _
  · split at h
    · exact lineSparseBody_stepsA h
    · split at h
      · exact lineInvSparseBody_stepsA h
      · exact lineRawBody_stepsA h

theorem atLine_stepsA (s : State) (k : Fin 2) (y : Nat) : StepsA s (s.atLine k y) := ⟨rfl, id⟩

theorem decodeLines_stepsA {k : Fin 2} {s t : State} (h : decodeLines k s = .ok t) : StepsA s t :=
  forRange_stepsA (fun _ s _ hy => (atLine_stepsA s k _).trans (lineBody_stepsA hy)) h

theorem unpackTypes_stepsA {k : Fin 2} {s t : State} (h : unpackTypes k s = .ok t) : StepsA s t := by
  refine forRange_stepsA (fun j s t hj => ?_) h
  obtain ⟨r, hr, ht⟩ := Run.bind_eq_ok.1 hj
  obtain ⟨hb, rfl⟩ := readU8_eq_ok.1 hr
  obtain rfl := Except.ok.inj ht
  exact StepsA.trans (advance_stepsA hb) ⟨rfl, id⟩

theorem decodeLayersA_stepsA {s t : State} (h : decodeLayersA s = .ok t) : StepsA s t := by
  unfold decodeLayersA at h
  split at h
  all_goals
    obtain ⟨a, ha, h⟩ := Run.bind_eq_ok.1 h
    obtain ⟨b, hb, h⟩ := Run.bind_eq_ok.1 h
    obtain ⟨c, hc, h⟩ := Run.bind_eq_ok.1 h
  · exact ((unpackTypes_stepsA ha).trans (unpackTypes_stepsA hb)).trans
      ((decodeLines_stepsA hc).trans (decodeLines_stepsA h))
  · exact ((unpackTypes_stepsA ha).trans (decodeLines_stepsA hb)).trans
      ((unpackTypes_stepsA hc).trans (decodeLines_stepsA h))

theorem readI8_eq_ok {s : State} {r : Int × State} :
    readI8 s = .ok r ↔
      s.offset.toNat + 1 ≤ s.len.toNat ∧ r = ((s.byteAt s.offset.toNat).toInt, s.advance 1) := by
  unfold readI8
  rw [Run.bind_eq_ok]
  constructor
  · rintro ⟨a, ha, hr⟩
    obtain ⟨hb, rfl⟩ := readU8_eq_ok.1 ha
    exact ⟨hb, (Except.ok.inj hr).symm⟩
  · rintro ⟨hb, rfl⟩
    exact ⟨_, readU8_ok hb, rfl⟩

theorem readTranslation_stepsA {p : Bool} {s : State} {r : (Int × Int) × State}
    (h : readTranslation p s = .ok r) : StepsA s r.2 := by
  unfold readTranslation at h
  split at h
  · obtain ⟨x, hx, h⟩ := Run.bind_eq_ok.1 h
    obtain ⟨y, hy, h⟩ := Run.bind_eq_ok.1 h
    obtain ⟨hb, rfl⟩ := readI8_eq_ok.1 hx
    obtain ⟨hb', rfl⟩ := readI8_eq_ok.1 hy
    obtain rfl := Except.ok.inj h
    exact (advance_stepsA hb).trans (advance_stepsA hb')
  · obtain rfl := Except.ok.inj h
    exact StepsA.refl _

/-- The XOR keeps the canonical form. -/
theorem xorDelta_ok (tx ty : Int) (s : State) : (xorDelta tx ty s).lA.ok :=
  ⟨Sparse.wf_tabulate, Sparse.wf_tabulate, Sparse.below_tabulate (by omega),
    Sparse.below_tabulate (by omega)⟩

/-- A frame record changes the byte cursor, `L_A`, `P_A` and the loop state only, leaves `P_A` = `L_A`, the
buffers canonical, the byte cursor within the buffer and no loop running (42_frame_a.md R190, R206). -/
theorem decodeBodyA_spec {f : Nat} {s t : State} (h : decodeBodyA f s = .ok t) :
    t = { s with offset := t.offset, lA := t.lA, pA := t.lA, inner := Inner.idle } ∧
    t.lA.ok ∧ t.offset.toNat ≤ t.len.toNat := by
  unfold decodeBodyA at h
  split at h
  · simp at h
  · rename_i hf
    obtain ⟨hd, hhd, h⟩ := Run.bind_eq_ok.1 h
    obtain ⟨tr, htr, h⟩ := Run.bind_eq_ok.1 h
    obtain ⟨r, hr, h⟩ := Run.bind_eq_ok.1 h
    obtain rfl := Except.ok.inj h
    obtain ⟨hb, rfl⟩ := readU8_eq_ok.1 hhd
    have hsteps : StepsA (s.openFrameA f) r :=
      ((advance_stepsA hb).trans (readTranslation_stepsA htr)).trans (decodeLayersA_stepsA hr)
    have hlen := s.len.isLt
    have hgood : GoodA r := hsteps.2 ⟨LayersA.ok_empty, by
      simp only [State.openFrameA_offset, State.openFrameA_len, BitVec.toNat_ofNat]
      omega⟩
    have hkeep : r = { s with offset := r.offset, lA := r.lA, inner := r.inner } := hsteps.1
    split
    · refine ⟨?_, hgood.1, hgood.2⟩
      rw [State.closeFrameA]
      rw [hkeep]
    · refine ⟨?_, xorDelta_ok _ _ _, hgood.2⟩
      rw [State.closeFrameA, xorDelta]
      rw [hkeep]

/-! ## What the line types write -/

theorem LineWritten.refl {s : State} (h : s.lA.ok) :
    LineWritten s s 0 fun x =>
      (rowA (s.lA.layer s.inner.layerA) s.inner.lineA.val).getLsbD x :=
  ⟨rfl, rfl, h, fun _ _ => rfl, fun _ _ _ => rfl⟩

theorem chunksBefore_succ (p : Nat → Bool) (c : Nat) :
    chunksBefore p (c + 1) = chunksBefore p c + (p c).toNat := by
  simp only [chunksBefore, List.range_succ, List.filter_append, List.length_append]
  cases h : p c <;> simp [h]

theorem chunksBefore_mono (p : Nat → Bool) {c d : Nat} (h : c ≤ d) :
    chunksBefore p c ≤ chunksBefore p d := by
  induction d with
  | zero => rw [Nat.le_zero.1 h]
  | succ d ih =>
    rw [chunksBefore_succ]
    by_cases hc : c ≤ d
    · exact Nat.le_trans (ih hc) (by omega)
    · rw [show c = d + 1 by omega, chunksBefore_succ]

theorem chunksBefore_le (p : Nat → Bool) (c : Nat) : chunksBefore p c ≤ c := by
  have := List.length_filter_le p (List.range c)
  rwa [List.length_range] at this

theorem chunksBefore_all (c : Nat) : chunksBefore (fun _ => true) c = c := by
  simp [chunksBefore]

/-- One chunk of a line (42_frame_a.md R203). -/
theorem readChunk_written {s t : State} {n c : Nat} {bit : Nat → Bool} (h : LineWritten s t n bit)
    (hb : t.offset.toNat + 1 ≤ t.len.toNat) :
    ∃ u, readChunk c t = .ok u ∧ LineWritten s u (n + 1) fun x =>
      if x / 8 = c then (s.byteAt (s.offset.toNat + n)).getLsbD (x % 8) else bit x := by
  refine ⟨writeChunk c (t.byteAt t.offset.toNat) (t.advance 1), by simp [readChunk, readU8_ok hb], ?_⟩
  have hi : t.inner = s.inner := by rw [h.only]
  have hbyte : t.byteAt t.offset.toNat = s.byteAt (s.offset.toNat + n) := by
    rw [h.offset]
    simp only [State.byteAt]
    rw [h.only]
  have hadv := State.advance_toNat hb
  constructor
  · simp only [writeChunk, State.setRowA]
    rw [h.only]
    rfl
  · simp only [writeChunk, State.setRowA_offset, hadv, h.offset]
    omega
  · exact State.setRowA_ok (s := t.advance 1) h.ok _ (Fin.isLt _) _
  · intro x hx
    simp only [writeChunk, State.advance_inner, hi]
    rw [State.setRowA_row (s := t.advance 1) h.ok, putChunk_getLsbD _ _ _ hx, hbyte]
    split
    · rfl
    · exact h.row x hx
  · intro k y hky
    simp only [writeChunk, State.advance_inner, hi]
    rw [State.setRowA_other (s := t.advance 1) hky]
    exact h.other k y hky

/-- The chunk loop of a line: the present chunks take the bytes that follow, in order, the others stay
(42_frame_a.md R200 to R202). -/
theorem chunkLoop_written (p : Nat → Bool) {s t : State} {n : Nat} {bit : Nat → Bool}
    (h : LineWritten s t n bit) (hb : t.offset.toNat + chunksBefore p 32 ≤ t.len.toNat) :
    ∃ u, forRange (fun c => runIf (p c) (readChunk c)) 0 32 t = .ok u ∧
      LineWritten s u (n + chunksBefore p 32) fun x =>
        if p (x / 8) then
          (s.byteAt (s.offset.toNat + n + chunksBefore p (x / 8))).getLsbD (x % 8)
        else bit x := by
  have hlen : t.len = s.len := by rw [h.only]
  obtain ⟨u, hu, hP⟩ := forRange_completes (i := 0) (n := 32)
    (f := fun c => runIf (p c) (readChunk c))
    (P := fun i u => LineWritten s u (n + chunksBefore p i) fun x =>
      if x / 8 < i ∧ p (x / 8) = true then
        (s.byteAt (s.offset.toNat + n + chunksBefore p (x / 8))).getLsbD (x % 8)
      else bit x) (s := t) (by simpa [chunksBefore] using h) (by
    intro j v _ hj hv
    have hvlen : v.len = s.len := by rw [hv.only]
    rw [chunksBefore_succ]
    cases hpj : p j
    · refine ⟨v, rfl, ?_⟩
      simp only [Bool.toNat_false, Nat.add_zero]
      refine ⟨hv.only, hv.offset, hv.ok, fun x hx => ?_, hv.other⟩
      rw [hv.row x hx]
      by_cases hxj : x / 8 = j
      · simp [hxj, hpj]
      · have : (x / 8 < j) ↔ (x / 8 < j + 1) := by omega
        simp only [this]
    · have hroom : v.offset.toNat + 1 ≤ v.len.toNat := by
        have h1 := chunksBefore_mono p (show j + 1 ≤ 32 by omega)
        rw [chunksBefore_succ, hpj] at h1
        have h2 := hv.offset
        have h3 := h.offset
        rw [hvlen, ← hlen]
        simp only [Bool.toNat_true] at h1
        omega
      obtain ⟨w, hw, hw'⟩ := readChunk_written (c := j) hv hroom
      refine ⟨w, by simp [runIf, hw], ?_⟩
      refine ⟨hw'.only, by rw [hw'.offset]; simp; omega, hw'.ok, fun x hx => ?_, hw'.other⟩
      rw [hw'.row x hx]
      by_cases hxj : x / 8 = j
      · simp [hxj, hpj, Nat.add_assoc]
      · have : (x / 8 < j) ↔ (x / 8 < j + 1) := by omega
        simp only [hxj, if_false, this])
  refine ⟨u, hu, ?_⟩
  simp only [Nat.zero_add] at hP
  refine ⟨hP.only, hP.offset, hP.ok, fun x hx => ?_, hP.other⟩
  rw [hP.row x hx]
  simp [show x / 8 < 32 by omega]

theorem LineWritten.advance {s t : State} {n m : Nat} {bit : Nat → Bool} (h : LineWritten s t n bit)
    (hb : t.offset.toNat + m ≤ t.len.toNat) : LineWritten s (t.advance m) (n + m) bit := by
  refine ⟨?_, by rw [State.advance_toNat hb, h.offset]; omega, h.ok, h.row, h.other⟩
  simp only [State.advance]
  rw [h.only]

theorem LineWritten.fill {s t : State} {n : Nat} {bit : Nat → Bool} (h : LineWritten s t n bit)
    (v : RowA) :
    LineWritten s (t.setRowA t.inner.layerA t.inner.lineA.val v) n v.getLsbD := by
  have hi : t.inner = s.inner := by rw [h.only]
  refine ⟨?_, h.offset, State.setRowA_ok h.ok _ (Fin.isLt _) _, fun x _ => ?_, fun k y hky => ?_⟩
  · simp only [State.setRowA]
    rw [h.only]
  · rw [hi, State.setRowA_row h.ok]
  · rw [hi, State.setRowA_other hky]
    exact h.other k y hky

/-- `LineSparse` (42_frame_a.md R200): a present chunk takes its byte, the others stay. -/
theorem lineSparseBody_written {s : State} (hok : s.lA.ok)
    (hb : s.offset.toNat + 4 + chunksBefore (chunkPresent (s.wordBE s.offset.toNat)) 32 ≤
      s.len.toNat) :
    ∃ t, lineSparseBody s = .ok t ∧
      LineWritten s t (4 + chunksBefore (chunkPresent (s.wordBE s.offset.toNat)) 32) fun x =>
        if chunkPresent (s.wordBE s.offset.toNat) (x / 8) then
          (s.byteAt (s.offset.toNat + 4 +
            chunksBefore (chunkPresent (s.wordBE s.offset.toNat)) (x / 8))).getLsbD (x % 8)
        else (rowA (s.lA.layer s.inner.layerA) s.inner.lineA.val).getLsbD x := by
  have h4 : s.offset.toNat + 4 ≤ s.len.toNat := by omega
  have h1 := (LineWritten.refl hok).advance h4
  obtain ⟨t, ht, hw⟩ := chunkLoop_written (chunkPresent (s.wordBE s.offset.toNat)) h1
    (by rw [State.advance_toNat h4]; exact hb)
  refine ⟨t, ?_, by simpa using hw⟩
  simp only [lineSparseBody, readU32BE_ok h4, Run.bind_ok]
  exact ht

/-- `LineInverted` (42_frame_a.md R201): a present chunk takes its byte, the others are all 1. -/
theorem lineInvSparseBody_written {s : State} (hok : s.lA.ok)
    (hb : s.offset.toNat + 4 + chunksBefore (chunkPresent (s.wordBE s.offset.toNat)) 32 ≤
      s.len.toNat) :
    ∃ t, lineInvSparseBody s = .ok t ∧
      LineWritten s t (4 + chunksBefore (chunkPresent (s.wordBE s.offset.toNat)) 32) fun x =>
        if chunkPresent (s.wordBE s.offset.toNat) (x / 8) then
          (s.byteAt (s.offset.toNat + 4 +
            chunksBefore (chunkPresent (s.wordBE s.offset.toNat)) (x / 8))).getLsbD (x % 8)
        else true := by
  have h4 : s.offset.toNat + 4 ≤ s.len.toNat := by omega
  have h1 := ((LineWritten.refl hok).advance h4).fill (BitVec.allOnes 256)
  obtain ⟨t, ht, hw⟩ := chunkLoop_written (chunkPresent (s.wordBE s.offset.toNat)) h1
    (by rw [State.setRowA_offset, State.setRowA_len, State.advance_toNat h4]; exact hb)
  refine ⟨t, ?_, ?_⟩
  · simp only [lineInvSparseBody, readU32BE_ok h4, Run.bind_ok]
    exact ht
  · rw [Nat.zero_add] at hw
    refine ⟨hw.only, hw.offset, hw.ok, fun x hx => ?_, hw.other⟩
    rw [hw.row x hx, BitVec.getLsbD_allOnes, decide_eq_true hx]

/-- `LineRaw` (42_frame_a.md R202): 32 bytes, every chunk takes its own. -/
theorem lineRawBody_written {s : State} (hok : s.lA.ok) (hb : s.offset.toNat + 32 ≤ s.len.toNat) :
    ∃ t, lineRawBody s = .ok t ∧
      LineWritten s t 32 fun x => (s.byteAt (s.offset.toNat + x / 8)).getLsbD (x % 8) := by
  obtain ⟨t, ht, hw⟩ := chunkLoop_written (fun _ => true) (LineWritten.refl hok)
    (by rw [chunksBefore_all]; exact hb)
  refine ⟨t, ht, ?_⟩
  simpa [chunksBefore_all] using hw

/-! ## How many bytes a part needs -/

/-- Where n bytes stand at the byte cursor the part completes, and moves the cursor by at most n. -/
def Within (n : Nat) (f : State → Run State) : Prop :=
  ∀ s, s.offset.toNat + n ≤ s.len.toNat →
    ∃ t, f s = .ok t ∧ t.len = s.len ∧ t.offset.toNat ≤ s.offset.toNat + n

theorem Within.bind {m n : Nat} {f g : State → Run State} (hf : Within m f) (hg : Within n g) :
    Within (m + n) fun s => f s >>= g := by
  intro s hs
  obtain ⟨t, ht, hl, ho⟩ := hf s (by omega)
  obtain ⟨u, hu, hl', ho'⟩ := hg t (by rw [hl]; omega)
  exact ⟨u, by simp [ht, hu], by rw [hl', hl], by omega⟩

theorem Within.mono {m n : Nat} {f : State → Run State} (hf : Within m f) (h : m ≤ n) : Within n f := by
  intro s hs
  obtain ⟨t, ht, hl, ho⟩ := hf s (by omega)
  exact ⟨t, ht, hl, by omega⟩

theorem Within.loop {n : Nat} {f : Nat → State → Run State} (hf : ∀ j, Within n (f j)) (i m : Nat) :
    Within (m * n) (forRange f i m) := by
  induction m generalizing i with
  | zero => exact fun s _ => ⟨s, rfl, rfl, by omega⟩
  | succ m ih => exact ((hf i).bind (ih (i + 1))).mono (by rw [Nat.succ_mul]; omega)

theorem readChunk_within (c : Nat) : Within 1 (readChunk c) := by
  intro s hs
  refine ⟨writeChunk c (s.byteAt s.offset.toNat) (s.advance 1), by simp [readChunk, readU8_ok hs], rfl, ?_⟩
  simp only [writeChunk, State.setRowA_offset]
  rw [State.advance_toNat hs]

theorem maskedChunk_within (m : Word) (c : Nat) : Within 1 (maskedChunk m c) := by
  intro s hs
  unfold maskedChunk
  cases m.getLsbD (31 - c)
  · exact ⟨s, rfl, rfl, by omega⟩
  · exact readChunk_within c s hs

theorem lineBody_within (c : LineCode) : Within 36 (lineBody c) := by
  intro s hs
  unfold lineBody
  split
  · exact ⟨s, rfl, rfl, by omega⟩
  · have h4 : s.offset.toNat + 4 ≤ s.len.toNat := by omega
    have hadv := State.advance_toNat h4
    split
    · obtain ⟨t, ht, hl, ho⟩ := Within.loop (maskedChunk_within (s.wordBE s.offset.toNat)) 0 32
        (s.advance 4) (by rw [hadv, State.advance_len]; omega)
      exact ⟨t, by simp only [lineSparseBody, readU32BE_ok h4, Run.bind_ok]; exact ht, hl, by omega⟩
    · split
      · obtain ⟨t, ht, hl, ho⟩ := Within.loop (maskedChunk_within (s.wordBE s.offset.toNat)) 0 32
          ((s.advance 4).setRowA s.inner.layerA s.inner.lineA.val (BitVec.allOnes 256))
          (by rw [State.setRowA_offset, State.setRowA_len, hadv, State.advance_len]; omega)
        rw [State.setRowA_offset] at ho
        exact ⟨t, by simp only [lineInvSparseBody, readU32BE_ok h4, Run.bind_ok]; exact ht, hl, by omega⟩
      · exact ((Within.loop readChunk_within 0 32).mono (by omega)) s hs

theorem decodeLines_within (k : Fin 2) : Within 6912 (decodeLines k) :=
  (Within.loop (n := 36) (fun y s hs => lineBody_within _ (s.atLine k y) hs) 0 192).mono (by omega)

theorem unpackByte_ok {k : Fin 2} {j : Nat} {s : State} (hs : s.offset.toNat + 1 ≤ s.len.toNat) :
    unpackByte k j s =
      .ok (((((s.advance 1).setLineType k (4 * j) (lineCodeAt (s.byteAt s.offset.toNat) 0)).setLineType
        k (4 * j + 1) (lineCodeAt (s.byteAt s.offset.toNat) 1)).setLineType
        k (4 * j + 2) (lineCodeAt (s.byteAt s.offset.toNat) 2)).setLineType
        k (4 * j + 3) (lineCodeAt (s.byteAt s.offset.toNat) 3)) := by
  simp [unpackByte, readU8_ok hs]

theorem unpackByte_within (k : Fin 2) (j : Nat) : Within 1 (unpackByte k j) := by
  intro s hs
  refine ⟨_, unpackByte_ok hs, rfl, ?_⟩
  simp only [State.setLineType_offset]
  rw [State.advance_toNat hs]

theorem unpackTypes_within (k : Fin 2) : Within 48 (unpackTypes k) :=
  (Within.loop (n := 1) (unpackByte_within k) 0 48).mono (by omega)

/-- The parts of a frame record in the order of each parameter value (42_frame_a.md R196). -/
theorem decodeLayersA_tablesFirst {s : State} (h : s.cfg.lineTableOrder = .tablesFirst) :
    decodeLayersA s = (unpackTypes 0 s >>= unpackTypes 1 >>= decodeLines 0 >>= decodeLines 1) := by
  unfold decodeLayersA
  rw [h]
  simp only [bind_assoc]

theorem decodeLayersA_interleaved {s : State} (h : s.cfg.lineTableOrder = .interleaved) :
    decodeLayersA s = (unpackTypes 0 s >>= decodeLines 0 >>= unpackTypes 1 >>= decodeLines 1) := by
  unfold decodeLayersA
  rw [h]
  simp only [bind_assoc]

theorem decodeLayersA_within : Within 13920 decodeLayersA := by
  intro s hs
  unfold decodeLayersA
  cases s.cfg.lineTableOrder
  · exact (((unpackTypes_within 0).bind ((unpackTypes_within 1).bind
      ((decodeLines_within 0).bind (decodeLines_within 1)))).mono (by omega)) s hs
  · exact (((unpackTypes_within 0).bind ((decodeLines_within 0).bind
      ((unpackTypes_within 1).bind (decodeLines_within 1)))).mono (by omega)) s hs

theorem readTranslation_within {p : Bool} {s : State} (hs : s.offset.toNat + 2 ≤ s.len.toNat) :
    ∃ r, readTranslation p s = .ok r ∧ r.2.len = s.len ∧ r.2.offset.toNat ≤ s.offset.toNat + 2 := by
  cases p
  · exact ⟨_, rfl, rfl, by simp⟩
  · have h1 : s.offset.toNat + 1 ≤ s.len.toNat := by omega
    have a1 := State.advance_toNat h1
    have h2 : (s.advance 1).offset.toNat + 1 ≤ (s.advance 1).len.toNat := by
      rw [a1, State.advance_len]; omega
    have a2 := State.advance_toNat h2
    refine ⟨(((s.byteAt s.offset.toNat).toInt,
      ((s.advance 1).byteAt (s.advance 1).offset.toNat).toInt), (s.advance 1).advance 1), ?_, rfl, ?_⟩
    · simp only [readTranslation, if_true]
      rw [readI8_eq_ok.2 ⟨h1, rfl⟩, Run.bind_ok, readI8_eq_ok.2 ⟨h2, rfl⟩, Run.bind_ok]
    · simp only at a2 ⊢
      rw [a2, a1]

/-- A frame record fits in 13923 bytes: 1 + 2 + 2·48 + 2·192·36 (30_encoding.md R101, R105). -/
theorem decodeBodyA_completes {f : Nat} {s : State} (h : f + 13923 ≤ s.len.toNat) :
    ∃ t, decodeBodyA f s = .ok t := by
  have hl := s.len.isLt
  have hoff : (s.openFrameA f).offset.toNat = f := by
    simp only [State.openFrameA_offset, BitVec.toNat_ofNat]
    omega
  have h1 : (s.openFrameA f).offset.toNat + 1 ≤ (s.openFrameA f).len.toNat := by
    rw [hoff, State.openFrameA_len]; omega
  have a1 := State.advance_toNat h1
  obtain ⟨r, hr, hrl, hro⟩ := readTranslation_within
    (p := headerTranslated ((s.openFrameA f).byteAt (s.openFrameA f).offset.toNat))
    (s := (s.openFrameA f).advance 1) (by rw [a1, hoff, State.advance_len, State.openFrameA_len]; omega)
  obtain ⟨u, hu, -, -⟩ := decodeLayersA_within r.2
    (by rw [hrl, State.advance_len, State.openFrameA_len]; omega)
  have hf : ¬ f + 1 > s.len.toNat := by omega
  simp only [decodeBodyA, hf, if_false, readU8_ok h1, Run.bind_ok, hr, hu]
  exact ⟨_, rfl⟩

/-! ## A line leaves the loop's variables alone -/

theorem readChunk_inner {c : Nat} {s t : State} (h : readChunk c s = .ok t) : t.inner = s.inner := by
  obtain ⟨r, hr, ht⟩ := Run.bind_eq_ok.1 h
  obtain ⟨hb, rfl⟩ := readU8_eq_ok.1 hr
  obtain rfl := Except.ok.inj ht
  rfl

theorem chunks_inner {m : Word} {s t : State} (h : forRange (maskedChunk m) 0 32 s = .ok t) :
    t.inner = s.inner :=
  forRange_induct (P := fun _ u => u.inner = s.inner) rfl (fun _ u v _ _ hu hv => by
    rcases runIf_eq_ok.1 hv with ⟨_, hv⟩ | ⟨_, rfl⟩
    · rw [readChunk_inner hv, hu]
    · exact hu) h

theorem lineBody_inner {c : LineCode} {s t : State} (h : lineBody c s = .ok t) : t.inner = s.inner := by
  unfold lineBody at h
  split at h
  · obtain rfl := Except.ok.inj h
    rfl
  · split at h
    · obtain ⟨r, hr, ht⟩ := Run.bind_eq_ok.1 h
      obtain ⟨hb, rfl⟩ := readU32BE_eq_ok.1 hr
      rw [chunks_inner ht]
      rfl
    · split at h
      · obtain ⟨r, hr, ht⟩ := Run.bind_eq_ok.1 h
        obtain ⟨hb, rfl⟩ := readU32BE_eq_ok.1 hr
        rw [chunks_inner ht]
        rfl
      · exact forRange_induct (P := fun _ u => u.inner = s.inner) rfl
          (fun _ u v _ _ hu hv => by rw [readChunk_inner hv, hu]) h

end Sys2Proof.Machine
end

