-- ==== Sys2Proof/Laws/FrameASeq.lean ====
section
/-! SUPPORT. The laws of format A frames: what a frame depends on (42_frame_a.md R204, R208), what the sequencer
changes (R221 to R223), and that the order of decoding does not matter (R225). -/

namespace Sys2Proof.Machine

/-! ## Two runs over the same input -/

/-- Two runs of a reading part agree: the same value and related states, or the same fault. -/
def Run.AgreeVal {α : Type} (R : State → State → Prop) (a b : Run (α × State)) : Prop :=
  match a, b with
  | .ok x, .ok y => x.1 = y.1 ∧ R x.2 y.2
  | .error e, .error e' => e = e'
  | _, _ => False

theorem Run.AgreeVal.bind {α : Type} {R Q : State → State → Prop} {a b : Run (α × State)}
    {f g : α × State → Run State} (h : Run.AgreeVal R a b)
    (hfg : ∀ v s t, R s t → Run.Agree Q (f (v, s)) (g (v, t))) : Run.Agree Q (a >>= f) (b >>= g) := by
  cases a with
  | error e => cases b with
    | error e' => exact h
    | ok y => exact h.elim
  | ok x => cases b with
    | error e' => exact h.elim
    | ok y =>
      obtain ⟨x, s⟩ := x
      obtain ⟨y, t⟩ := y
      obtain ⟨h1, h2⟩ := h
      simp only at h1
      subst h1
      exact hfg x s t h2

/-- The block's inputs are the same. -/
def SameInput (s t : State) : Prop := t.mem = s.mem ∧ t.len = s.len ∧ t.cfg = s.cfg

/-- Everything a format A line decode reads is the same. -/
def SameA (s t : State) : Prop :=
  SameInput s t ∧ t.offset = s.offset ∧ t.lA = s.lA ∧ t.inner = s.inner

theorem memRead_same {s t : State} (h : SameInput s t) (a n : Nat) : memRead a n t = memRead a n s := by
  obtain ⟨hm, hl, -⟩ := h
  simp only [memRead, State.byteAt, hm, hl]

theorem byteAt_same {s t : State} (h : SameInput s t) (a : Nat) : t.byteAt a = s.byteAt a := by
  simp only [State.byteAt, h.1]

theorem readU8_same {s t : State} (h : SameA s t) : Run.AgreeVal SameA (readU8 s) (readU8 t) := by
  obtain ⟨hi, ho, hl, hn⟩ := h
  unfold readU8
  rw [ho, memRead_same hi]
  cases memRead s.offset.toNat 1 s with
  | error e => rfl
  | ok b => exact ⟨rfl, hi, by simp only [State.advance_offset, ho], hl, hn⟩

theorem readU32BE_same {s t : State} (h : SameA s t) :
    Run.AgreeVal SameA (readU32BE s) (readU32BE t) := by
  obtain ⟨hi, ho, hl, hn⟩ := h
  unfold readU32BE
  rw [ho, memRead_same hi]
  cases memRead s.offset.toNat 4 s with
  | error e => rfl
  | ok b => exact ⟨rfl, hi, by simp only [State.advance_offset, ho], hl, hn⟩

theorem SameA.setRow {s t : State} (h : SameA s t) (v : RowA) :
    SameA (s.setRowA s.inner.layerA s.inner.lineA.val v)
      (t.setRowA t.inner.layerA t.inner.lineA.val v) := by
  obtain ⟨hi, ho, hl, hn⟩ := h
  exact ⟨hi, ho, by simp only [State.setRowA_lA, hl, hn], hn⟩

theorem readChunk_same (c : Nat) {s t : State} (h : SameA s t) :
    Run.Agree SameA (readChunk c s) (readChunk c t) := by
  refine (readU8_same h).bind fun b u v huv => ?_
  have hrow : rowA (v.lA.layer v.inner.layerA) v.inner.lineA.val =
      rowA (u.lA.layer u.inner.layerA) u.inner.lineA.val := by rw [huv.2.2.1, huv.2.2.2]
  simp only [writeChunk, hrow]
  exact huv.setRow _

theorem chunks_same (m : Word) {s t : State} (h : SameA s t) :
    Run.Agree SameA (forRange (maskedChunk m) 0 32 s) (forRange (maskedChunk m) 0 32 t) := by
  refine forRange_agree h fun c u v _ _ huv => ?_
  unfold maskedChunk
  cases m.getLsbD (31 - c)
  · exact huv
  · exact readChunk_same c huv

theorem lineBody_same (c : LineCode) {s t : State} (h : SameA s t) :
    Run.Agree SameA (lineBody c s) (lineBody c t) := by
  unfold lineBody
  split
  · exact h
  · split
    · exact (readU32BE_same h).bind fun m u v huv => chunks_same m huv
    · split
      · exact (readU32BE_same h).bind fun m u v huv => chunks_same m (huv.setRow _)
      · exact forRange_agree h fun c u v _ _ huv => readChunk_same c huv

theorem decodeLines_same (k : Fin 2) {s t : State} (h : SameA s t) :
    Run.Agree SameA (decodeLines k s) (decodeLines k t) := by
  refine forRange_agree h fun y u v _ _ huv => ?_
  obtain ⟨hi, ho, hl, hn⟩ := huv
  unfold decodeLineAt
  rw [show lineTypeOf v k y = lineTypeOf u k y by simp only [lineTypeOf, hn]]
  refine lineBody_same _ ⟨hi, ho, hl, ?_⟩
  simp only [State.atLine_inner, hn]

theorem SameA.setLineType {s t : State} (h : SameA s t) (k : Fin 2) (y : Nat) (c : LineCode) :
    SameA (s.setLineType k y c) (t.setLineType k y c) :=
  ⟨h.1, h.2.1, h.2.2.1, by simp only [State.setLineType_inner, h.2.2.2]⟩

theorem unpackTypes_same (k : Fin 2) {s t : State} (h : SameA s t) :
    Run.Agree SameA (unpackTypes k s) (unpackTypes k t) := by
  refine forRange_agree h fun j u v _ _ huv => ?_
  exact (readU8_same huv).bind fun b u v huv =>
    (((huv.setLineType k _ _).setLineType k _ _).setLineType k _ _).setLineType k _ _

theorem decodeLayersA_same {s t : State} (h : SameA s t) :
    Run.Agree SameA (decodeLayersA s) (decodeLayersA t) := by
  unfold decodeLayersA
  rw [h.1.2.2]
  cases s.cfg.lineTableOrder
  · exact (unpackTypes_same 0 h).bind fun _ _ h => (unpackTypes_same 1 h).bind fun _ _ h =>
      (decodeLines_same 0 h).bind fun _ _ h => decodeLines_same 1 h
  · exact (unpackTypes_same 0 h).bind fun _ _ h => (decodeLines_same 0 h).bind fun _ _ h =>
      (unpackTypes_same 1 h).bind fun _ _ h => decodeLines_same 1 h

theorem readTranslation_same (p : Bool) {s t : State} (h : SameA s t) :
    Run.AgreeVal SameA (readTranslation p s) (readTranslation p t) := by
  cases p
  · exact ⟨rfl, h⟩
  · unfold readTranslation readI8
    simp only [if_true]
    have h1 := readU8_same h
    cases ha : readU8 s with
    | error e => cases hb : readU8 t with
      | error e' => rw [ha, hb] at h1; exact h1
      | ok y => rw [ha, hb] at h1; exact h1.elim
    | ok x => cases hb : readU8 t with
      | error e' => rw [ha, hb] at h1; exact h1.elim
      | ok y =>
        rw [ha, hb] at h1
        obtain ⟨hv, hR⟩ := h1
        have h2 := readU8_same hR
        simp only [Run.bind_ok]
        cases hc : readU8 x.2 with
        | error e => cases hd : readU8 y.2 with
          | error e' => rw [hc, hd] at h2; exact h2
          | ok z => rw [hc, hd] at h2; exact h2.elim
        | ok w => cases hd : readU8 y.2 with
          | error e' => rw [hc, hd] at h2; exact h2.elim
          | ok z =>
            rw [hc, hd] at h2
            simp only [Run.bind_ok]
            exact ⟨by simp only [hv, h2.1], h2.2⟩

/-! ## The parts of a frame record -/

/-- The translation, from the bytes at the byte cursor (42_frame_a.md R194). -/
theorem readTranslation_value {p : Bool} {s : State} {r : (Int × Int) × State}
    (h : readTranslation p s = .ok r) :
    r.1 = if p then ((s.byteAt s.offset.toNat).toInt, (s.byteAt (s.offset.toNat + 1)).toInt)
      else (0, 0) := by
  unfold readTranslation at h
  cases p
  · simp only [Bool.false_eq_true, if_false] at h ⊢
    rw [← Except.ok.inj h]
  · simp only [if_true] at h ⊢
    obtain ⟨x, hx, h⟩ := Run.bind_eq_ok.1 h
    obtain ⟨y, hy, h⟩ := Run.bind_eq_ok.1 h
    obtain ⟨hb, rfl⟩ := readI8_eq_ok.1 hx
    obtain ⟨hb', rfl⟩ := readI8_eq_ok.1 hy
    have := State.advance_toNat hb
    rw [← Except.ok.inj h]
    simp only [this]
    rfl

/-- The lines of a record before the XOR, and its translation: nothing here depends on what the block held
before (42_frame_a.md R190, R191). -/
def recordA (f : Nat) (s : State) : Run ((Int × Int) × State) := do
  let t ← readTranslation (headerTranslated (s.byteAt f)) ((s.openFrameA f).advance 1)
  let r ← decodeLayersA t.2
  .ok (t.1, r)

theorem decodeBodyA_eq {f : Nat} {s : State} (h : f + 1 ≤ s.len.toNat) :
    decodeBodyA f s = (do
      let r ← recordA f s
      .ok (if headerKey (s.byteAt f) then r.2 else xorDelta r.1.1 r.1.2 r.2).closeFrameA) := by
  have hl := s.len.isLt
  have hoff : (s.openFrameA f).offset.toNat = f := by
    simp only [State.openFrameA_offset, BitVec.toNat_ofNat]
    omega
  have h1 : (s.openFrameA f).offset.toNat + 1 ≤ (s.openFrameA f).len.toNat := by
    rw [hoff, State.openFrameA_len]; exact h
  have hb : (s.openFrameA f).byteAt f = s.byteAt f := rfl
  unfold decodeBodyA recordA
  rw [if_neg (by omega), readU8_ok h1, Run.bind_ok, hoff, hb]
  cases readTranslation (headerTranslated (s.byteAt f)) ((s.openFrameA f).advance 1) with
  | error e => rfl
  | ok t =>
    simp only [Run.bind_ok]
    cases decodeLayersA t.2 with
    | error e => rfl
    | ok r => rfl

theorem recordA_same {f : Nat} {s t : State} (h : SameInput s t) :
    Run.AgreeVal SameA (recordA f s) (recordA f t) := by
  unfold recordA
  have h0 : SameA ((s.openFrameA f).advance 1) ((t.openFrameA f).advance 1) := ⟨h, rfl, rfl, rfl⟩
  have h1 := readTranslation_same (headerTranslated (s.byteAt f)) h0
  rw [byteAt_same h]
  cases ha : readTranslation (headerTranslated (s.byteAt f)) ((s.openFrameA f).advance 1) with
  | error e =>
    cases hb : readTranslation (headerTranslated (s.byteAt f)) ((t.openFrameA f).advance 1) with
    | error e' => rw [ha, hb] at h1; exact h1
    | ok y => rw [ha, hb] at h1; exact h1.elim
  | ok x =>
    cases hb : readTranslation (headerTranslated (s.byteAt f)) ((t.openFrameA f).advance 1) with
    | error e' => rw [ha, hb] at h1; exact h1.elim
    | ok y =>
      rw [ha, hb] at h1
      have h2 := decodeLayersA_same h1.2
      simp only [Run.bind_ok]
      cases hc : decodeLayersA x.2 with
      | error e => cases hd : decodeLayersA y.2 with
        | error e' => rw [hc, hd] at h2; exact h2
        | ok z => rw [hc, hd] at h2; exact h2.elim
      | ok w => cases hd : decodeLayersA y.2 with
        | error e' => rw [hc, hd] at h2; exact h2.elim
        | ok z =>
          rw [hc, hd] at h2
          exact ⟨h1.1, h2⟩

/-- The lines of a record leave `P_A` alone. -/
theorem recordA_only {f : Nat} {s : State} {r : (Int × Int) × State} (h : recordA f s = .ok r) :
    r.2 = { s with offset := r.2.offset, lA := r.2.lA, inner := r.2.inner } := by
  unfold recordA at h
  obtain ⟨t, ht, h⟩ := Run.bind_eq_ok.1 h
  obtain ⟨u, hu, h⟩ := Run.bind_eq_ok.1 h
  obtain rfl := Except.ok.inj h
  have h1 : StreamA (s.openFrameA f) u :=
    StreamA.trans (t := (s.openFrameA f).advance 1) rfl
      ((readTranslation_stepsA ht).1.trans (decodeLayersA_stepsA hu).1)
  have h2 : u = { s.openFrameA f with offset := u.offset, lA := u.lA, inner := u.inner } := h1
  rw [h2]
  rfl

/-- What two decodes of one record over the same input leave: the same layers and byte cursor. -/
def SameFrameA (s t : State) : Prop :=
  SameInput s t ∧ t.offset = s.offset ∧ t.lA = s.lA ∧ t.pA = s.pA

/-- A keyframe depends on nothing but the input, another frame also on `P_A` (42_frame_a.md R204, R208). -/
theorem decodeBodyA_same {f : Nat} {s t : State} (h : SameInput s t)
    (hk : headerKey (s.byteAt f) = true ∨ t.pA = s.pA) :
    Run.Agree SameFrameA (decodeBodyA f s) (decodeBodyA f t) := by
  by_cases hf : f + 1 ≤ s.len.toNat
  · have hf' : f + 1 ≤ t.len.toNat := by rw [h.2.1]; exact hf
    rw [decodeBodyA_eq hf, decodeBodyA_eq hf', byteAt_same h]
    have hr := recordA_same (f := f) h
    cases ha : recordA f s with
    | error e => cases hb : recordA f t with
      | error e' => rw [ha, hb] at hr; exact hr
      | ok y => rw [ha, hb] at hr; exact hr.elim
    | ok x => cases hb : recordA f t with
      | error e' => rw [ha, hb] at hr; exact hr.elim
      | ok y =>
        rw [ha, hb] at hr
        obtain ⟨hv, hR⟩ := hr
        simp only [Run.bind_ok]
        rcases hk with hk | hk
        · simp only [hk, if_true]
          exact ⟨hR.1, hR.2.1, hR.2.2.1, hR.2.2.1⟩
        · have hp : y.2.pA = x.2.pA := by
            rw [recordA_only ha, recordA_only hb]
            exact hk
          cases headerKey (s.byteAt f)
          · have : (xorDelta y.1.1 y.1.2 y.2).lA = (xorDelta x.1.1 x.1.2 x.2).lA := by
              simp only [xorDelta, hp, hv, hR.2.2.1]
            exact ⟨hR.1, hR.2.1, this, this⟩
          · exact ⟨hR.1, hR.2.1, hR.2.2.1, hR.2.2.1⟩
  · have hf' : ¬ f + 1 ≤ t.len.toNat := by rw [h.2.1]; exact hf
    unfold decodeBodyA
    rw [if_pos (by omega), if_pos (by omega)]
    rfl

/-! ## The XOR (42_frame_a.md R204) -/

theorem shiftRow_getLsbD (tx : Int) (row : RowA) {x : Nat} (hx : x < 256) :
    (shiftRow tx row).getLsbD x =
      if 0 ≤ (x : Int) - tx ∧ (x : Int) - tx < 256 then row.getLsbD ((x : Int) - tx).toNat else false := by
  unfold shiftRow
  split
  · rename_i h
    rw [BitVec.getLsbD_shiftLeft]
    by_cases h1 : 0 ≤ (x : Int) - tx ∧ (x : Int) - tx < 256
    · rw [if_pos h1, show ((x : Int) - tx).toNat = x - tx.toNat by omega]
      have h2 : ¬ x < tx.toNat := by omega
      simp [hx, h2]
    · rw [if_neg h1]
      have h2 : x < tx.toNat := by omega
      simp [h2]
  · rename_i h
    rw [BitVec.getLsbD_ushiftRight]
    by_cases h1 : 0 ≤ (x : Int) - tx ∧ (x : Int) - tx < 256
    · rw [if_pos h1, show ((x : Int) - tx).toNat = (-tx).toNat + x by omega]
    · rw [if_neg h1]
      exact BitVec.getLsbD_of_ge _ _ (by omega)

theorem deltaRow_getLsbD (tx ty : Int) (src : LayerA) (y : Nat) {x : Nat} (hx : x < 256) :
    (deltaRow tx ty src y).getLsbD x =
      if 0 ≤ (x : Int) - tx ∧ (x : Int) - tx < 256 ∧ 0 ≤ (y : Int) - ty ∧ (y : Int) - ty < 192 then
        (rowA src ((y : Int) - ty).toNat).getLsbD ((x : Int) - tx).toNat
      else false := by
  unfold deltaRow
  by_cases hy : 0 ≤ (y : Int) - ty ∧ (y : Int) - ty < 192
  · rw [if_pos hy, shiftRow_getLsbD tx _ hx]
    by_cases h1 : 0 ≤ (x : Int) - tx ∧ (x : Int) - tx < 256
    · rw [if_pos h1, if_pos ⟨h1.1, h1.2, hy.1, hy.2⟩]
    · rw [if_neg h1, if_neg fun h => h1 ⟨h.1, h.2.1⟩]
  · rw [if_neg hy, if_neg fun h => hy ⟨h.2.2.1, h.2.2.2⟩]
    simp

theorem pixelA_eq (l : LayerA) (y : Nat) {x : Nat} (hx : x < 256) :
    pixelA l (256 * y + x) = (rowA l y).getLsbD x := by
  rw [pixelA, show (256 * y + x) / 256 = y by omega, show (256 * y + x) % 256 = x by omega]

theorem rowA_xorLayer (tx ty : Int) (dst src : LayerA) {y : Nat} (hy : y < 192) :
    rowA (xorLayer tx ty dst src) y = rowA dst y ^^^ deltaRow tx ty src y := by
  rw [xorLayer, rowA, Sparse.get_tabulate, if_pos ⟨by omega, by omega⟩]

/-- Each pixel is XORed with the source pixel at destination − translation, or left when that falls outside
the frame. -/
theorem xorDelta_pixel (tx ty : Int) (s : State) (k : Fin 2) {x y : Nat} (hx : x < 256) (hy : y < 192) :
    pixelA ((xorDelta tx ty s).lA.layer k) (256 * y + x) =
      (pixelA (s.lA.layer k) (256 * y + x) ^^
        if 0 ≤ (x : Int) - tx ∧ (x : Int) - tx < 256 ∧ 0 ≤ (y : Int) - ty ∧ (y : Int) - ty < 192 then
          pixelA (s.pA.layer k) (256 * ((y : Int) - ty).toNat + ((x : Int) - tx).toNat)
        else false) := by
  have hlayer : (xorDelta tx ty s).lA.layer k = xorLayer tx ty (s.lA.layer k) (s.pA.layer k) := by
    unfold LayersA.layer xorDelta
    split <;> rfl
  rw [hlayer, pixelA_eq _ _ hx, rowA_xorLayer tx ty _ _ hy, BitVec.getLsbD_xor, pixelA_eq _ _ hx,
    deltaRow_getLsbD tx ty _ y hx]
  congr 1
  by_cases h : 0 ≤ (x : Int) - tx ∧ (x : Int) - tx < 256 ∧ 0 ≤ (y : Int) - ty ∧ (y : Int) - ty < 192
  · rw [if_pos h, if_pos h, pixelA_eq _ _ (by omega)]
  · rw [if_neg h, if_neg h]

/-! ## The sequencer -/

theorem cacheIs_iff {r : Word} {i : Int} : cacheIs r i = true ↔ r ≠ noFrame ∧ (r.toNat : Int) = i := by
  simp [cacheIs]

theorem cacheIs_noFrame (i : Int) : cacheIs noFrame i = false := by
  simp [cacheIs]

theorem cacheIs_false_of_neg {r : Word} {i : Int} (h : i < 0) : cacheIs r i = false := by
  simp only [cacheIs, decide_eq_false_iff_not, not_and]
  omega

/-- An index of a table of at most 2^32 − 1 entries fits the cache and is not `NONE` (10_state.md R33). -/
theorem index_ne_none {i n : Nat} (h : i < n) (hn : n < 2 ^ 32) :
    (BitVec.ofNat 32 i).toNat = i ∧ BitVec.ofNat 32 i ≠ noFrame := by
  have h1 : (BitVec.ofNat 32 i).toNat = i := by
    rw [BitVec.toNat_ofNat]; omega
  refine ⟨h1, fun h2 => ?_⟩
  rw [h2] at h1
  have : noFrame.toNat = 2 ^ 32 - 1 := rfl
  omega

theorem cacheIs_self {i n : Nat} (h : i < n) (hn : n < 2 ^ 32) :
    cacheIs (BitVec.ofNat 32 i) (i : Int) = true := by
  obtain ⟨h1, h2⟩ := index_ne_none h hn
  exact cacheIs_iff.2 ⟨h2, by rw [h1]⟩

theorem getElem?_lt {α : Type} {l : List α} {i : Nat} {a : α} (h : l[i]? = some a) : i < l.length :=
  (List.getElem?_eq_some_iff.1 h).1

/-- What a sequenced decode may change (42_frame_a.md R190, R222). -/
def FrameStepA (s t : State) : Prop :=
  t = { s with offset := t.offset, lA := t.lA, pA := t.pA, inner := t.inner, lastA := t.lastA } ∧
  (t.inner = s.inner ∨ t.inner = Inner.idle)

theorem FrameStepA.refl (s : State) : FrameStepA s s := ⟨rfl, .inl rfl⟩

theorem FrameStepA.trans {s t u : State} (h : FrameStepA s t) (h' : FrameStepA t u) : FrameStepA s u := by
  refine ⟨?_, ?_⟩
  · have h1 := h.1
    have h2 := h'.1
    rw [h2]
    rw [h1]
  · rcases h'.2 with h2 | h2
    · rw [h2]
      exact h.2
    · exact .inr h2

/-- A completed decode of frame i: only the frame decoder's state changes; either the frame was cached and
nothing changed, or it is cached now, `P_A` equals `L_A`, the buffers are canonical and the byte cursor is
within the buffer (42_frame_a.md R221, R222). -/
theorem frameStepA_spec {i : Nat} {anc : State → Run State} {s t : State}
    (hanc : ∀ t, anc s = .ok t → FrameStepA s t) (h : frameStepA i anc s = .ok t) :
    i < s.cfg.frameOffsetA.length ∧ FrameStepA s t ∧
    ((cacheIs s.lastA i = true ∧ t = s) ∨
      (cacheIs s.lastA i = false ∧ t.lastA = BitVec.ofNat 32 i ∧ t.pA = t.lA ∧ t.inner = Inner.idle ∧
        t.lA.ok ∧ t.offset.toNat ≤ t.len.toNat)) := by
  unfold frameStepA at h
  split at h
  · simp at h
  · rename_i f hf
    refine ⟨getElem?_lt hf, ?_⟩
    split at h
    · rename_i hc
      obtain rfl := Except.ok.inj h
      exact ⟨FrameStepA.refl _, .inl ⟨hc, rfl⟩⟩
    · rename_i hc
      obtain ⟨hd, -, h⟩ := Run.bind_eq_ok.1 h
      obtain ⟨s1, hs1, h⟩ := Run.bind_eq_ok.1 h
      obtain ⟨s2, hs2, h⟩ := Run.bind_eq_ok.1 h
      obtain rfl := Except.ok.inj h
      obtain ⟨h1, h2, h3⟩ := decodeBodyA_spec hs2
      have hstep : FrameStepA s s1 := by
        rcases runIf_eq_ok.1 hs1 with ⟨_, h⟩ | ⟨_, rfl⟩
        · exact hanc _ h
        · exact FrameStepA.refl _
      have hin : s2.inner = Inner.idle := by rw [h1]
      have hpa : s2.pA = s2.lA := by rw [h1]
      refine ⟨hstep.trans ⟨?_, .inr hin⟩, .inr ⟨by simpa using hc, rfl, hpa, hin, h2, h3⟩⟩
      simp only
      rw [h1]

theorem decodeFrameA_spec {i : Nat} {s t : State} (h : decodeFrameA i s = .ok t) :
    i < s.cfg.frameOffsetA.length ∧ FrameStepA s t ∧
    ((cacheIs s.lastA i = true ∧ t = s) ∨
      (cacheIs s.lastA i = false ∧ t.lastA = BitVec.ofNat 32 i ∧ t.pA = t.lA ∧ t.inner = Inner.idle ∧
        t.lA.ok ∧ t.offset.toNat ≤ t.len.toNat)) := by
  induction i generalizing s t with
  | zero => exact frameStepA_spec (fun t ht => by simp at ht) h
  | succ i ih => exact frameStepA_spec (fun t ht => (ih ht).2.1) h

/-- The header byte a decode of frame i looks at. -/
theorem memRead_header {f : Nat} {s : State} (h : f + 1 ≤ s.len.toNat) :
    memRead f 1 s = .ok [s.byteAt f] := by
  rw [memRead_ok h]
  rfl

/-- A decode that is not cached and whose header can be read. -/
theorem frameStepA_eq {i : Nat} {anc : State → Run State} {s : State} {f : Word}
    (hf : s.cfg.frameOffsetA[i]? = some f) (hc : cacheIs s.lastA i = false)
    (hb : f.toNat + 1 ≤ s.len.toNat) :
    frameStepA i anc s = (do
      let s1 ← runIf (needsAncestorA (s.byteAt f.toNat) s i) anc s
      let s2 ← decodeBodyA f.toNat s1
      .ok { s2 with lastA := BitVec.ofNat 32 i }) := by
  unfold frameStepA
  rw [hf]
  simp only [hc, Bool.false_eq_true, if_false, memRead_header hb, Run.bind_ok, List.getD_cons_zero]

theorem decodeFrameA_unfold (i : Nat) (s : State) :
    decodeFrameA i s =
      frameStepA i (if i = 0 then fun _ => .error ⟨.frameRange, -1⟩ else decodeFrameA (i - 1)) s := by
  cases i with
  | zero => rfl
  | succ i => simp [decodeFrameA]

/-- A cached frame is left alone (42_frame_a.md R221). -/
theorem decodeFrameA_cached {i : Nat} {s : State} (hi : i < s.cfg.frameOffsetA.length)
    (hc : cacheIs s.lastA i = true) : decodeFrameA i s = .ok s := by
  rw [decodeFrameA_unfold]
  unfold frameStepA
  rw [List.getElem?_eq_getElem hi]
  simp only [hc, if_true]

/-- A frame index past the table (42_frame_a.md R221). -/
theorem decodeFrameA_range {i : Nat} {s : State} (hi : s.cfg.frameOffsetA.length ≤ i) :
    decodeFrameA i s = .error ⟨.frameRange, i⟩ := by
  rw [decodeFrameA_unfold]
  unfold frameStepA
  rw [List.getElem?_eq_none hi]

/-- A keyframe, or the frame after the cached one: its record alone is decoded (42_frame_a.md R222). -/
theorem decodeFrameA_alone {i : Nat} {s : State} {f : Word}
    (hf : s.cfg.frameOffsetA[i]? = some f) (hc : cacheIs s.lastA i = false)
    (hb : f.toNat + 1 ≤ s.len.toNat)
    (hk : headerKey (s.byteAt f.toNat) = true ∨ cacheIs s.lastA ((i : Int) - 1) = true) :
    decodeFrameA i s = (do
      let t ← decodeBodyA f.toNat s
      .ok { t with lastA := BitVec.ofNat 32 i }) := by
  have hn : needsAncestorA (s.byteAt f.toNat) s i = false := by
    rcases hk with hk | hk <;> simp [needsAncestorA, hk]
  rw [decodeFrameA_unfold, frameStepA_eq hf hc hb, hn]
  rfl

theorem cacheIs_pred_ofNat {i n : Nat} (h : i < n) (hn : n < 2 ^ 32) :
    cacheIs (BitVec.ofNat 32 i) (((i + 1 : Nat) : Int) - 1) = true := by
  rw [show (((i + 1 : Nat) : Int) - 1) = (i : Int) by omega]
  exact cacheIs_self h hn

theorem cacheIs_ne {r : Word} {i j : Int} (h : cacheIs r i = true) (hij : i ≠ j) :
    cacheIs r j = false := by
  obtain ⟨_, h2⟩ := cacheIs_iff.1 h
  simp only [cacheIs, decide_eq_false_iff_not, not_and]
  omega

/-- Another frame: decode its predecessor, then it (42_frame_a.md R222). -/
theorem decodeFrameA_chain {i : Nat} {s : State} {f : Word} (hn : s.cfg.frameOffsetA.length < 2 ^ 32)
    (hf : s.cfg.frameOffsetA[i + 1]? = some f) (hc : cacheIs s.lastA ((i + 1 : Nat) : Int) = false)
    (hp : cacheIs s.lastA (i : Int) = false) (hb : f.toNat + 1 ≤ s.len.toNat)
    (hk : headerKey (s.byteAt f.toNat) = false) :
    decodeFrameA (i + 1) s = (do
      let t ← decodeFrameA i s
      decodeFrameA (i + 1) t) := by
  have hneed : needsAncestorA (s.byteAt f.toNat) s (i + 1) = true := by
    simp only [needsAncestorA, hk, show (((i + 1 : Nat) : Int) - 1) = (i : Int) by omega, hp]
    rfl
  rw [decodeFrameA_unfold (i + 1) s, frameStepA_eq hf hc hb, hneed]
  simp only [Nat.add_one_ne_zero, if_false, Nat.add_sub_cancel, runIf, if_true]
  cases h : decodeFrameA i s with
  | error e => rfl
  | ok t =>
    obtain ⟨hlt, hstep, hcase⟩ := decodeFrameA_spec h
    rcases hcase with ⟨h1, -⟩ | ⟨-, h1, -⟩
    · rw [hp] at h1
      simp at h1
    · have hcfg : t.cfg = s.cfg := by rw [hstep.1]
      have hlen : t.len = s.len := by rw [hstep.1]
      have hmem : t.mem = s.mem := by rw [hstep.1]
      have hbyte : t.byteAt f.toNat = s.byteAt f.toNat := by simp only [State.byteAt, hmem]
      have hself := cacheIs_self hlt hn
      simp only [Run.bind_ok]
      rw [decodeFrameA_alone (i := i + 1) (s := t) (f := f) (by rw [hcfg]; exact hf)
        (by rw [h1]; exact cacheIs_ne hself (by omega)) (by rw [hlen]; exact hb)
        (.inr (by rw [h1]; exact cacheIs_pred_ofNat hlt hn))]

/-- A frame 0 that is no keyframe (42_frame_a.md R223). -/
theorem decodeFrameA_zero_delta {s : State} {f : Word} (hf : s.cfg.frameOffsetA[0]? = some f)
    (hc : cacheIs s.lastA 0 = false) (hb : f.toNat + 1 ≤ s.len.toNat)
    (hk : headerKey (s.byteAt f.toNat) = false) :
    decodeFrameA 0 s = .error ⟨.frameRange, -1⟩ := by
  have hneed : needsAncestorA (s.byteAt f.toNat) s 0 = true := by
    simp only [needsAncestorA, hk]
    rw [cacheIs_false_of_neg (by omega)]
    rfl
  rw [decodeFrameA_unfold, frameStepA_eq (i := 0) hf hc hb, hneed]
  rfl

theorem FrameStepA.same {s t : State} (h : FrameStepA s t) : SameInput s t := by
  have h1 := h.1
  refine ⟨?_, ?_, ?_⟩ <;> rw [h1]

theorem SameInput.symm {s t : State} (h : SameInput s t) : SameInput t s :=
  ⟨h.1.symm, h.2.1.symm, h.2.2.symm⟩

theorem SameInput.trans {s t u : State} (h : SameInput s t) (h' : SameInput t u) : SameInput s u :=
  ⟨h'.1.trans h.1, h'.2.1.trans h.2.1, h'.2.2.trans h.2.2⟩

/-- With room for every record and a keyframe 0, every frame of the table can be decoded. -/
theorem decodeFrameA_completes {i : Nat} {s : State} (hi : i < s.cfg.frameOffsetA.length)
    (hroom : ∀ f ∈ s.cfg.frameOffsetA, f.toNat + 13923 ≤ s.len.toNat)
    (hkey : ∀ f, s.cfg.frameOffsetA[0]? = some f → headerKey (s.byteAt f.toNat) = true) :
    ∃ t, decodeFrameA i s = .ok t := by
  induction i with
  | zero =>
    have hf := List.getElem?_eq_getElem hi
    have hr := hroom _ (List.getElem_mem hi)
    cases hc : cacheIs s.lastA ((0 : Nat) : Int)
    · obtain ⟨t, ht⟩ := decodeBodyA_completes hr
      rw [decodeFrameA_alone hf hc (by omega) (.inl (hkey _ hf)), ht]
      exact ⟨_, rfl⟩
    · exact ⟨s, decodeFrameA_cached hi hc⟩
  | succ i ih =>
    have hf := List.getElem?_eq_getElem hi
    have hr := hroom _ (List.getElem_mem hi)
    cases hc : cacheIs s.lastA ((i + 1 : Nat) : Int)
    · obtain ⟨t, ht⟩ := ih (by omega)
      rw [decodeFrameA_unfold, frameStepA_eq hf hc (by omega)]
      simp only [Nat.add_one_ne_zero, if_false, Nat.add_sub_cancel]
      cases needsAncestorA (s.byteAt (s.cfg.frameOffsetA[i + 1]).toNat) s (i + 1)
      · obtain ⟨u, hu⟩ := decodeBodyA_completes hr
        simp only [runIf, Bool.false_eq_true, if_false, Run.bind_ok, hu]
        exact ⟨_, rfl⟩
      · have hl : t.len = s.len := (decodeFrameA_spec ht).2.1.same.2.1
        obtain ⟨u, hu⟩ := decodeBodyA_completes (s := t) (by rw [hl]; exact hr)
        simp only [runIf, if_true, ht, Run.bind_ok, hu]
        exact ⟨_, rfl⟩
    · exact ⟨s, decodeFrameA_cached hi hc⟩

/-! ## Layers of blank lines, and how the sequencer depends on `ARG0` and the cache -/

/-- The byte cursor moved by `n`, and nothing else changed but the loop state, which lists no line type. -/
def Blank (n : Nat) (s t : State) : Prop :=
  ∃ i : Inner, i.tA = [] ∧ t = { s with offset := s.offset + BitVec.ofNat 32 n, inner := i }

theorem Blank.refl {s : State} (h : s.inner.tA = []) : Blank 0 s s := ⟨s.inner, h, by simp⟩

/-- A layer of blank lines (42_frame_a.md R199). -/
theorem decodeLines_blank {k : Fin 2} {s : State} (ht : s.inner.tA = []) :
    ∃ t, decodeLines k s = .ok t ∧ Blank 0 s t := by
  have := forRange_completes (f := decodeLineAt k) (P := fun _ u => Blank 0 s u) (i := 0) (n := 192) (Blank.refl ht) ?_
  · exact this
  rintro j u _ hj ⟨i, hi, rfl⟩
  refine ⟨_, (show decodeLineAt k j _ = .ok (State.atLine _ k j) by simp only [decodeLineAt, lineTypeOf, hi, Sparse.get_nil]; rfl), ?_⟩
  exact ⟨{ i with seq := .lines, layerA := k, lineA := Fin.ofNat 192 j }, hi, rfl⟩

/-- Where a record's translation comes from (42_frame_a.md R194). -/
theorem recordA_translation {f : Nat} {s : State} {r : (Int × Int) × State} (hb : f + 1 ≤ s.len.toNat)
    (h : recordA f s = .ok r) :
    r.1 = if headerTranslated (s.byteAt f) then ((s.byteAt (f + 1)).toInt, (s.byteAt (f + 2)).toInt) else (0, 0) := by
  have hl := s.len.isLt
  have hf : (BitVec.ofNat 32 f).toNat = f := by rw [BitVec.toNat_ofNat]; omega
  have hoff : ((s.openFrameA f).advance 1).offset.toNat = f + 1 := by
    rw [State.advance_toNat] <;> simp only [State.openFrameA, hf]; omega
  unfold recordA at h
  obtain ⟨a, ha, h⟩ := Run.bind_eq_ok.1 h
  obtain ⟨b, hb', h⟩ := Run.bind_eq_ok.1 h
  obtain rfl := Except.ok.inj h
  have := readTranslation_value ha
  rw [hoff] at this
  exact this

/-- The cache names frame i. -/
theorem cacheIs_eq {i : Nat} {n : Nat} (hi : i < n) (hn : n < 2 ^ 32) (r : Word) :
    cacheIs r (i : Int) = true ↔ r = BitVec.ofNat 32 i := by
  obtain ⟨h1, h2⟩ := index_ne_none hi hn
  rw [cacheIs_iff]
  constructor
  · rintro ⟨_, h⟩
    apply BitVec.eq_of_toNat_eq
    rw [h1]; omega
  · rintro rfl
    exact ⟨h2, by rw [h1]⟩

/-- `ARG0` is read by the commands only: a record decodes the same whatever it holds. -/
theorem decodeBodyA_arg0 (f : Nat) (s : State) (w : Word) :
    decodeBodyA f { s with arg0 := w } = (decodeBodyA f s).map fun t => { t with arg0 := w } := by
  have hag := decodeBodyA_same (f := f) (s := s) (t := { s with arg0 := w }) ⟨rfl, rfl, rfl⟩ (.inr rfl)
  cases h1 : decodeBodyA f s with
  | error e =>
    cases h2 : decodeBodyA f { s with arg0 := w } with
    | error e' => rw [h1, h2] at hag; exact congrArg _ (Eq.symm hag)
    | ok t => rw [h1, h2] at hag; exact hag.elim
  | ok t =>
    cases h2 : decodeBodyA f { s with arg0 := w } with
    | error e' => rw [h1, h2] at hag; exact hag.elim
    | ok u =>
      rw [h1, h2] at hag
      obtain ⟨_, e1, e2, _⟩ := hag
      have h3 := (decodeBodyA_spec h1).1
      have h4 := (decodeBodyA_spec h2).1
      rw [e1, e2] at h4
      simp only [Except.map]
      rw [h4]
      congr 1
      rw [h3]

theorem frameStepA_arg0 {i : Nat} {anc : State → Run State} {w : Word}
    (hanc : ∀ s, anc { s with arg0 := w } = (anc s).map fun t => { t with arg0 := w }) (s : State) :
    frameStepA i anc { s with arg0 := w } = (frameStepA i anc s).map fun t => { t with arg0 := w } := by
  unfold frameStepA
  simp only
  cases s.cfg.frameOffsetA[i]? with
  | none => rfl
  | some f =>
    simp only
    split
    · rfl
    · rw [show memRead f.toNat 1 { s with arg0 := w } = memRead f.toNat 1 s from rfl]
      cases memRead f.toNat 1 s with
      | error e => rfl
      | ok h =>
        simp only [Run.bind_ok]
        rw [show needsAncestorA (h.getD 0 0) { s with arg0 := w } i = needsAncestorA (h.getD 0 0) s i from rfl]
        have tail : ∀ u : State, (do let s2 ← decodeBodyA f.toNat { u with arg0 := w }; Except.ok { s2 with lastA := BitVec.ofNat 32 i } : Run State) =
            (do let s2 ← decodeBodyA f.toNat u; Except.ok { s2 with lastA := BitVec.ofNat 32 i } : Run State).map fun t => { t with arg0 := w } := by
          intro u
          rw [decodeBodyA_arg0]
          cases decodeBodyA f.toNat u <;> rfl
        cases needsAncestorA (h.getD 0 0) s i
        · exact tail s
        · simp only [runIf_true, hanc]
          cases anc s with
          | error e => rfl
          | ok u => exact tail u

theorem decodeFrameA_arg0 (i : Nat) (s : State) (w : Word) :
    decodeFrameA i { s with arg0 := w } = (decodeFrameA i s).map fun t => { t with arg0 := w } := by
  induction i generalizing s with
  | zero => exact frameStepA_arg0 (fun _ => rfl) s
  | succ i ih => exact frameStepA_arg0 ih s

theorem decodeFrameA_arg0_ok {i : Nat} {s t : State} (w : Word) (h : decodeFrameA i s = .ok t) :
    decodeFrameA i { s with arg0 := w } = .ok { t with arg0 := w } := by
  rw [decodeFrameA_arg0, h]; rfl

theorem decodeFrameA_arg0_back {i : Nat} {s t : State} {w : Word}
    (h : decodeFrameA i { s with arg0 := w } = .ok t) :
    decodeFrameA i s = .ok { t with arg0 := s.arg0 } := by
  have := decodeFrameA_arg0_ok s.arg0 h
  exact this

/-- The cache names another frame, or none. -/
theorem cacheIs_other {r : Word} {i n : Nat} (hi : i < n) (hn : n < 2 ^ 32) (h : r ≠ BitVec.ofNat 32 i) :
    cacheIs r (i : Int) = false := by
  cases hc : cacheIs r (i : Int)
  · rfl
  · exact absurd ((cacheIs_eq hi hn _).1 hc) h


/-- A frame decoded from its record alone comes out the same over the same input, given the same `P_A` where it is
no keyframe (42_frame_a.md R204, R208). -/
theorem decodeFrameA_alone_same {i : Nat} {a b v : State} {f : Word} (h : SameInput a b)
    (hf : a.cfg.frameOffsetA[i]? = some f) (hb : f.toNat + 1 ≤ a.len.toNat)
    (ha : cacheIs a.lastA i = false) (hc : cacheIs b.lastA i = false)
    (hk : headerKey (a.byteAt f.toNat) = true ∨
      (cacheIs a.lastA ((i : Int) - 1) = true ∧ cacheIs b.lastA ((i : Int) - 1) = true ∧ b.pA = a.pA))
    (hv : decodeFrameA i a = .ok v) : ∃ w, decodeFrameA i b = .ok w ∧ w.lA = v.lA ∧ w.pA = v.pA := by
  rw [decodeFrameA_alone hf ha hb (hk.imp id fun h => h.1)] at hv
  rw [decodeFrameA_alone (s := b) (by rw [h.2.2]; exact hf) hc (by rw [h.2.1]; exact hb) (hk.imp (fun h' => by rw [byteAt_same h]; exact h') fun h' => h'.2.1)]
  obtain ⟨x, hx, hv⟩ := Run.bind_eq_ok.1 hv
  obtain rfl := Except.ok.inj hv
  have hag := decodeBodyA_same (f := f.toNat) h (hk.imp id fun h => h.2.2)
  cases hy : decodeBodyA f.toNat b with
  | error e => rw [hx, hy] at hag; exact hag.elim
  | ok y =>
    rw [hx, hy] at hag
    exact ⟨_, rfl, hag.2.2.1, hag.2.2.2⟩

/-- A frame that decodes, and is not the cached one, has a header in the buffer. -/
theorem decodeFrameA_header {i : Nat} {s t : State} (hc : cacheIs s.lastA i = false)
    (h : decodeFrameA i s = .ok t) :
    ∃ f, s.cfg.frameOffsetA[i]? = some f ∧ f.toNat + 1 ≤ s.len.toNat := by
  obtain ⟨f, hf⟩ : ∃ f, s.cfg.frameOffsetA[i]? = some f := ⟨_, List.getElem?_eq_getElem (decodeFrameA_spec h).1⟩
  refine ⟨f, hf, ?_⟩
  by_contra hb
  rw [decodeFrameA_unfold, frameStepA, hf] at h
  simp only [hc, memRead_bounds (show f.toNat + 1 > s.len.toNat by omega), Run.bind_error] at h
  cases h

/-- A frame that decodes, and is not the cached one, is cached now. -/
theorem decodeFrameA_lastA {i : Nat} {s t : State} (hc : cacheIs s.lastA i = false)
    (h : decodeFrameA i s = .ok t) :
    t.lastA = BitVec.ofNat 32 i := by
  rcases (decodeFrameA_spec h).2.2 with ⟨h, _⟩ | ⟨_, h, _⟩
  · rw [hc] at h; cases h
  · exact h

end Sys2Proof.Machine
end

