-- ==== Sys2Proof/Laws/Encode.lean ====
section
/-! SUPPORT. The laws of the decoder and the encoder: the fields of a command word, and which words decode
(30_encoding.md R90 to R95). -/

namespace Sys2Proof

open Sys2Proof.Machine (commandOps operandOps)

/-- The bits of an encoded command word. -/
theorem cmdWord_getLsbD (op imm : Byte) (i : Nat) : (cmdWord op imm).getLsbD i =
    if i < 8 then op.getLsbD i else imm.getLsbD (i - 8) := by
  unfold cmdWord
  refine (BitVec.getLsbD_append (x := 0#16) (y := imm ++ op) (i := i)).trans ?_
  split
  · exact BitVec.getLsbD_append
  · rw [if_neg (by omega), BitVec.getLsbD_of_ge imm _ (by omega)]; simp

theorem opField_cmdWord (op imm : Byte) : opField (cmdWord op imm) = op := by
  apply BitVec.eq_of_getLsbD_eq
  intro i hi
  simp [opField, cmdWord_getLsbD, hi]

theorem imm8Field_cmdWord (op imm : Byte) : imm8Field (cmdWord op imm) = imm := by
  apply BitVec.eq_of_getLsbD_eq
  intro i hi
  simp [imm8Field, cmdWord_getLsbD, hi]

theorem rsvField_cmdWord (op imm : Byte) : rsvField (cmdWord op imm) = 0#16 := by
  apply BitVec.eq_of_getLsbD_eq
  intro i hi
  simp only [rsvField, BitVec.getLsbD_extractLsb', cmdWord_getLsbD, hi]
  rw [if_neg (by omega), BitVec.getLsbD_of_ge imm _ (by omega)]; simp

/-- A word whose `RSV` is 0 is its own `OP` and `IMM8` put together. -/
theorem cmdWord_fields (w : Word) (h : rsvField w = 0#16) : cmdWord (opField w) (imm8Field w) = w := by
  unfold cmdWord; rw [← h]
  unfold rsvField opField imm8Field
  ext i hi
  simp only [BitVec.getElem_append, BitVec.getElem_extractLsb']
  split
  · split
    · simp [BitVec.getLsbD_eq_getElem hi]
    · rw [show 8 + (i-8) = i by omega]; simp [hi]
  · rw [show 16 + (i-16) = i by omega]; simp [hi]

/-- Decoding an encoded command word (30_encoding.md R91). -/
theorem decodeCmd_cmdWord (op imm : Byte) : decodeCmd (cmdWord op imm) =
    match operandOp op imm with
    | some i => .ok i
    | none =>
      if imm ≠ 0#8 then .error (.illegalCmd (cmdWord op imm))
      else match plainOp op with
        | some i => .ok i
        | none => .error (.illegalCmd (cmdWord op imm)) := by
  simp only [decodeCmd, opField_cmdWord, imm8Field_cmdWord, rsvField_cmdWord]
  rfl

/-- A table word of 32 bits is a command word. -/
theorem decodeTableWord_cmd (w : Word) : decodeTableWord 32 w.toNat = (decodeCmd w).toOption := by
  simp [decodeTableWord, codeOfTable, w.isLt, decode]

/-- Each row of the map without an operand encodes to its own opcode. -/
theorem plainOp_encode (op : Byte) :
    ((plainOp op).all fun i => decide (encode i = .cmd (cmdWord op 0#8))) = true := by
  revert op; decide +kernel

/-- The opcodes without an operand. -/
theorem plainOp_some (op : Byte) : ((plainOp op).isSome = true ↔ op ∈ commandOps ∧ op ∉ operandOps) := by
  revert op; decide +kernel

/-- The opcodes with an operand. -/
theorem operandOp_none (op imm : Byte) : operandOp op imm = none ↔ op ∉ operandOps := by
  unfold operandOp operandOps
  by_cases h1 : op = 9#8 <;> by_cases h2 : op = 0x12#8 <;> by_cases h3 : op = 0x31#8 <;> simp_all

/-- What R95 names illegal does not decode. -/
theorem decodeCmd_illegal (w : Word) :
    (rsvField w ≠ 0#16 ∨ opField w ∉ commandOps ∨ (opField w ∉ operandOps ∧ imm8Field w ≠ 0#8)) → decodeCmd w = .error (.illegalCmd w) := by
  intro h
  unfold decodeCmd
  split
  · rfl
  · rename_i hr
    have hsub : opField w ∉ commandOps → opField w ∉ operandOps := by
      generalize opField w = o
      revert o; decide +kernel
    have hn : opField w ∉ operandOps := by
      rcases h with h | h | h
      · exact absurd h hr
      · exact hsub h
      · exact h.1
    rw [(operandOp_none _ _).2 hn]
    simp only
    split
    · rfl
    · rename_i hi
      have hp : plainOp (opField w) = none := by
        have := plainOp_some (opField w)
        rcases h with h | h | h
        · exact absurd h hr
        · cases hq : plainOp (opField w)
          · rfl
          · rw [hq] at this; exact absurd (this.1 rfl).1 h
        · exact absurd h.2 hi
      rw [hp]

end Sys2Proof
end

