-- ==== Sys2Proof/Laws/FrameB.lean ====
section
/-! SUPPORT. The laws of the format B decoder: the tile traversal, what a tile writes, that the layer buffers and
the bit cursor keep their invariants, and what the tile types do with the stream. -/

namespace Sys2Proof.Machine

/-! ## The traversal (43_frame_b.md R246, R247) -/

theorem tileOrder_length : tileOrder.length = 1200 := by decide +kernel

theorem tileOrder_mem {e : Nat × Nat} (h : e ∈ tileOrder) :
    e.1 % 8 = 0 ∧ e.1 + 8 ≤ 320 ∧ e.2 % 8 = 0 ∧ e.2 + 8 ≤ 240 := by
  simp only [tileOrder, List.mem_flatMap, List.mem_cons, List.not_mem_nil, or_false,
    List.mem_range] at h
  obtain ⟨MY, hMY, MX, hMX, i, hi, h⟩ := h
  split at h
  · simp only [List.mem_flatMap, List.mem_range] at h
    obtain ⟨j, hj, h⟩ := h
    split at h
    · simp only [List.mem_cons, List.not_mem_nil, or_false] at h
      subst h
      simp only
      omega
    · simp at h
  · simp at h

theorem slotXY_bounds {slot : Nat} (h : slot < 1200) :
    (slotXY slot).1 % 8 = 0 ∧ (slotXY slot).1 + 8 ≤ 320 ∧
    (slotXY slot).2 % 8 = 0 ∧ (slotXY slot).2 + 8 ≤ 240 := by
  apply tileOrder_mem
  have hl : slot < tileOrder.length := by rw [tileOrder_length]; exact h
  rw [slotXY, List.getD_eq_getElem _ _ hl]
  exact List.getElem_mem hl

/-! ## Layers and segments -/

@[simp] theorem LayersB.layer_withLayer_self (l : LayersB) (k : Fin 3) (v : LayerB) :
    (l.withLayer k v).layer k = v := by
  fin_cases k <;> rfl

theorem LayersB.layer_withLayer_ne {l : LayersB} {k k' : Fin 3} {v : LayerB} (h : k' ≠ k) :
    (l.withLayer k v).layer k' = l.layer k' := by
  fin_cases k <;> fin_cases k' <;> first | rfl | exact absurd rfl h

theorem LayersB.ok_layer {l : LayersB} (h : l.ok) (k : Fin 3) :
    Sparse.wf default (l.layer k) = true ∧ Sparse.below 9600 (l.layer k) = true := by
  obtain ⟨h0, h1, h2, b0, b1, b2⟩ := h
  fin_cases k
  · exact ⟨h0, b0⟩
  · exact ⟨h1, b1⟩
  · exact ⟨h2, b2⟩

theorem LayersB.ok_withLayer {l : LayersB} (h : l.ok) (k : Fin 3) {v : LayerB}
    (hw : Sparse.wf default v = true) (hb : Sparse.below 9600 v = true) : (l.withLayer k v).ok := by
  obtain ⟨h0, h1, h2, b0, b1, b2⟩ := h
  fin_cases k
  · exact ⟨hw, h1, h2, hb, b1, b2⟩
  · exact ⟨h0, hw, h2, b0, hb, b2⟩
  · exact ⟨h0, h1, hw, b0, b1, hb⟩

theorem LayersB.ok_empty : LayersB.ok ⟨[], [], []⟩ := ⟨rfl, rfl, rfl, rfl, rfl, rfl⟩

theorem storeRows_only (k : Fin 3) (g : Nat) (ls : List Line) (s : State) :
    storeRows k g ls s = { s with lB := (storeRows k g ls s).lB } := by
  induction ls generalizing g s with
  | nil => rfl
  | cons l ls ih =>
    simp only [storeRows]
    rw [ih]
    rfl

theorem storeRows_ok {k : Fin 3} {g : Nat} {ls : List Line} {s : State} (h : s.lB.ok)
    (hg : ls = [] ∨ g + 40 * (ls.length - 1) < 9600) : (storeRows k g ls s).lB.ok := by
  induction ls generalizing g s with
  | nil => exact h
  | cons l ls ih =>
    simp only [List.length_cons] at hg
    have hg' : g < 9600 := by rcases hg with hg | hg <;> [simp at hg; omega]
    refine ih (LayersB.ok_withLayer h k (Sparse.wf_set (LayersB.ok_layer h k).1)
      (Sparse.below_set (LayersB.ok_layer h k).2 hg')) ?_
    cases ls with
    | nil => exact .inl rfl
    | cons l' ls =>
      right
      simp only [List.length_cons] at hg ⊢
      rcases hg with hg | hg
      · simp at hg
      · omega

theorem storeRows_other {k k' : Fin 3} {g : Nat} {ls : List Line} {s : State} (h : k' ≠ k) :
    (storeRows k g ls s).lB.layer k' = s.lB.layer k' := by
  induction ls generalizing g s with
  | nil => rfl
  | cons l ls ih =>
    simp only [storeRows]
    rw [ih, State.setSegB_lB, LayersB.layer_withLayer_ne h]

/-- The segments that a run of rows writes. -/
theorem storeRows_get {k : Fin 3} {g j : Nat} {ls : List Line} {s : State} (h : s.lB.ok)
    (hg : ls = [] ∨ g + 40 * (ls.length - 1) < 9600) :
    Sparse.get default ((storeRows k g ls s).lB.layer k) j =
      if g ≤ j ∧ (j - g) % 40 = 0 ∧ (j - g) / 40 < ls.length then ls.getD ((j - g) / 40) default
      else Sparse.get default (s.lB.layer k) j := by
  induction ls generalizing g s with
  | nil => simp [storeRows]
  | cons l ls ih =>
    simp only [storeRows]
    simp only [List.length_cons] at hg
    have hg' : g < 9600 := by rcases hg with hg | hg <;> [simp at hg; omega]
    have hok : (s.setSegB k g l).lB.ok :=
      LayersB.ok_withLayer h k (Sparse.wf_set (LayersB.ok_layer h k).1)
        (Sparse.below_set (LayersB.ok_layer h k).2 hg')
    have hls : ls = [] ∨ g + 40 + 40 * (ls.length - 1) < 9600 := by
      cases ls with
      | nil => exact .inl rfl
      | cons l' ls =>
        right
        simp only [List.length_cons] at hg ⊢
        rcases hg with hg | hg
        · simp at hg
        · omega
    rw [ih hok hls, State.setSegB_lB, LayersB.layer_withLayer_self, Sparse.get_set (LayersB.ok_layer h k).1]
    simp only [List.length_cons]
    by_cases hj : j = g
    · subst hj
      rw [if_neg (by omega), if_pos rfl, if_pos (by omega)]
      simp
    · rw [if_neg hj]
      by_cases hc : g + 40 ≤ j ∧ (j - (g + 40)) % 40 = 0 ∧ (j - (g + 40)) / 40 < ls.length
      · rw [if_pos hc, if_pos (by omega), show (j - g) / 40 = (j - (g + 40)) / 40 + 1 by omega]
        simp
      · rw [if_neg hc, if_neg (by omega)]

theorem storeTile_pixel {s : State} {k : Fin 3} {x y : Nat} {rows : List Line} (h : s.lB.ok)
    (hr : rows.length = 8) (hx8 : x % 8 = 0) (hx : x + 8 ≤ 320) (hy : y + 8 ≤ 240) :
    (storeRows k (40 * y + x / 8) rows s).lB.ok ∧
    (∀ r c, r < 8 → c < 8 →
      pixelB ((storeRows k (40 * y + x / 8) rows s).lB.layer k) (320 * (y + r) + x + c) =
        linePx (rows.getD r default) c) ∧
    (∀ k' p, k' ≠ k ∨ ¬ inTile x y p →
      pixelB ((storeRows k (40 * y + x / 8) rows s).lB.layer k') p = pixelB (s.lB.layer k') p) := by
  have hg : rows = [] ∨ 40 * y + x / 8 + 40 * (rows.length - 1) < 9600 := by
    right
    rw [hr]
    omega
  refine ⟨storeRows_ok h hg, fun r c hr8 hc8 => ?_, fun k' p hkp => ?_⟩
  · rw [pixelB, storeRows_get h hg, show (320 * (y + r) + x + c) / 8 = 40 * (y + r) + x / 8 by omega,
      show (320 * (y + r) + x + c) % 8 = c by omega, if_pos (by omega),
      show (40 * (y + r) + x / 8 - (40 * y + x / 8)) / 40 = r by omega]
  · by_cases hk : k' = k
    · subst hk
      have hp : ¬ inTile x y p := by tauto
      rw [pixelB, pixelB, storeRows_get h hg, if_neg]
      rintro ⟨h1, h2, h3⟩
      apply hp
      unfold inTile
      rw [hr] at h3
      omega
    · rw [storeRows_other hk]

/-- The pixels that a tile writes (43_frame_b.md R259). -/
theorem writeTile_pixel {s : State} {rows : List Line} (h : s.lB.ok) (hr : rows.length = 8) :
    (writeTile rows s).lB.ok ∧
    (∀ r c, r < 8 → c < 8 →
      pixelB ((writeTile rows s).lB.layer s.inner.layerB)
        (320 * ((slotXY s.inner.slot.val).2 + r) + (slotXY s.inner.slot.val).1 + c) =
        linePx (rows.getD r default) c) ∧
    (∀ k p, k ≠ s.inner.layerB ∨ ¬ inTile (slotXY s.inner.slot.val).1 (slotXY s.inner.slot.val).2 p →
      pixelB ((writeTile rows s).lB.layer k) p = pixelB (s.lB.layer k) p) := by
  obtain ⟨hx8, hx, -, hy⟩ := slotXY_bounds s.inner.slot.isLt
  exact storeTile_pixel h hr hx8 hx hy

theorem writeTile_only (rows : List Line) (s : State) :
    writeTile rows s = { s with lB := (writeTile rows s).lB } := storeRows_only _ _ _ _

theorem writeTile_other {rows : List Line} {s : State} {k : Fin 3} (h : k ≠ s.inner.layerB) :
    (writeTile rows s).lB.layer k = s.lB.layer k := storeRows_other h

/-- `t` is `s` after a record of `bits` bits was read and the tile was written with the rows `row`. -/
def TileRead (s t : State) (bits : Nat) (row : Nat → Line) : Prop :=
  ∃ x rows, t = writeTile rows x ∧ CursorOnly s x ∧ x.Synced ∧ x.bitPos = s.bitPos + bits ∧
    rows.length = 8 ∧ ∀ r, r < 8 → rows.getD r default = row r

/-- Where the tile's pixels are, in a canonical buffer. -/
theorem TileRead.written {s t : State} {bits : Nat} {row : Nat → Line} (hr : TileRead s t bits row)
    (h : s.lB.ok) : TileWritten s t bits row := by
  obtain ⟨x, rows, rfl, hc, hs, hp, hlen, hrow⟩ := hr
  have hi : x.inner = s.inner := by rw [hc]
  have hl : x.lB = s.lB := by rw [hc]
  obtain ⟨h1, h2, h3⟩ := writeTile_pixel (s := x) (rows := rows) (by rw [hl]; exact h) hlen
  rw [hi] at h2 h3
  rw [hl] at h3
  have hw := writeTile_only rows x
  refine ⟨?_, ?_, ?_, h1, fun r c hr8 hc8 => ?_, h3⟩
  · rw [hw]
    rw [hc]
  · rw [hw]
    exact ⟨hs.low, hs.high, hs.origin, hs.window, hs.above⟩
  · rw [hw]
    exact hp
  · rw [h2 r c hr8 hc8, hrow r hr8]

/-- What a tile leaves of the cursors and the loop, whatever the buffer. -/
theorem TileRead.cursor {s t : State} {bits : Nat} {row : Nat → Line} (hr : TileRead s t bits row) :
    t.Synced ∧ t.bitPos = s.bitPos + bits ∧ t.inner = s.inner := by
  obtain ⟨x, rows, rfl, hc, hs, hp, -, -⟩ := hr
  rw [writeTile_only]
  exact ⟨⟨hs.low, hs.high, hs.origin, hs.window, hs.above⟩, hp, by rw [hc]⟩

/-! ## The fields of a record -/

theorem setWidth_ofNat {n : Nat} {x : Word} {v : Nat} (h : x.toNat = v) :
    x.setWidth n = BitVec.ofNat n v := by
  apply BitVec.eq_of_toNat_eq
  rw [BitVec.toNat_setWidth, h, BitVec.toNat_ofNat]

theorem readIdx5_field {m : Nat} {s : State} (hs : s.Synced) (hr : s.roomFor (5 + m)) :
    ∃ r, readIdx5 s = .ok r ∧ r.1 = BitVec.ofNat 5 (s.field s.bitPos 5) ∧ r.2.Synced ∧
      r.2.bitPos = s.bitPos + 5 ∧ CursorOnly s r.2 ∧ r.2.roomFor m := by
  obtain ⟨r, hr, hv, h⟩ := readBits_field hs (by omega) (by omega) hr
  exact ⟨_, by simp only [readIdx5, hr, Run.bind_ok]; rfl, setWidth_ofNat hv, h⟩

theorem readIdx13_field {m : Nat} {s : State} (hs : s.Synced) (hr : s.roomFor (13 + m)) :
    ∃ r, readIdx13 s = .ok r ∧ r.1 = s.field s.bitPos 13 ∧ r.2.Synced ∧
      r.2.bitPos = s.bitPos + 13 ∧ CursorOnly s r.2 ∧ r.2.roomFor m := by
  obtain ⟨r, hr, hv, h⟩ := readBits_field hs (by omega) (by omega) hr
  exact ⟨_, by simp only [readIdx13, hr, Run.bind_ok]; rfl, hv, h⟩

theorem fullLine_ok {v : Nat} (h : v ≤ 6560) : fullLine v = .ok (fullEntry v) := by
  simp [fullLine, h]

theorem fullLine_bad {v : Nat} (h : 6560 < v) : fullLine v = .error ⟨.badIndex, v⟩ := by
  simp [fullLine, Nat.not_le.2 h]

theorem shiftLine_ok {v : Nat} (h : v ≤ 6560) : shiftLine v = .ok (shiftEntry v) := by
  simp [shiftLine, h]

theorem readLine_field {common : Bool} {m : Nat} {s : State} (hs : s.Synced)
    (hr : s.roomFor (indexBits common + m))
    (hi : common = false → s.field s.bitPos 13 ≤ 6560) :
    ∃ r, readLine common s = .ok r ∧ r.1 = lineAt s common s.bitPos ∧ r.2.Synced ∧
      r.2.bitPos = s.bitPos + indexBits common ∧ CursorOnly s r.2 ∧ r.2.roomFor m := by
  cases common
  · obtain ⟨r, hr, hv, h⟩ := readIdx13_field (m := m) hs hr
    have hb : r.1 ≤ 6560 := by rw [hv]; exact hi rfl
    refine ⟨(fullEntry r.1, r.2), ?_, by rw [hv]; rfl, h⟩
    unfold readLine
    simp only [Bool.false_eq_true, if_false, hr, Run.bind_ok, fullLine_ok hb]
  · obtain ⟨r, hr, hv, h⟩ := readIdx5_field (m := m) hs hr
    refine ⟨(commonEntry s.cfg r.1, r.2), ?_, by rw [hv]; rfl, h⟩
    unfold readLine
    simp only [if_true, hr, Run.bind_ok]

theorem readLine_badIndex {s : State} (hs : s.Synced) (hr : s.roomFor 13)
    (hi : 6560 < s.field s.bitPos 13) :
    readLine false s = .error ⟨.badIndex, s.field s.bitPos 13⟩ := by
  obtain ⟨r, hr, hv, -⟩ := readIdx13_field (m := 0) hs hr
  rw [← hv] at hi ⊢
  simp only [readLine, Bool.false_eq_true, if_false, hr, Run.bind_ok, fullLine_bad hi, Run.bind_error]

/-! ## The tile types -/

theorem replicate_getD (l : Line) {r : Nat} (h : r < 8) : (List.replicate 8 l).getD r default = l := by
  rw [List.getD_eq_getElem _ _ (by simpa using h)]
  exact List.getElem_replicate _

/-- Tile type 0 (43_frame_b.md R249). -/
theorem tileCommonBody_read {s : State} (hs : s.Synced) (hr : s.roomFor 5) :
    ∃ t, tileCommonBody s = .ok t ∧
      TileRead s t 5 fun _ => commonEntry s.cfg (BitVec.ofNat 5 (s.field s.bitPos 5)) := by
  obtain ⟨r, hr, hv, h1, h2, h3, -⟩ := readIdx5_field (m := 0) hs hr
  exact ⟨_, by simp only [tileCommonBody, hr, Run.bind_ok]; rfl, _, _, rfl, h3, h1, h2, by simp,
    fun i hi => by rw [replicate_getD _ hi, hv]⟩

/-- Tile type 1 (43_frame_b.md R250). -/
theorem tileFullBody_read {s : State} (hs : s.Synced) (hr : s.roomFor 13)
    (hi : s.field s.bitPos 13 ≤ 6560) :
    ∃ t, tileFullBody s = .ok t ∧ TileRead s t 13 fun _ => fullEntry (s.field s.bitPos 13) := by
  obtain ⟨r, hr, hv, h1, h2, h3, -⟩ := readIdx13_field (m := 0) hs hr
  exact ⟨_, by simp only [tileFullBody, hr, Run.bind_ok, fullLine_ok (hv ▸ hi)]; rfl, _, _, rfl, h3, h1, h2,
    by simp, fun i hi => by rw [replicate_getD _ hi, hv]⟩

theorem altRows_getD (l0 l1 : Line) {r : Nat} (h : r < 8) :
    (altRows l0 l1).getD r default = if r % 2 = 0 then l0 else l1 := by
  have : r = 0 ∨ r = 1 ∨ r = 2 ∨ r = 3 ∨ r = 4 ∨ r = 5 ∨ r = 6 ∨ r = 7 := by omega
  rcases this with rfl | rfl | rfl | rfl | rfl | rfl | rfl | rfl <;> rfl

/-- Tile type 2 (43_frame_b.md R251). -/
theorem tileCommonAltBody_read {s : State} (hs : s.Synced) (hr : s.roomFor 5) :
    ∃ t, tileCommonAltBody s = .ok t ∧
      TileRead s t 5 fun r =>
        if r % 2 = 0 then commonEntry s.cfg (BitVec.ofNat 5 (s.field s.bitPos 5))
        else commonShiftEntry s.cfg (BitVec.ofNat 5 (s.field s.bitPos 5)) := by
  obtain ⟨r, hr, hv, h1, h2, h3, -⟩ := readIdx5_field (m := 0) hs hr
  exact ⟨_, by simp only [tileCommonAltBody, hr, Run.bind_ok]; rfl, _, _, rfl, h3, h1, h2, rfl,
    fun i hi => by rw [altRows_getD _ _ hi, hv]⟩

/-- Tile type 3 (43_frame_b.md R252). -/
theorem tileFullAltBody_read {s : State} (hs : s.Synced) (hr : s.roomFor 13)
    (hi : s.field s.bitPos 13 ≤ 6560) :
    ∃ t, tileFullAltBody s = .ok t ∧
      TileRead s t 13 fun r =>
        if r % 2 = 0 then fullEntry (s.field s.bitPos 13) else shiftEntry (s.field s.bitPos 13) := by
  obtain ⟨r, hr, hv, h1, h2, h3, -⟩ := readIdx13_field (m := 0) hs hr
  exact ⟨_, by
    simp only [tileFullAltBody, hr, Run.bind_ok, fullLine_ok (hv ▸ hi), shiftLine_ok (hv ▸ hi)]
    rfl, _, _, rfl, h3, h1, h2, rfl, fun i hi => by rw [altRows_getD _ _ hi, hv]⟩

/-- Tile type 5 (43_frame_b.md R254). -/
theorem tileSkipBody_ok {s : State} (hs : s.Synced) (hr : s.roomFor 5) :
    ∃ t, tileSkipBody s = .ok t ∧ t.Synced ∧ t.bitPos = s.bitPos + 5 ∧
      t = { s with
        offset := t.offset
        acc := t.acc
        dfc := t.dfc
        inner := { s.inner with skip := BitVec.ofNat 5 (s.field s.bitPos 5) } } := by
  obtain ⟨r, hr, hv, h1, h2, h3, -⟩ := readBits_field (m := 0) hs (by omega) (by omega) hr
  refine ⟨{ r.2 with inner := { r.2.inner with skip := r.1.setWidth 5 } },
    by simp only [tileSkipBody, hr, Run.bind_ok],
    ⟨h1.low, h1.high, h1.origin, h1.window, h1.above⟩, h2, ?_⟩
  rw [setWidth_ofNat hv]
  simp only
  rw [h3]

theorem lineAt_congr {s t : State} (h : CursorOnly s t) (common : Bool) (pos : Nat) :
    lineAt t common pos = lineAt s common pos := by
  have hc : t.cfg = s.cfg := by rw [h]
  simp only [lineAt, hc, field_congr h.mem]

/-- Rows r to r + n − 1 of a type 4 record whose row indices begin at `base`. -/
theorem perRow_field {flags : Byte} {base : Nat} {n : Nat} {r : Nat} {s : State} (hs : s.Synced)
    (hp : s.bitPos = base + rowIndexPos flags r)
    (hr : s.roomFor (rowIndexPos flags (r + n) - rowIndexPos flags r))
    (hi : ∀ i, r ≤ i → i < r + n → flags.getLsbD i = false →
      s.field (base + rowIndexPos flags i) 13 ≤ 6560) :
    ∃ x, perRow flags r n s = .ok x ∧ x.1.length = n ∧
      (∀ i, i < n → x.1.getD i default =
        lineAt s (flags.getLsbD (r + i)) (base + rowIndexPos flags (r + i))) ∧
      x.2.Synced ∧ x.2.bitPos = base + rowIndexPos flags (r + n) ∧ CursorOnly s x.2 := by
  induction n generalizing r s with
  | zero => exact ⟨_, rfl, rfl, fun i hi => absurd hi (by omega), hs, hp, rfl⟩
  | succ n ih =>
    have hmono : rowIndexPos flags (r + 1) ≤ rowIndexPos flags (r + 1 + n) := by
      clear hs hp hr hi ih
      induction n with
      | zero => exact Nat.le_refl _
      | succ n ih => exact Nat.le_trans ih (Nat.le_add_right _ _)
    have hstep : rowIndexPos flags (r + 1) = rowIndexPos flags r + indexBits (flags.getLsbD r) := rfl
    obtain ⟨l, hl, hv, h1, h2, h3, h4⟩ := readLine_field
      (common := flags.getLsbD r) (m := rowIndexPos flags (r + 1 + n) - rowIndexPos flags (r + 1)) hs
      (by
        rw [show r + (n + 1) = r + 1 + n by omega] at hr
        rwa [show indexBits (flags.getLsbD r) +
          (rowIndexPos flags (r + 1 + n) - rowIndexPos flags (r + 1)) =
          rowIndexPos flags (r + 1 + n) - rowIndexPos flags r by omega])
      (fun hf => by rw [hp]; exact hi r (Nat.le_refl _) (by omega) hf)
    obtain ⟨x, hx, hlen, hrow, g1, g2, g3⟩ := ih (r := r + 1) (s := l.2) h1
      (by rw [h2, hp, hstep]; omega) h4
      (fun i h5 h6 h7 => by
        rw [field_congr h3.mem]
        exact hi i (by omega) (by omega) h7)
    refine ⟨(l.1 :: x.1, x.2), by simp only [perRow, hl, Run.bind_ok, hx], by simp [hlen],
      fun i hin => ?_, g1, by rw [g2]; congr 2; omega, h3.trans g3⟩
    cases i with
    | zero => simp only [List.getD_cons_zero, hv, hp, Nat.add_zero]
    | succ i =>
      simp only [List.getD_cons_succ]
      rw [hrow i (by omega), lineAt_congr h3, show r + 1 + i = r + (i + 1) by omega]

/-- Tile type 4 (43_frame_b.md R253). -/
theorem tileRowsBody_read {s : State} (hs : s.Synced)
    (hr : s.roomFor (8 + rowIndexPos (BitVec.ofNat 8 (s.field s.bitPos 8)) 8))
    (hi : ∀ r, r < 8 → (BitVec.ofNat 8 (s.field s.bitPos 8)).getLsbD r = false →
      s.field (s.bitPos + 8 + rowIndexPos (BitVec.ofNat 8 (s.field s.bitPos 8)) r) 13 ≤ 6560) :
    ∃ t, tileRowsBody s = .ok t ∧
      TileRead s t (8 + rowIndexPos (BitVec.ofNat 8 (s.field s.bitPos 8)) 8) fun r =>
        lineAt s ((BitVec.ofNat 8 (s.field s.bitPos 8)).getLsbD r)
          (s.bitPos + 8 + rowIndexPos (BitVec.ofNat 8 (s.field s.bitPos 8)) r) := by
  obtain ⟨f, hf, hv, h1, h2, h3, h4⟩ := readBits_field hs (by omega) (by omega) hr
  have hflags := setWidth_ofNat (n := 8) hv
  generalize BitVec.ofNat 8 (s.field s.bitPos 8) = flags at *
  obtain ⟨x, hx, hlen, hrow, g1, g2, g3⟩ := perRow_field (flags := flags) (base := s.bitPos + 8)
    (n := 8) (r := 0) (s := f.2) h1 (by rw [h2]; rfl)
    (by simpa [rowIndexPos] using h4)
    (fun i _ h6 h7 => by
      rw [field_congr h3.mem]
      exact hi i (by omega) h7)
  exact ⟨writeTile x.1 x.2, by simp only [tileRowsBody, hf, Run.bind_ok, hflags, hx], _, _, rfl, h3.trans g3,
    g1, by rw [g2]; simp only [Nat.zero_add]; omega, hlen,
    fun r hr8 => by rw [hrow r hr8, lineAt_congr h3, Nat.zero_add]⟩

theorem patternRows_getD (q : BitVec 2) (a b : Line) {r : Nat} (h : r < 8) :
    (patternRows q a b).getD r default = if patternTakesA q r then a else b := by
  rw [List.getD_eq_getElem _ _ (by simpa [patternRows] using h)]
  simp [patternRows]

/-- Tile type 7 (43_frame_b.md R256, R257). -/
theorem tilePatternBody_read {s : State} {common : Bool} (hs : s.Synced)
    (hc : common = s.streamBit (s.bitPos + 2)) (hr : s.roomFor (3 + 2 * indexBits common))
    (hi : common = false → s.field (s.bitPos + 3) 13 ≤ 6560 ∧ s.field (s.bitPos + 16) 13 ≤ 6560) :
    ∃ t, tilePatternBody s = .ok t ∧
      TileRead s t (3 + 2 * indexBits common) fun r =>
        if patternTakesA (BitVec.ofNat 2 (s.field s.bitPos 2 + if common then 1 else 0)) r then
          lineAt s common (s.bitPos + 3)
        else lineAt s common (s.bitPos + 3 + indexBits common) := by
  obtain ⟨q, hq, qv, q1, q2, q3, q4⟩ := readBits_field (n := 2) (m := 1 + 2 * indexBits common) hs
    (by omega) (by omega) (by rwa [show 2 + (1 + 2 * indexBits common) = 3 + 2 * indexBits common by omega])
  obtain ⟨d, hd, dv, d1, d2, d3, d4⟩ := readBits_field (n := 1) (m := 2 * indexBits common) q1
    (by omega) (by omega) q4
  have hsel : d.1.getLsbD 0 = common := by
    rw [BitVec.getLsbD, dv, State.testBit_field, streamBit_congr q3.mem, q2, hc]
    simp
  have hpd : d.2.bitPos = s.bitPos + 3 := by rw [d2, q2]
  have hod : CursorOnly s d.2 := q3.trans d3
  obtain ⟨a, ha, av, a1, a2, a3, a4⟩ := readLine_field (common := common) (m := indexBits common) d1
    (by rwa [show indexBits common + indexBits common = 2 * indexBits common by omega])
    (fun h => by rw [hpd, field_congr hod.mem]; exact (hi h).1)
  have hpa : a.2.bitPos = s.bitPos + 3 + indexBits common := by rw [a2, hpd]
  have hoa : CursorOnly s a.2 := hod.trans a3
  obtain ⟨b, hb, bv, b1, b2, b3, -⟩ := readLine_field (common := common) (m := 0) a1 a4
    (fun h => by
      rw [hpa, field_congr hoa.mem, h]
      exact (hi h).2)
  refine ⟨_, by simp only [tilePatternBody, hq, Run.bind_ok, hd, hsel, ha, hb]; rfl, _, _, rfl, hoa.trans b3, b1,
    by rw [b2, hpa]; omega, by simp [patternRows], fun r hr8 => ?_⟩
  rw [patternRows_getD _ _ _ hr8]
  have hpat : (if common then q.1.setWidth 2 + 1#2 else q.1.setWidth 2) =
      BitVec.ofNat 2 (s.field s.bitPos 2 + if common then 1 else 0) := by
    rw [setWidth_ofNat qv]
    cases common
    · rfl
    · simp only [if_true]
      apply BitVec.eq_of_toNat_eq
      simp
  rw [hpat, av, bv, lineAt_congr hod, lineAt_congr hoa, hpd, hpa]

/-! ## The dictionary and the traversal as bijections -/

/-- The number that names a line of the full dictionary (43_frame_b.md R242). -/
def lineNumber (l : Line) : Nat :=
  2187 * l.px1.val + 729 * l.px0.val + 243 * l.px3.val + 81 * l.px2.val + 27 * l.px5.val + 9 * l.px4.val +
    3 * l.px7.val + l.px6.val

theorem digit3_val (v w : Nat) : (digit3 v w).val = v / w % 3 := rfl

theorem lineNumber_fullEntry {v : Nat} (h : v ≤ 6560) : lineNumber (fullEntry v) = v := by
  simp only [lineNumber, fullEntry, digit3_val]
  omega

theorem lineNumber_le (l : Line) : lineNumber l ≤ 6560 := by
  have := l.px0.isLt; have := l.px1.isLt; have := l.px2.isLt; have := l.px3.isLt
  have := l.px4.isLt; have := l.px5.isLt; have := l.px6.isLt; have := l.px7.isLt
  unfold lineNumber; omega

theorem fullEntry_lineNumber (l : Line) : fullEntry (lineNumber l) = l := by
  have := l.px0.isLt; have := l.px1.isLt; have := l.px2.isLt; have := l.px3.isLt
  have := l.px4.isLt; have := l.px5.isLt; have := l.px6.isLt; have := l.px7.isLt
  obtain ⟨a, b, c, d, e, f, g, h⟩ := l
  simp only [fullEntry, lineNumber, Line.mk.injEq]
  refine ⟨?_, ?_, ?_, ?_, ?_, ?_, ?_, ?_⟩ <;> apply Fin.ext <;> rw [digit3_val] <;> simp only at * <;> omega

theorem rotate_inj {l l' : Line} (h : rotateLine l = rotateLine l') : l = l' := by
  cases l; cases l'; simp only [rotateLine, Line.mk.injEq] at h ⊢; tauto

/-- Every tile is in the traversal (43_frame_b.md R247). -/
theorem tileOrder_all {cx cy : Nat} (hx : cx < 40) (hy : cy < 30) : (8 * cx, 8 * cy) ∈ tileOrder := by
  simp only [tileOrder, List.mem_flatMap]
  refine ⟨128 * (cy / 16), ?_, 128 * (cx / 16), ?_, cy % 16, List.mem_range.2 (by omega), ?_⟩
  · have : cy / 16 < 2 := by omega
    interval_cases cy / 16 <;> simp
  · have : cx / 16 < 3 := by omega
    interval_cases cx / 16 <;> simp
  · rw [if_pos (by omega), List.mem_flatMap]
    refine ⟨cx % 16, List.mem_range.2 (by omega), ?_⟩
    rw [if_pos (by omega), List.mem_singleton, Prod.mk.injEq]
    omega

/-- No tile is visited twice (43_frame_b.md R247). -/
theorem tileOrder_nodup : tileOrder.Nodup := by
  have hsub : ((Finset.range 40 ×ˢ Finset.range 30).image fun p : Nat × Nat => (8 * p.1, 8 * p.2)) ⊆ tileOrder.toFinset := by
    intro e he
    obtain ⟨p, hp, rfl⟩ := Finset.mem_image.1 he
    rw [Finset.mem_product, Finset.mem_range, Finset.mem_range] at hp
    exact List.mem_toFinset.2 (tileOrder_all hp.1 hp.2)
  have hcard := Finset.card_le_card hsub
  rw [Finset.card_image_of_injective _ (by rintro ⟨a, b⟩ ⟨c, d⟩ h; simp only [Prod.mk.injEq] at h ⊢; omega), Finset.card_product,
    Finset.card_range, Finset.card_range] at hcard
  have hle := List.toFinset_card_le tileOrder
  have hl := tileOrder_length
  exact Multiset.coe_nodup.1 ((Multiset.toFinset_card_eq_card_iff_nodup (m := (tileOrder : Multiset (Nat × Nat)))).1 (by
    show tileOrder.toFinset.card = tileOrder.length
    omega))

theorem slotXY_eq {slot : Nat} (h : slot < 1200) :
    slotXY slot = tileOrder[slot]'(by rw [tileOrder_length]; exact h) := by
  rw [slotXY, List.getD_eq_getElem _ _ (by rw [tileOrder_length]; exact h)]

theorem slotXY_inj {i j : Nat} (hi : i < 1200) (hj : j < 1200) (h : slotXY i = slotXY j) : i = j := by
  rw [slotXY_eq hi, slotXY_eq hj] at h
  exact (List.Nodup.getElem_inj_iff tileOrder_nodup).1 h

theorem slotXY_surj {cx cy : Nat} (hx : cx < 40) (hy : cy < 30) :
    ∃ slot, slot < 1200 ∧ slotXY slot = (8 * cx, 8 * cy) := by
  obtain ⟨i, hi, he⟩ := List.getElem_of_mem (tileOrder_all hx hy)
  rw [tileOrder_length] at hi
  exact ⟨i, hi, by rw [slotXY_eq hi, he]⟩

/-- Which tile a pixel is in (43_frame_b.md R259). -/
theorem inTile_iff {slot x y : Nat} (hs : slot < 1200) (hx : x < 320) :
    inTile (slotXY slot).1 (slotXY slot).2 (320 * y + x) ↔ slotXY slot = (8 * (x / 8), 8 * (y / 8)) := by
  obtain ⟨h1, h2, h3, h4⟩ := slotXY_bounds hs
  unfold inTile
  rw [show (320 * y + x) % 320 = x by omega, show (320 * y + x) / 320 = y by omega]
  constructor
  · intro h; apply Prod.ext <;> simp only <;> omega
  · intro h; rw [h]; simp only; omega

/-- The length of a type 4 record (30_encoding.md R108). -/
theorem rowIndexPos_eight (f : Byte) :
    8 + rowIndexPos f 8 = 112 - 8 * ((List.range 8).filter fun r => f.getLsbD r).length := by
  revert f; decide +kernel

/-- The pattern table (43_frame_b.md R257). -/
theorem patternTakesA_iff (q : BitVec 2) (r : Nat) : patternTakesA q r = true ↔
    ((q.toNat = 0 ∧ r % 2 = 0) ∨ (q.toNat = 1 ∧ r % 3 ≠ 2) ∨ (q.toNat = 2 ∧ r % 3 ≠ 1) ∨ (q.toNat = 3 ∧ r % 3 = 0)) := by
  have : q = 0#2 ∨ q = 1#2 ∨ q = 2#2 ∨ q = 3#2 := by revert q; decide
  rcases this with rfl | rfl | rfl | rfl <;> simp [patternTakesA]

/-- A bad index in a row raises when it is read (43_frame_b.md R279). -/
theorem perRow_badIndex {flags : Byte} {base : Nat} {n : Nat} : ∀ {r : Nat} {s : State} {k : Nat}, s.Synced →
    s.bitPos = base + rowIndexPos flags r → r ≤ k → k < r + n →
    s.roomFor (rowIndexPos flags (k + 1) - rowIndexPos flags r) →
    (∀ i, r ≤ i → i < k → flags.getLsbD i = false → s.field (base + rowIndexPos flags i) 13 ≤ 6560) →
    flags.getLsbD k = false → 6560 < s.field (base + rowIndexPos flags k) 13 →
    perRow flags r n s = .error ⟨.badIndex, s.field (base + rowIndexPos flags k) 13⟩ := by
  have mono : ∀ a b, a ≤ b → rowIndexPos flags a ≤ rowIndexPos flags b := by
    intro a b h
    induction h with
    | refl => exact Nat.le_refl _
    | step _ ih => simp only [rowIndexPos]; omega
  induction n with
  | zero => intro r s k _ _ h1 h2; omega
  | succ n ih =>
    intro r s k hs hp h1 h2 hr hi hk hb
    by_cases hrk : r = k
    · subst hrk
      have : rowIndexPos flags (r + 1) - rowIndexPos flags r = 13 := by simp only [rowIndexPos, hk, indexBits]; simp
      rw [this] at hr
      rw [← hp] at hb
      simp only [perRow, hk, readLine_badIndex hs hr hb, Run.bind_error, ← hp]
    · have hm := mono (r + 1) (k + 1) (by omega)
      have e : rowIndexPos flags (k + 1) - rowIndexPos flags r = indexBits (flags.getLsbD r) + (rowIndexPos flags (k + 1) - rowIndexPos flags (r + 1)) := by
        have : rowIndexPos flags (r + 1) = rowIndexPos flags r + indexBits (flags.getLsbD r) := rfl
        omega
      rw [e] at hr
      obtain ⟨x, e1, e2, e3, e4, e5, e6⟩ := readLine_field hs hr (fun h => by rw [hp]; exact hi r (by omega) (by omega) h)
      have hf : ∀ p n, x.2.field p n = s.field p n := fun p n => field_congr e5.mem p n
      have := ih (r := r + 1) (s := x.2) (k := k) e3 (by rw [e4, hp]; simp only [rowIndexPos]; omega) (by omega) (by omega) e6
        (fun i h3 h4 h5 => by rw [hf]; exact hi i (by omega) h4 h5) hk (by rw [hf]; exact hb)
      rw [hf] at this
      simp only [perRow, e1, Run.bind_ok, this, Run.bind_error]

end Sys2Proof.Machine
end

