-- ==== Sys2Proof/Laws/FrameBSeq.lean ====
section
/-! SUPPORT. The laws of format B layers and frames: what a record, a layer and a sequenced decode may change
(43_frame_b.md R245 to R260, R270 to R277), and when they complete. -/

namespace Sys2Proof.Machine

/-- The format B buffers are canonical and the cursors are legal. -/
def GoodB (s : State) : Prop := s.lB.ok ∧ s.CursorLegal

/-- What a tile record may change: the cursors, the layer being decoded, and `SKIP`. -/
structure TileStepB (s t : State) : Prop where
  only : t = { s with offset := t.offset, acc := t.acc, dfc := t.dfc, lB := t.lB, inner := t.inner }
  inner : t.inner = { s.inner with skip := t.inner.skip }
  other : ∀ k, k ≠ s.inner.layerB → t.lB.layer k = s.lB.layer k
  good : GoodB s → GoodB t
  even : t.offset.toNat % 2 = s.offset.toNat % 2

theorem TileStepB.refl (s : State) : TileStepB s s := ⟨rfl, rfl, fun _ _ => rfl, id, rfl⟩

theorem TileStepB.layerB {s t : State} (h : TileStepB s t) : t.inner.layerB = s.inner.layerB := by
  rw [h.inner]

theorem TileStepB.trans {s t u : State} (h : TileStepB s t) (h' : TileStepB t u) : TileStepB s u := by
  refine ⟨?_, ?_, fun k hk => ?_, fun hg => h'.good (h.good hg), h'.even.trans h.even⟩
  · have h1 := h.only
    have h2 := h'.only
    rw [h2]
    rw [h1]
  · have h1 := h.inner
    have h2 := h'.inner
    rw [h2]
    rw [h1]
  · rw [h'.other k (by rw [h.layerB]; exact hk), h.other k hk]

theorem CursorLegal.of_eq {s t : State} (h : s.CursorLegal) (h1 : t.dfc = s.dfc) (h2 : t.acc = s.acc)
    (h3 : t.offset = s.offset) (h4 : t.len = s.len) : t.CursorLegal :=
  ⟨by rw [h1]; exact h.low, by rw [h1]; exact h.high, by rw [h1, h2]; exact h.acc,
    by rw [h3, h4]; exact h.offset⟩

/-- The bit cursor loads whole words (40_cursor.md R129). -/
theorem readBits_even {n : Nat} {s : State} {r : Word × State} (h : readBits n s = .ok r) :
    r.2.offset.toNat % 2 = s.offset.toNat % 2 := by
  rcases readBits_cases n s with ⟨_, he⟩ | ⟨_, hb, he⟩ | ⟨_, _, he⟩ <;> rw [he] at h
  · obtain rfl := Except.ok.inj h
    rfl
  · obtain rfl := Except.ok.inj h
    have := State.advance_toNat hb
    simp only [takeBits]
    omega
  · simp at h

theorem readBits_tileStep {n : Nat} {s : State} {r : Word × State} (hn : 1 ≤ n) (hn' : n ≤ 16)
    (h : readBits n s = .ok r) : TileStepB s r.2 := by
  have hc : CursorOnly s r.2 := by
    rcases readBits_cases n s with ⟨_, he⟩ | ⟨_, _, he⟩ | ⟨_, _, he⟩ <;> rw [he] at h
    · obtain rfl := Except.ok.inj h; rfl
    · obtain rfl := Except.ok.inj h; rfl
    · simp at h
  have hl : r.2.lB = s.lB := by rw [hc]
  have hi : r.2.inner = s.inner := by rw [hc]
  refine ⟨?_, ?_, fun k _ => by rw [hl],
    fun hg => ⟨by rw [hl]; exact hg.1, (readBits_legal hg.2 hn hn' h).1⟩, readBits_even h⟩
  · rw [hc]
  · rw [hi]

theorem writeTile_tileStep {rows : List Line} (hr : rows.length = 8) (s : State) :
    TileStepB s (writeTile rows s) := by
  have hw := writeTile_only rows s
  refine ⟨?_, ?_, fun k hk => writeTile_other hk, fun hg => ⟨(writeTile_pixel hg.1 hr).1, ?_⟩, by rw [hw]⟩
  · rw [hw]
  · rw [hw]
  · exact CursorLegal.of_eq hg.2 (by rw [hw]) (by rw [hw]) (by rw [hw]) (by rw [hw])

theorem readIdx5_tileStep {s : State} {r : BitVec 5 × State} (h : readIdx5 s = .ok r) :
    TileStepB s r.2 := by
  obtain ⟨a, ha, h⟩ := Run.bind_eq_ok.1 h
  obtain rfl := Except.ok.inj h
  exact readBits_tileStep (by omega) (by omega) ha

theorem readIdx13_tileStep {s : State} {r : Nat × State} (h : readIdx13 s = .ok r) :
    TileStepB s r.2 := by
  obtain ⟨a, ha, h⟩ := Run.bind_eq_ok.1 h
  obtain rfl := Except.ok.inj h
  exact readBits_tileStep (by omega) (by omega) ha

theorem readLine_tileStep {c : Bool} {s : State} {r : Line × State} (h : readLine c s = .ok r) :
    TileStepB s r.2 := by
  unfold readLine at h
  split at h
  · obtain ⟨a, ha, h⟩ := Run.bind_eq_ok.1 h
    obtain rfl := Except.ok.inj h
    exact readIdx5_tileStep ha
  · obtain ⟨a, ha, h⟩ := Run.bind_eq_ok.1 h
    obtain ⟨l, -, h⟩ := Run.bind_eq_ok.1 h
    obtain rfl := Except.ok.inj h
    exact readIdx13_tileStep ha

theorem perRow_tileStep {flags : Byte} {r n : Nat} {s : State} {x : List Line × State}
    (h : perRow flags r n s = .ok x) : TileStepB s x.2 ∧ x.1.length = n := by
  induction n generalizing r s x with
  | zero =>
    obtain rfl := Except.ok.inj h
    exact ⟨TileStepB.refl _, rfl⟩
  | succ n ih =>
    obtain ⟨l, hl, h⟩ := Run.bind_eq_ok.1 h
    obtain ⟨ls, hls, h⟩ := Run.bind_eq_ok.1 h
    obtain rfl := Except.ok.inj h
    obtain ⟨h1, h2⟩ := ih hls
    exact ⟨(readLine_tileStep hl).trans h1, by simp [h2]⟩

theorem setSkip_tileStep (s : State) (v : BitVec 5) :
    TileStepB s { s with inner := { s.inner with skip := v } } :=
  ⟨rfl, rfl, fun _ _ => rfl, fun hg => ⟨hg.1, CursorLegal.of_eq hg.2 rfl rfl rfl rfl⟩, rfl⟩

/-- One lemma for the eight tile types. -/
theorem tileBody_tileStep {ty : BitVec 3} {s t : State} (h : tileBody ty s = .ok t) : TileStepB s t := by
  unfold tileBody at h
  split at h
  · obtain ⟨r, hr, h⟩ := Run.bind_eq_ok.1 h
    obtain rfl := Except.ok.inj h
    exact (readIdx5_tileStep hr).trans (writeTile_tileStep (by simp) _)
  split at h
  · obtain ⟨r, hr, h⟩ := Run.bind_eq_ok.1 h
    obtain ⟨l, -, h⟩ := Run.bind_eq_ok.1 h
    obtain rfl := Except.ok.inj h
    exact (readIdx13_tileStep hr).trans (writeTile_tileStep (by simp) _)
  split at h
  · obtain ⟨r, hr, h⟩ := Run.bind_eq_ok.1 h
    obtain rfl := Except.ok.inj h
    exact (readIdx5_tileStep hr).trans (writeTile_tileStep rfl _)
  split at h
  · obtain ⟨r, hr, h⟩ := Run.bind_eq_ok.1 h
    obtain ⟨l, -, h⟩ := Run.bind_eq_ok.1 h
    obtain ⟨l', -, h⟩ := Run.bind_eq_ok.1 h
    obtain rfl := Except.ok.inj h
    exact (readIdx13_tileStep hr).trans (writeTile_tileStep rfl _)
  split at h
  · obtain ⟨f, hf, h⟩ := Run.bind_eq_ok.1 h
    obtain ⟨r, hr, h⟩ := Run.bind_eq_ok.1 h
    obtain rfl := Except.ok.inj h
    obtain ⟨h1, h2⟩ := perRow_tileStep hr
    exact ((readBits_tileStep (by omega) (by omega) hf).trans h1).trans (writeTile_tileStep h2 _)
  split at h
  · obtain ⟨r, hr, h⟩ := Run.bind_eq_ok.1 h
    obtain rfl := Except.ok.inj h
    exact (readBits_tileStep (by omega) (by omega) hr).trans (setSkip_tileStep _ _)
  split at h
  · unfold tileReservedBody at h
    split at h
    · simp at h
    · obtain rfl := Except.ok.inj h
      exact TileStepB.refl _
  · obtain ⟨q, hq, h⟩ := Run.bind_eq_ok.1 h
    obtain ⟨d, hd, h⟩ := Run.bind_eq_ok.1 h
    obtain ⟨a, ha, h⟩ := Run.bind_eq_ok.1 h
    obtain ⟨b, hb, h⟩ := Run.bind_eq_ok.1 h
    obtain rfl := Except.ok.inj h
    exact ((((readBits_tileStep (by omega) (by omega) hq).trans
      (readBits_tileStep (by omega) (by omega) hd)).trans (readLine_tileStep ha)).trans
      (readLine_tileStep hb)).trans (writeTile_tileStep (by simp [patternRows]) _)

theorem readTileType_tileStep {s : State} {r : BitVec 3 × State} (h : readTileType s = .ok r) :
    TileStepB s r.2 := by
  obtain ⟨a, ha, h⟩ := Run.bind_eq_ok.1 h
  obtain rfl := Except.ok.inj h
  exact readBits_tileStep (by omega) (by omega) ha

theorem decodeTileRecord_tileStep {s t : State} (h : decodeTileRecord s = .ok t) : TileStepB s t := by
  obtain ⟨r, hr, h⟩ := Run.bind_eq_ok.1 h
  exact (readTileType_tileStep hr).trans (tileBody_tileStep h)

theorem slotBody_tileStep {s t : State} (h : slotBody s = .ok t) : TileStepB s t := by
  unfold slotBody at h
  split at h
  · obtain rfl := Except.ok.inj h
    exact setSkip_tileStep _ _
  · exact decodeTileRecord_tileStep h

/-- What the tile loop may change. -/
structure LayerStepB (s t : State) : Prop where
  only : t = { s with offset := t.offset, acc := t.acc, dfc := t.dfc, lB := t.lB, inner := t.inner }
  layerB : t.inner.layerB = s.inner.layerB
  other : ∀ k, k ≠ s.inner.layerB → t.lB.layer k = s.lB.layer k
  good : GoodB s → GoodB t

theorem LayerStepB.refl (s : State) : LayerStepB s s := ⟨rfl, rfl, fun _ _ => rfl, id⟩

theorem LayerStepB.trans {s t u : State} (h : LayerStepB s t) (h' : LayerStepB t u) : LayerStepB s u := by
  refine ⟨?_, h'.layerB.trans h.layerB, fun k hk => ?_, fun hg => h'.good (h.good hg)⟩
  · have h1 := h.only
    have h2 := h'.only
    rw [h2]
    rw [h1]
  · rw [h'.other k (by rw [h.layerB]; exact hk), h.other k hk]

theorem decodeSlot_layerStep {slot : Nat} {s t : State} (h : decodeSlot slot s = .ok t) :
    LayerStepB s t := by
  have h1 := slotBody_tileStep h
  refine ⟨?_, h1.layerB, h1.other, fun hg =>
    h1.good ⟨hg.1, CursorLegal.of_eq hg.2 rfl rfl rfl rfl⟩⟩
  have h2 := h1.only
  rw [h2]
  rfl

theorem tileLoop_layerStep {i n : Nat} {s t : State} (h : forRange decodeSlot i n s = .ok t) :
    LayerStepB s t :=
  forRange_induct (P := fun _ u => LayerStepB s u) (LayerStepB.refl s)
    (fun _ _ _ _ _ hu hv => hu.trans (decodeSlot_layerStep hv)) h

/-- A completed layer decode changes the cursors and that layer only; the buffers stay canonical and the
cursors are legal after it (43_frame_b.md R245). -/
theorem decodeLayerB_spec {k : Fin 3} {p : Nat} {s t : State} (h : decodeLayerB k p s = .ok t) :
    p ≤ s.len.toNat ∧
    t = { s with
      offset := t.offset, acc := t.acc, dfc := t.dfc, lB := t.lB, inner := Inner.idle } ∧
    (∀ k', k' ≠ k → t.lB.layer k' = s.lB.layer k') ∧
    (s.lB.ok → t.lB.ok ∧ t.CursorLegal) := by
  unfold decodeLayerB at h
  split at h
  · simp at h
  · rename_i hp
    obtain ⟨r, hr, h⟩ := Run.bind_eq_ok.1 h
    obtain rfl := Except.ok.inj h
    have h1 := tileLoop_layerStep hr
    have hl := s.len.isLt
    refine ⟨by omega, ?_, h1.other, fun hok => ?_⟩
    · have h2 := h1.only
      rw [h2]
      rfl
    · have hg : GoodB (s.openLayerB k p) := by
        refine ⟨hok, by simp, by simp, by simp, ?_⟩
        simp only [State.openLayerB_offset, State.openLayerB_len, BitVec.toNat_ofNat]
        omega
      obtain ⟨g1, g2⟩ := h1.good hg
      exact ⟨g1, CursorLegal.of_eq g2 rfl rfl rfl rfl⟩

/-! ## Frames -/

/-- What a sequenced decode may change (43_frame_b.md R272). -/
structure FrameStepB (s t : State) : Prop where
  only : t = { s with
    offset := t.offset, acc := t.acc, dfc := t.dfc, lB := t.lB, inner := t.inner, lastB := t.lastB }
  inner : t.inner = s.inner ∨ t.inner = Inner.idle
  good : GoodB s → GoodB t

theorem FrameStepB.refl (s : State) : FrameStepB s s := ⟨rfl, .inl rfl, id⟩

theorem FrameStepB.trans {s t u : State} (h : FrameStepB s t) (h' : FrameStepB t u) : FrameStepB s u := by
  refine ⟨?_, ?_, fun hg => h'.good (h.good hg)⟩
  · have h1 := h.only
    have h2 := h'.only
    rw [h2]
    rw [h1]
  · rcases h'.inner with h2 | h2
    · rw [h2]
      exact h.inner
    · exact .inr h2

theorem FrameStepB.same {s t : State} (h : FrameStepB s t) : SameInput s t := by
  have h1 := h.only
  refine ⟨?_, ?_, ?_⟩ <;> rw [h1]

/-- A layer of a frame is decoded unless it is the sentinel or masked out (43_frame_b.md R272, R274). -/
theorem layerIfB_eq (k : Fin 3) (size p : Nat) (mask : BitVec 3) (s : State) :
    layerIfB k size mask p s =
      if size = 38 ∨ mask.getLsbD k.val = false then .ok s else decodeLayerB k p s := by
  unfold layerIfB runIf
  by_cases h : size = 38 <;> cases mask.getLsbD k.val <;> simp [h, Config.sentinelB]

theorem layerIfB_skip {k : Fin 3} {size p : Nat} {mask : BitVec 3} {s : State}
    (h : size = 38 ∨ mask.getLsbD k.val = false) : layerIfB k size mask p s = .ok s := by
  rw [layerIfB_eq, if_pos h]

theorem layerIfB_spec {k : Fin 3} {size p : Nat} {mask : BitVec 3} {s t : State}
    (h : layerIfB k size mask p s = .ok t) :
    FrameStepB s t ∧ t.lastB = s.lastB ∧
    (∀ k', k' ≠ k ∨ mask.getLsbD k.val = false ∨ size = Config.sentinelB →
      t.lB.layer k' = s.lB.layer k') := by
  unfold layerIfB at h
  rcases runIf_eq_ok.1 h with ⟨hc, h⟩ | ⟨hc, rfl⟩
  · obtain ⟨_, h1, h2, h3⟩ := decodeLayerB_spec h
    refine ⟨⟨?_, .inr (by rw [h1]), fun hg => h3 hg.1⟩, by rw [h1], fun k' hk => ?_⟩
    · rw [h1]
    · rcases hk with hk | hk | hk
      · exact h2 k' hk
      · rw [hk, Bool.and_false] at hc
        exact absurd hc (by decide)
      · simp [hk] at hc
  · exact ⟨FrameStepB.refl _, rfl, fun _ _ => rfl⟩

theorem layersB_spec {fm : FrameMetaB} {mask : BitVec 3} {s t : State}
    (h : layersB fm mask s = .ok t) :
    FrameStepB s t ∧ t.lastB = s.lastB ∧
    (∀ k : Fin 3, mask.getLsbD k.val = false → t.lB.layer k = s.lB.layer k) := by
  obtain ⟨a, ha, h⟩ := Run.bind_eq_ok.1 h
  obtain ⟨b, hb, h⟩ := Run.bind_eq_ok.1 h
  obtain ⟨a1, a2, a3⟩ := layerIfB_spec ha
  obtain ⟨b1, b2, b3⟩ := layerIfB_spec hb
  obtain ⟨c1, c2, c3⟩ := layerIfB_spec h
  refine ⟨(a1.trans b1).trans c1, by rw [c2, b2, a2], fun k hk => ?_⟩
  rw [c3 k, b3 k, a3 k]
  · by_cases hk0 : k = 0
    · exact .inr (.inl (hk0 ▸ hk))
    · exact .inl hk0
  · by_cases hk1 : k = 1
    · exact .inr (.inl (hk1 ▸ hk))
    · exact .inl hk1
  · by_cases hk2 : k = 2
    · exact .inr (.inl (hk2 ▸ hk))
    · exact .inl hk2

/-- The mask of a request is within the mask it was asked with. -/
theorem narrowMask_le {s : State} {i : Nat} {mask : BitVec 3} {isPrev : Bool} {k : Nat}
    (h : mask.getLsbD k = false) : (narrowMask s i mask isPrev).getLsbD k = false := by
  unfold narrowMask
  split
  · simp [h]
  · exact h

/-- A completed decode of frame i changes the format B decoder only, caches i, and leaves every layer outside
the mask alone (43_frame_b.md R271 to R274). -/
theorem frameStepB_spec {i : Nat} {anc : BitVec 3 → State → Run State} {mask : BitVec 3}
    {isPrev : Bool} {s t : State}
    (hanc : ∀ m t, anc m s = .ok t → FrameStepB s t ∧
      ∀ k : Fin 3, m.getLsbD k.val = false → t.lB.layer k = s.lB.layer k)
    (h : frameStepB i anc mask isPrev s = .ok t) :
    i < s.cfg.frameMetaB.length ∧ FrameStepB s t ∧
    ((cacheIs s.lastB i = true ∧ t = s) ∨
      (cacheIs s.lastB i = false ∧ t.lastB = BitVec.ofNat 32 i)) ∧
    (∀ k : Fin 3, (narrowMask s i mask isPrev).getLsbD k.val = false →
      t.lB.layer k = s.lB.layer k) := by
  unfold frameStepB at h
  split at h
  · simp at h
  · rename_i fm hf
    refine ⟨getElem?_lt hf, ?_⟩
    split at h
    · rename_i hc
      obtain rfl := Except.ok.inj h
      exact ⟨FrameStepB.refl _, .inl ⟨hc, rfl⟩, fun _ _ => rfl⟩
    · rename_i hc
      obtain ⟨s1, hs1, h⟩ := Run.bind_eq_ok.1 h
      obtain ⟨s2, hs2, h⟩ := Run.bind_eq_ok.1 h
      obtain rfl := Except.ok.inj h
      obtain ⟨l1, l2, l3⟩ := layersB_spec hs2
      have hstep : FrameStepB s s1 ∧
          ∀ k : Fin 3, (narrowMask s i mask isPrev).getLsbD k.val = false →
            s1.lB.layer k = s.lB.layer k := by
        rcases runIf_eq_ok.1 hs1 with ⟨_, h⟩ | ⟨_, rfl⟩
        · exact hanc _ _ h
        · exact ⟨FrameStepB.refl _, fun _ _ => rfl⟩
      have h12 := hstep.1.trans l1
      refine ⟨⟨?_, h12.inner, fun hg => ⟨(h12.good hg).1, CursorLegal.of_eq (h12.good hg).2 rfl rfl rfl rfl⟩⟩,
        .inr ⟨by simpa using hc, rfl⟩, fun k hk => ?_⟩
      · have h3 := h12.only
        simp only
        rw [h3]
      · exact (l3 k hk).trans (hstep.2 k hk)

theorem decodeFrameB_spec {i : Nat} {mask : BitVec 3} {isPrev : Bool} {s t : State}
    (h : decodeFrameB i mask isPrev s = .ok t) :
    i < s.cfg.frameMetaB.length ∧ FrameStepB s t ∧
    ((cacheIs s.lastB i = true ∧ t = s) ∨
      (cacheIs s.lastB i = false ∧ t.lastB = BitVec.ofNat 32 i)) ∧
    (∀ k : Fin 3, (narrowMask s i mask isPrev).getLsbD k.val = false →
      t.lB.layer k = s.lB.layer k) := by
  induction i generalizing mask isPrev s t with
  | zero =>
    refine frameStepB_spec (fun m t ht => ?_) h
    obtain rfl := Except.ok.inj ht
    exact ⟨FrameStepB.refl _, fun _ _ => rfl⟩
  | succ i ih =>
    refine frameStepB_spec (fun m t ht => ?_) h
    obtain ⟨_, h1, _, h2⟩ := ih ht
    exact ⟨h1, fun k hk => h2 k (narrowMask_le hk)⟩

/-! ## Streams that fit -/

theorem CursorOnly.tile_rest {s t : State} (h : CursorOnly s t) :
    t.mem = s.mem ∧ t.inner = s.inner ∧ t.lB = s.lB ∧ t.cfg = s.cfg := by
  refine ⟨?_, ?_, ?_, ?_⟩ <;> rw [h]

theorem typeAt_congr {s t : State} (h : t.mem = s.mem) (pos : Nat) : t.typeAt pos = s.typeAt pos := by
  simp only [State.typeAt, field_congr h]

theorem recordSizeAs_congr {s t : State} (h : t.mem = s.mem) (hc : t.cfg = s.cfg) (type : BitVec 3)
    (pos : Nat) : t.recordSizeAs type pos = s.recordSizeAs type pos := by
  simp only [State.recordSizeAs, field_congr h, streamBit_congr h, hc]

theorem slotsFit_congr {s t : State} (h : SameInput s t) (p n skip pos : Nat) :
    t.slotsFit p n skip pos = s.slotsFit p n skip pos := by
  induction n generalizing skip pos with
  | zero => rfl
  | succ n ih =>
    cases skip with
    | succ skip => exact ih _ _
    | zero =>
      simp only [State.slotsFit, recordSizeAs_congr h.1 h.2.2, typeAt_congr h.1, field_congr h.1, h.2.1, ih]

theorem layerFits_same {s t : State} (h : SameInput s t) {p : Nat} (hp : s.layerFits p) : t.layerFits p :=
  (slotsFit_congr h _ _ _ _).trans hp

/-- The effect of a tile type where its record is legal and `MEM` holds it: it completes and takes the rest of
the record (30_encoding.md R108); only a skip sets `SKIP`, and it writes no pixel. -/
theorem tileBody_fits {type : BitVec 3} {pos l : Nat} {s : State} (hs : s.Synced) (hp : s.bitPos = pos + 3)
    (hl : s.recordSizeAs type pos = some l) (hr : s.roomFor (l - 3)) :
    ∃ t, tileBody type s = .ok t ∧ t.Synced ∧ t.bitPos = pos + l ∧
      t.inner.skip = (if type = 5#3 then BitVec.ofNat 5 (s.field (pos + 3) 5) else s.inner.skip) ∧
      (type = 5#3 → t.lB = s.lB) := by
  have done : ∀ {t : State} {bits : Nat} {row : Nat → Line}, TileRead s t bits row → type ≠ 5#3 →
      3 + bits = l → t.Synced ∧ t.bitPos = pos + l ∧
      t.inner.skip = (if type = 5#3 then BitVec.ofNat 5 (s.field (pos + 3) 5) else s.inner.skip) ∧
      (type = 5#3 → t.lB = s.lB) := by
    intro t bits row h h5 hb
    obtain ⟨h1, h2, h3⟩ := h.cursor
    exact ⟨h1, by omega, by rw [h3, if_neg h5], fun h => absurd h h5⟩
  have all : ∀ c : BitVec 3, c = 0#3 ∨ c = 1#3 ∨ c = 2#3 ∨ c = 3#3 ∨ c = 4#3 ∨ c = 5#3 ∨ c = 6#3 ∨ c = 7#3 := by
    decide
  rcases all type with rfl | rfl | rfl | rfl | rfl | rfl | rfl | rfl
  · obtain rfl : 8 = l := Option.some.inj hl
    obtain ⟨t, ht, h⟩ := tileCommonBody_read hs hr
    exact ⟨t, ht, done h (by decide) rfl⟩
  · obtain ⟨hi, rfl⟩ : s.field (pos + 3) 13 ≤ 6560 ∧ 16 = l := by
      simpa [State.recordSizeAs] using hl
    obtain ⟨t, ht, h⟩ := tileFullBody_read hs hr (by rw [hp]; exact hi)
    exact ⟨t, ht, done h (by decide) rfl⟩
  · obtain rfl : 8 = l := Option.some.inj hl
    obtain ⟨t, ht, h⟩ := tileCommonAltBody_read hs hr
    exact ⟨t, ht, done h (by decide) rfl⟩
  · obtain ⟨hi, rfl⟩ : s.field (pos + 3) 13 ≤ 6560 ∧ 16 = l := by
      simpa [State.recordSizeAs] using hl
    obtain ⟨t, ht, h⟩ := tileFullAltBody_read hs hr (by rw [hp]; exact hi)
    exact ⟨t, ht, done h (by decide) rfl⟩
  · unfold State.recordSizeAs at hl
    rw [if_neg (by decide), if_neg (by decide), if_pos rfl] at hl
    split at hl
    · rename_i hi
      obtain rfl := Option.some.inj hl
      rw [← hp] at hi hr
      obtain ⟨t, ht, h⟩ := tileRowsBody_read hs (by rwa [show ∀ n, 11 + n - 3 = 8 + n by omega] at hr)
        (fun r h8 hf => by rw [show s.bitPos + 8 = pos + 11 by omega]; exact hi r h8 hf)
      exact ⟨t, ht, done h (by decide) (by rw [hp]; omega)⟩
    · simp at hl
  · obtain rfl : 8 = l := Option.some.inj hl
    obtain ⟨t, ht, h1, h2, h3⟩ := tileSkipBody_ok hs hr
    exact ⟨t, ht, h1, by omega, by rw [h3, if_pos rfl, hp], fun _ => by rw [h3]⟩
  · cases hc : s.cfg.tile6Policy with
    | fault => simp [State.recordSizeAs, hc] at hl
    | noOp =>
      obtain rfl : 3 = l := by simpa [State.recordSizeAs, hc] using hl
      exact ⟨s, by simp [tileBody, tileReservedBody, hc], hs, hp, by rw [if_neg (by decide)], fun _ => rfl⟩
  · unfold State.recordSizeAs at hl
    rw [if_neg (by decide), if_neg (by decide), if_neg (by decide), if_neg (by decide)] at hl
    cases hb : s.streamBit (pos + 5) with
    | true =>
      obtain rfl : 16 = l := by simpa [hb] using hl
      obtain ⟨t, ht, h⟩ := tilePatternBody_read (common := true) hs (by rw [hp]; exact hb.symm) hr
        (fun h => absurd h (by decide))
      exact ⟨t, ht, done h (by decide) rfl⟩
    | false =>
      obtain ⟨hi, rfl⟩ : (s.field (pos + 6) 13 ≤ 6560 ∧ s.field (pos + 19) 13 ≤ 6560) ∧ 32 = l := by
        simpa [hb] using hl
      obtain ⟨t, ht, h⟩ := tilePatternBody_read (common := false) hs (by rw [hp]; exact hb.symm) hr
        (fun _ => by rw [hp]; exact hi)
      exact ⟨t, ht, done h (by decide) rfl⟩

theorem recordSizeAs_ge {s : State} {type : BitVec 3} {pos l : Nat} (hl : s.recordSizeAs type pos = some l) :
    3 ≤ l := by
  unfold State.recordSizeAs at hl
  repeat' split at hl
  all_goals first | (have := Option.some.inj hl; omega) | simp at hl

/-- A tile record that is legal and that `MEM` holds. -/
theorem decodeTileRecord_fits {l : Nat} {s : State} (hs : s.Synced)
    (hl : s.recordSizeAs (s.typeAt s.bitPos) s.bitPos = some l) (hr : s.roomFor l) :
    ∃ t, decodeTileRecord s = .ok t ∧ t.Synced ∧ t.bitPos = s.bitPos + l ∧
      t.inner.skip = (if s.typeAt s.bitPos = 5#3 then BitVec.ofNat 5 (s.field (s.bitPos + 3) 5)
        else s.inner.skip) ∧
      (s.typeAt s.bitPos = 5#3 → t.lB = s.lB) := by
  have h3 := recordSizeAs_ge hl
  obtain ⟨r, hrd, hv, h1, h2, hc, h4⟩ := readBits_field (n := 3) (m := l - 3) hs (by omega) (by omega)
    (by rwa [show 3 + (l - 3) = l by omega])
  have hty : r.1.setWidth 3 = s.typeAt s.bitPos := setWidth_ofNat hv
  obtain ⟨hmem, hin, hlb, hcfg⟩ := hc.tile_rest
  obtain ⟨t, ht, g1, g2, g3, g4⟩ := tileBody_fits (type := s.typeAt s.bitPos) (pos := s.bitPos) h1 h2
    (by rw [recordSizeAs_congr hmem hcfg]; exact hl) h4
  refine ⟨t, ?_, g1, g2, by rw [g3, field_congr hmem, hin], fun h => (g4 h).trans hlb⟩
  simp only [decodeTileRecord, readTileType, hrd, Run.bind_ok, hty]
  exact ht

theorem typeAt_aligned (s : State) (a : Nat) :
    s.typeAt (8 * a) = (s.byteAt a).extractLsb' 0 3 := by
  unfold State.typeAt
  apply BitVec.eq_of_toNat_eq
  have hlt := s.field_lt (8 * a) 3
  rw [BitVec.toNat_ofNat, Nat.mod_eq_of_lt (by omega)]
  apply Nat.eq_of_testBit_eq
  intro i
  rw [State.testBit_field]
  have : ((s.byteAt a).extractLsb' 0 3).toNat.testBit i = ((s.byteAt a).extractLsb' 0 3).getLsbD i := rfl
  rw [this, BitVec.getLsbD_extractLsb', Nat.zero_add]
  by_cases hi : i < 3
  · simp only [hi, decide_true, Bool.true_and, State.streamBit]
    rw [show (8 * a + i) / 8 = a by omega, show (8 * a + i) % 8 = i by omega]
  · simp [hi]

/-- A layer that fits starts within `LEN`. -/
theorem layerFits_start {s : State} {p : Nat} (h : s.layerFits p) : p ≤ s.len.toNat := by
  have h1 : s.slotsFit p (1199 + 1) 0 (8 * p) = true := h
  cases hsz : s.recordSizeAs (s.typeAt (8 * p)) (8 * p) with
  | none => simp [State.slotsFit, hsz] at h1
  | some l =>
    simp only [State.slotsFit, hsz, Bool.and_eq_true, decide_eq_true_eq] at h1
    omega

/-- `MEM` holds a record's words exactly when the bit cursor has room for it: it stands a whole number of words
past the layer's start. -/
theorem roomFor_of_words {p l : Nat} {u : State} (hs : u.Synced) (hp : 8 * p ≤ u.bitPos)
    (he : u.offset.toNat % 2 = p % 2)
    (hw : p + 2 * ((u.bitPos + l - 8 * p + 15) / 16) ≤ u.len.toNat) : u.roomFor l := by
  have := hs.low
  have := hs.high
  unfold State.roomFor
  unfold State.bitPos at hp hw
  omega

/-- A layer whose stream fits completes; when all its bytes are skip records it leaves the layers alone
(43_frame_b.md R245, R276). -/
theorem decodeLayerB_fits {k : Fin 3} {p : Nat} {s : State} (h : s.layerFits p) :
    ∃ t, decodeLayerB k p s = .ok t ∧
      ((∀ j, j < 1200 → p + j < s.len.toNat → (s.byteAt (p + j)).extractLsb' 0 3 = 5#3) →
        t.lB = s.lB) := by
  have hp := layerFits_start h
  have hl := s.len.isLt
  have hoff : (s.openLayerB k p).offset.toNat = p := by
    simp only [State.openLayerB_offset, BitVec.toNat_ofNat]
    omega
  have hpos0 : (s.openLayerB k p).bitPos = 8 * p := by
    simp only [State.bitPos, hoff, State.openLayerB_dfc]
    have : (16 : BitVec 5).toNat = 16 := rfl
    omega
  obtain ⟨t, ht, hP⟩ := forRange_completes (i := 0) (n := 1200) (f := decodeSlot)
    (s := s.openLayerB k p)
    (P := fun i u => SameInput s u ∧ u.Synced ∧ 8 * p ≤ u.bitPos ∧ u.offset.toNat % 2 = p % 2 ∧
      s.slotsFit p (1200 - i) u.inner.skip.toNat u.bitPos = true ∧
      ((∀ j, j < 1200 → p + j < s.len.toNat → (s.byteAt (p + j)).extractLsb' 0 3 = 5#3) →
        u.lB = s.lB ∧ ∃ m, m ≤ i ∧ u.bitPos = 8 * (p + m)))
    (by
      refine ⟨⟨rfl, rfl, rfl⟩, ?_, by omega, by rw [hoff], ?_, fun _ => ⟨rfl, 0, Nat.le_refl _, hpos0⟩⟩
      · exact Synced_congr (resetBits_synced (s.openLayerB k p)) rfl rfl rfl rfl
      · rw [hpos0]
        exact h)
    (by
      rintro i u _ hi ⟨hin, hsy, hge, heven, hfit, hskip⟩
      have hsy' : (u.atSlot i).Synced := Synced_congr hsy rfl rfl rfl rfl
      obtain ⟨n, hn⟩ : ∃ n, 1200 - i = n + 1 := ⟨1200 - i - 1, by omega⟩
      have hn' : 1200 - (i + 1) = n := by omega
      rw [hn] at hfit
      rw [hn']
      unfold decodeSlot slotBody
      split
      · rename_i hk
        refine ⟨_, rfl, hin, Synced_congr hsy' rfl rfl rfl rfl, hge, heven, ?_, fun h5 => ?_⟩
        · have hk' : u.inner.skip ≠ 0#5 := hk
          have hk1 : u.inner.skip.toNat ≠ 0 := fun h => hk' (BitVec.eq_of_toNat_eq h)
          have hlt := u.inner.skip.isLt
          have hsub : (u.inner.skip - 1#5).toNat + 1 = u.inner.skip.toNat := by
            rw [BitVec.toNat_sub]
            simp only [BitVec.toNat_ofNat]
            omega
          rw [← hsub] at hfit
          exact hfit
        · obtain ⟨h1, m, hm, h2⟩ := hskip h5
          exact ⟨h1, m, by omega, h2⟩
      · rename_i hk
        have hk0 : u.inner.skip = 0#5 := Decidable.not_not.1 hk
        rw [hk0] at hfit
        have hmem : (u.atSlot i).mem = s.mem := hin.1
        have hcfg : (u.atSlot i).cfg = s.cfg := hin.2.2
        have hlen : (u.atSlot i).len = s.len := hin.2.1
        have hpos : (u.atSlot i).bitPos = u.bitPos := rfl
        cases hsz : s.recordSizeAs (s.typeAt u.bitPos) u.bitPos with
        | none => simp [State.slotsFit, hsz] at hfit
        | some l =>
          simp only [State.slotsFit, BitVec.toNat_ofNat, Nat.zero_mod, hsz, Bool.and_eq_true, decide_eq_true_eq] at hfit
          obtain ⟨t, ht, g1, g2, g3, g4⟩ := decodeTileRecord_fits (l := l) hsy'
            (by rw [hpos, typeAt_congr hmem, recordSizeAs_congr hmem hcfg]; exact hsz)
            (roomFor_of_words (p := p) hsy' hge heven (by rw [hlen, hpos]; exact hfit.1))
          have hts := decodeTileRecord_tileStep ht
          rw [hpos, typeAt_congr hmem] at g3 g4
          rw [hpos] at g2
          refine ⟨t, ht, hin.trans (t := u) ?_, g1, by omega, hts.even.trans heven, ?_, fun h5 => ?_⟩
          · have h1 := hts.only
            refine ⟨?_, ?_, ?_⟩ <;> rw [h1] <;> rfl
          · have hs : t.inner.skip.toNat =
                if s.typeAt u.bitPos = 5#3 then s.field (u.bitPos + 3) 5 else 0 := by
              rw [g3, field_congr hmem]
              split
              · exact Nat.mod_eq_of_lt (s.field_lt _ _)
              · exact congrArg BitVec.toNat hk0
            rw [hs, g2]
            exact hfit.2
          · obtain ⟨h1, m, hm, h2⟩ := hskip h5
            have h3 : 3 ≤ l := recordSizeAs_ge hsz
            have ha : p + m < s.len.toNat := by have := hfit.1; rw [h2] at this; omega
            have hty : s.typeAt u.bitPos = 5#3 := by
              rw [h2, typeAt_aligned]
              exact h5 m (by omega) ha
            have hl8 : l = 8 := by
              rw [hty] at hsz
              exact (Option.some.inj hsz).symm
            exact ⟨(g4 hty).trans h1, m + 1, by omega, by rw [g2, h2, hl8]; omega⟩)
  refine ⟨t.closeLayerB, ?_, fun h5 => (hP.2.2.2.2.2 h5).1⟩
  simp only [decodeLayerB, ht, Run.bind_ok, Nat.not_lt.2 hp, if_false]

/-! ## The sequencer -/

theorem decodeFrameB_unfold (i : Nat) (mask : BitVec 3) (isPrev : Bool) (s : State) :
    decodeFrameB i mask isPrev s =
      frameStepB i (if i = 0 then fun _ s => .ok s else fun m s => decodeFrameB (i - 1) m true s)
        mask isPrev s := by
  cases i with
  | zero => rfl
  | succ i => simp [decodeFrameB]

theorem decodeFrameB_cached {i : Nat} {mask : BitVec 3} {isPrev : Bool} {s : State}
    (hi : i < s.cfg.frameMetaB.length) (hc : cacheIs s.lastB i = true) :
    decodeFrameB i mask isPrev s = .ok s := by
  rw [decodeFrameB_unfold]
  unfold frameStepB
  rw [List.getElem?_eq_getElem hi]
  simp only [hc, if_true]

theorem decodeFrameB_range {i : Nat} {mask : BitVec 3} {isPrev : Bool} {s : State}
    (hi : s.cfg.frameMetaB.length ≤ i) :
    decodeFrameB i mask isPrev s = .error ⟨.frameRange, i⟩ := by
  rw [decodeFrameB_unfold]
  unfold frameStepB
  rw [List.getElem?_eq_none hi]

/-- Frame 0, or the frame after the cached one: its own layers only (43_frame_b.md R272, R275). -/
theorem decodeFrameB_alone {i : Nat} {mask : BitVec 3} {isPrev : Bool} {s : State} {fm : FrameMetaB}
    (hf : s.cfg.frameMetaB[i]? = some fm) (hc : cacheIs s.lastB i = false)
    (hp : i = 0 ∨ cacheIs s.lastB ((i : Int) - 1) = true) :
    decodeFrameB i mask isPrev s = (do
      let t ← layersB fm mask s
      .ok { t with lastB := BitVec.ofNat 32 i }) := by
  have hn : needsAncestorB s i = false := by
    rcases hp with rfl | hp
    · simp [needsAncestorB]
    · simp [needsAncestorB, hp]
  rw [decodeFrameB_unfold]
  unfold frameStepB narrowMask
  rw [hf]
  simp only [hc, hn, Bool.false_eq_true, if_false, Bool.false_and, runIf, Run.bind_ok]

/-- Another frame: its predecessor first, as an ancestor, with the narrowed mask (43_frame_b.md R272). -/
theorem decodeFrameB_chain {i : Nat} {mask : BitVec 3} {isPrev : Bool} {s : State} {fm : FrameMetaB}
    (hf : s.cfg.frameMetaB[i + 1]? = some fm) (hc : cacheIs s.lastB ((i + 1 : Nat) : Int) = false)
    (hp : cacheIs s.lastB (i : Int) = false) :
    decodeFrameB (i + 1) mask isPrev s = (do
      let m := if isPrev then mask &&& ~~~(diffOf s (i + 2)) else mask
      let s1 ← if m = 0#3 then .ok s else decodeFrameB i m true s
      let s2 ← layersB fm m s1
      .ok { s2 with lastB := BitVec.ofNat 32 (i + 1) }) := by
  have hn : needsAncestorB s (i + 1) = true := by
    simp only [needsAncestorB, show (((i + 1 : Nat) : Int) - 1) = (i : Int) by omega, hp]
    rfl
  rw [decodeFrameB_unfold]
  unfold frameStepB narrowMask
  rw [hf]
  simp only [hc, hn, Bool.false_eq_true, if_false, Bool.true_and, Nat.add_one_ne_zero, Nat.add_sub_cancel]
  generalize (if isPrev = true then mask &&& ~~~diffOf s (i + 1 + 1) else mask) = m
  by_cases hm : m = 0#3
  · subst hm
    rfl
  · have : (m != 0#3) = true := by simpa using hm
    rw [this, if_neg hm]
    rfl

/-- Three sentinel layers: no layer is decoded (43_frame_b.md R274). -/
theorem layersB_sentinel {fm : FrameMetaB} {mask : BitVec 3} {s : State} (h0 : fm.size0 = 38)
    (h1 : fm.size1 = 38) (h2 : fm.size2 = 38) : layersB fm mask s = .ok s := by
  unfold layersB
  rw [layerIfB_skip (.inl h0), Run.bind_ok, layerIfB_skip (.inl h1), Run.bind_ok, layerIfB_skip (.inl h2)]

/-- A request that is left with no layer decodes no layer (43_frame_b.md R272). -/
theorem layersB_masked {fm : FrameMetaB} {s : State} : layersB fm 0#3 s = .ok s := by
  unfold layersB
  rw [layerIfB_skip (.inr (by simp)), Run.bind_ok, layerIfB_skip (.inr (by simp)), Run.bind_ok,
    layerIfB_skip (.inr (by simp))]

/-- A frame that decodes, and is not the cached one, is cached now. -/
theorem decodeFrameB_lastB {i : Nat} {mask : BitVec 3} {isPrev : Bool} {s t : State}
    (hc : cacheIs s.lastB i = false) (h : decodeFrameB i mask isPrev s = .ok t) :
    t.lastB = BitVec.ofNat 32 i := by
  rcases (decodeFrameB_spec h).2.2.1 with ⟨h, _⟩ | ⟨_, h⟩
  · rw [hc] at h; cases h
  · exact h

/-- A layer that is skipped, or whose stream fits, completes. -/
theorem layerIfB_completes {k : Fin 3} {size p : Nat} {mask : BitVec 3} {s : State}
    (h : size = 38 ∨ s.layerFits p) : ∃ t, layerIfB k size mask p s = .ok t := by
  rw [layerIfB_eq]
  split
  · exact ⟨s, rfl⟩
  · rename_i hs
    obtain ⟨t, ht, -⟩ := decodeLayerB_fits (k := k) (h.resolve_left fun e => hs (.inl e))
    exact ⟨t, ht⟩

theorem layersB_completes {fm : FrameMetaB} {mask : BitVec 3} {s : State}
    (h0 : fm.size0 = 38 ∨ s.layerFits fm.off)
    (h1 : fm.size1 = 38 ∨ s.layerFits (fm.off + fm.size0))
    (h2 : fm.size2 = 38 ∨ s.layerFits (fm.off + fm.size0 + fm.size1)) :
    ∃ t, layersB fm mask s = .ok t := by
  obtain ⟨a, ha⟩ := layerIfB_completes (k := 0) (mask := mask) h0
  have sa := (layerIfB_spec ha).1.same
  obtain ⟨b, hb⟩ := layerIfB_completes (k := 1) (mask := mask) (h1.imp_right (layerFits_same sa))
  have sb := sa.trans (layerIfB_spec hb).1.same
  obtain ⟨c, hc⟩ := layerIfB_completes (k := 2) (mask := mask) (h2.imp_right (layerFits_same sb))
  refine ⟨c, ?_⟩
  unfold layersB
  rw [ha, Run.bind_ok, hb, Run.bind_ok, hc]

/-- A reset layer is all 0 (43_frame_b.md R276). -/
theorem layerB_empty (k : Fin 3) (p : Nat) : pixelB (LayersB.layer ⟨[], [], []⟩ k) p = 0 := by
  have h : ∀ k, LayersB.layer ⟨[], [], []⟩ k = [] := by decide
  rw [h k]; unfold pixelB; simp only [Sparse.get_nil]
  have : p % 8 < 8 := by omega
  revert this; generalize p % 8 = c; intro h; interval_cases c <;> rfl

/-- A sentinel layer keeps what it has (43_frame_b.md R274). -/
theorem layersB_kept {fm : FrameMetaB} {mask : BitVec 3} {s t : State} (h : layersB fm mask s = .ok t) :
    (fm.size0 = 38 → t.lB.layer 0 = s.lB.layer 0) ∧ (fm.size1 = 38 → t.lB.layer 1 = s.lB.layer 1) ∧
    (fm.size2 = 38 → t.lB.layer 2 = s.lB.layer 2) := by
  unfold layersB at h
  obtain ⟨a, ha, h⟩ := Run.bind_eq_ok.1 h
  obtain ⟨b, hb, hc⟩ := Run.bind_eq_ok.1 h
  have h1 := (layerIfB_spec ha).2.2
  have h2 := (layerIfB_spec hb).2.2
  have h3 := (layerIfB_spec hc).2.2
  refine ⟨fun e => ?_, fun e => ?_, fun e => ?_⟩
  · rw [h3 0 (.inl (by decide)), h2 0 (.inl (by decide)), h1 0 (.inr (.inr e))]
  · rw [h3 1 (.inl (by decide)), h2 1 (.inr (.inr e)), h1 1 (.inl (by decide))]
  · rw [h3 2 (.inr (.inr e)), h2 2 (.inl (by decide)), h1 2 (.inl (by decide))]

end Sys2Proof.Machine
end

