-- ==== Sys2Proof/Laws/Step.lean ====
section
/-! SUPPORT. The laws of the whole machine: every instruction has a next state, what an instruction may change,
what a fault leaves, and that a step keeps the machine's invariant. -/

namespace Sys2Proof.Machine

open Host (Outcome)

/-! ## An instruction is an attempt of its own effect -/

/-- Which sequencer runs an instruction. -/
def formOf : Instr → Seq
  | .lineBlank | .lineSparse | .lineInvSparse | .lineRaw => .lines
  | .tileCommon | .tileFull | .tileCommonAlt | .tileFullAlt | .tileRows | .tileSkip | .tileReserved
  | .tilePattern => .tiles
  | _ => .command

/-- The state `RESET` leaves. -/
def resetOf (s : State) : State :=
  { State.reset with
    cmd := 0x000000FF#32, len := s.len, mem := s.mem, cfg := s.cfg, host := s.host, draws := s.draws }

/-- The effect that an instruction attempts. -/
def bodyOf (i : Instr) (s : State) : Run State :=
  match i with
  | .seekSet => seekTo (argUnsigned s) s
  | .seekCur => seekTo (s.offset.toNat + argSigned s) s
  | .seekEnd => seekTo (s.len.toNat + argSigned s) s
  | .bitsReset => .ok s.resetBits
  | .bitsRead n => bitsReadBody n s
  | .adpcmAInit => .ok { s with apred := 0, aidx := 0 }.emptyPcm
  | .adpcmADecode => decodeTrack stepAByte s
  | .adpcmBInit c => adpcmBInitBody c s
  | .adpcmBDecode => decodeTrack stepBByte s
  | .faReset => .ok { s with lA := ⟨[], []⟩, pA := ⟨[], []⟩, lastA := noFrame }
  | .faDecodeAt => faDecodeAtBody s
  | .faDecodeFrame => decodeFrameA (argUnsigned s) s
  | .fbReset => .ok { s with lB := ⟨[], [], []⟩, lastB := noFrame }
  | .fbDecodeLayer k => fbDecodeLayerBody k s
  | .fbDecodeFrame => decodeFrameB (argUnsigned s) 0b111#3 false s
  | .reset => .ok (resetOf s)
  | .lineBlank => lineBody 0#2 s
  | .lineSparse => lineBody 1#2 s
  | .lineInvSparse => lineBody 2#2 s
  | .lineRaw => lineBody 3#2 s
  | .tileCommon => tileBody 0#3 s
  | .tileFull => tileBody 1#3 s
  | .tileCommonAlt => tileBody 2#3 s
  | .tileFullAlt => tileBody 3#3 s
  | .tileRows => tileBody 4#3 s
  | .tileSkip => tileBody 5#3 s
  | .tileReserved => tileBody 6#3 s
  | .tilePattern => tileBody 7#3 s

theorem exec_reset (s : State) : exec .reset s = .next (resetOf s) := rfl

theorem exec_eq {i : Instr} (hi : i ≠ .reset) (s : State) : exec i s = attempt s (bodyOf i s) := by
  cases i <;> first | rfl | exact absurd rfl hi

/-- Everything an instruction can do. -/
theorem exec_cases (i : Instr) (s : State) :
    (i = .reset ∧ exec i s = .next (resetOf s)) ∨
    (i ≠ .reset ∧ s.faulted = true ∧ exec i s = .next s) ∨
    (i ≠ .reset ∧ s.faulted = false ∧ ∃ t, bodyOf i s = .ok t ∧ exec i s = .next t) ∨
    (i ≠ .reset ∧ s.faulted = false ∧ ∃ f, bodyOf i s = .error f ∧ exec i s = .next (raise f s)) := by
  by_cases hi : i = .reset
  · exact .inl ⟨hi, by rw [hi]; rfl⟩
  · rw [exec_eq hi]
    rcases attempt_cases s (bodyOf i s) with ⟨h1, h2⟩ | ⟨h1, t, h2, h3⟩ | ⟨h1, f, h2, h3⟩
    · exact .inr (.inl ⟨hi, h1, h2⟩)
    · exact .inr (.inr (.inl ⟨hi, h1, t, h2, h3⟩))
    · exact .inr (.inr (.inr ⟨hi, h1, f, h2, h3⟩))

/-- Every instruction has a next state in every state. -/
theorem exec_next (i : Instr) (s : State) : ∃ t, exec i s = .next t := by
  rcases exec_cases i s with ⟨_, h⟩ | ⟨_, _, h⟩ | ⟨_, _, t, _, h⟩ | ⟨_, _, f, _, h⟩ <;> exact ⟨_, h⟩

/-- An instruction whose effect completes in a running block. -/
theorem exec_of_body {i : Instr} {s t : State} (hf : s.faulted = false) (h : bodyOf i s = .ok t) :
    exec i s = .next t := by
  by_cases hi : i = .reset
  · subst hi
    rw [exec_reset, Except.ok.inj h]
  · rw [exec_eq hi, h, attempt_ok hf]

theorem exec_of_raise {i : Instr} {s : State} {f : Raised} (hf : s.faulted = false)
    (h : bodyOf i s = .error f) : exec i s = .next (raise f s) := by
  have hi : i ≠ .reset := by
    rintro rfl
    simp [bodyOf] at h
  rw [exec_eq hi, h, attempt_error hf]

theorem exec_of_faulted {i : Instr} {s : State} (hi : i ≠ .reset) (hf : s.faulted = true) :
    exec i s = .next s := by
  rw [exec_eq hi, attempt_faulted hf]

/-! ## What an effect may change -/

/-- What no command but `RESET` changes. -/
def Kept (s t : State) : Prop :=
  t = { s with
    result := t.result, offset := t.offset, acc := t.acc, dfc := t.dfc, apred := t.apred
    aidx := t.aidx, bpred := t.bpred, bidx := t.bidx, lastA := t.lastA, lastB := t.lastB
    pcmCount := t.pcmCount, lA := t.lA, pA := t.pA, lB := t.lB, pcm := t.pcm, inner := t.inner }

theorem seekTo_only {x : Int} {s t : State} (h : seekTo x s = .ok t) :
    t = { s with offset := t.offset } ∧ 0 ≤ x ∧ x ≤ (s.len.toNat : Int) ∧ t.offset = BitVec.ofInt 32 x := by
  unfold seekTo at h
  split at h
  · simp at h
  · obtain rfl := Except.ok.inj h
    exact ⟨rfl, by omega, by omega, rfl⟩

theorem decodeTrack_eq {f : Byte → State → State} {s t : State} (h : decodeTrack f s = .ok t) :
    argUnsigned s + argLength s ≤ s.len.toNat ∧ t = feedBytes f (argUnsigned s) (argLength s) s := by
  unfold decodeTrack at h
  split at h
  · simp at h
  · exact ⟨by omega, (Except.ok.inj h).symm⟩

theorem bitsReadBody_eq {n : Byte} {s t : State} (h : bitsReadBody n s = .ok t) :
    1 ≤ n.toNat ∧ n.toNat ≤ 16 ∧
      ∃ r, readBits n.toNat s = .ok r ∧ t = { r.2 with result := r.1 } ∧ CursorOnly s r.2 := by
  unfold bitsReadBody at h
  split at h
  · simp at h
  · obtain ⟨r, hr, h⟩ := Run.bind_eq_ok.1 h
    refine ⟨by omega, by omega, r, hr, (Except.ok.inj h).symm, ?_⟩
    rcases readBits_cases n.toNat s with ⟨_, he⟩ | ⟨_, _, he⟩ | ⟨_, _, he⟩ <;> rw [he] at hr
    · obtain rfl := Except.ok.inj hr; rfl
    · obtain rfl := Except.ok.inj hr; rfl
    · simp at hr

theorem faDecodeAtBody_eq {s t : State} (h : faDecodeAtBody s = .ok t) :
    ∃ r, decodeBodyA (argUnsigned s) s = .ok r ∧ t = { r with lastA := noFrame } := by
  obtain ⟨r, hr, h⟩ := Run.bind_eq_ok.1 h
  exact ⟨r, hr, (Except.ok.inj h).symm⟩

theorem fbDecodeLayerBody_eq {k : Byte} {s t : State} (h : fbDecodeLayerBody k s = .ok t) :
    k.toNat ≤ 2 ∧ ∃ r, decodeLayerB (Fin.ofNat 3 k.toNat) (argUnsigned s) s = .ok r ∧
      t = { r with lastB := noFrame } := by
  unfold fbDecodeLayerBody at h
  split at h
  · simp at h
  · obtain ⟨r, hr, h⟩ := Run.bind_eq_ok.1 h
    exact ⟨by omega, r, hr, (Except.ok.inj h).symm⟩

theorem lineBody_kept {c : LineCode} {s t : State} (h : lineBody c s = .ok t) : Kept s t := by
  have h1 : t = { s with offset := t.offset, lA := t.lA, inner := t.inner } := (lineBody_stepsA h).1
  unfold Kept
  rw [h1]

theorem tileBody_kept {c : BitVec 3} {s t : State} (h : tileBody c s = .ok t) : Kept s t := by
  have h1 := (tileBody_tileStep h).only
  unfold Kept
  rw [h1]

/-- No effect but `RESET`'s changes a kept component. -/
theorem bodyOf_kept {i : Instr} {s t : State} (hi : i ≠ .reset) (h : bodyOf i s = .ok t) : Kept s t := by
  cases i with
  | reset => exact absurd rfl hi
  | seekSet => have := (seekTo_only h).1; unfold Kept; rw [this]
  | seekCur => have := (seekTo_only h).1; unfold Kept; rw [this]
  | seekEnd => have := (seekTo_only h).1; unfold Kept; rw [this]
  | bitsReset => obtain rfl := Except.ok.inj h; rfl
  | bitsRead n =>
    obtain ⟨_, _, r, _, rfl, hc⟩ := bitsReadBody_eq h
    unfold Kept
    rw [hc]
  | adpcmAInit => obtain rfl := Except.ok.inj h; rfl
  | adpcmADecode =>
    obtain ⟨_, rfl⟩ := decodeTrack_eq h
    unfold Kept
    rw [feedBytes_only_A]
  | adpcmBInit c =>
    simp only [bodyOf, adpcmBInitBody] at h
    split at h
    · simp at h
    · obtain rfl := Except.ok.inj h; rfl
  | adpcmBDecode =>
    obtain ⟨_, rfl⟩ := decodeTrack_eq h
    unfold Kept
    rw [feedBytes_only_B]
  | faReset => obtain rfl := Except.ok.inj h; rfl
  | faDecodeAt =>
    obtain ⟨r, hr, rfl⟩ := faDecodeAtBody_eq h
    have := (decodeBodyA_spec hr).1
    unfold Kept
    rw [this]
  | faDecodeFrame => have := (decodeFrameA_spec h).2.1.1; unfold Kept; rw [this]
  | fbReset => obtain rfl := Except.ok.inj h; rfl
  | fbDecodeLayer k =>
    obtain ⟨_, r, hr, rfl⟩ := fbDecodeLayerBody_eq h
    have := (decodeLayerB_spec hr).2.1
    unfold Kept
    rw [this]
  | fbDecodeFrame => have := (decodeFrameB_spec h).2.1.only; unfold Kept; rw [this]
  | lineBlank => exact lineBody_kept h
  | lineSparse => exact lineBody_kept h
  | lineInvSparse => exact lineBody_kept h
  | lineRaw => exact lineBody_kept h
  | tileCommon => exact tileBody_kept h
  | tileFull => exact tileBody_kept h
  | tileCommonAlt => exact tileBody_kept h
  | tileFullAlt => exact tileBody_kept h
  | tileRows => exact tileBody_kept h
  | tileSkip => exact tileBody_kept h
  | tileReserved => exact tileBody_kept h
  | tilePattern => exact tileBody_kept h

/-! ## What a fault leaves (60_exceptions.md R301, R305) -/

/-- A recorded fault: everything R305 keeps is kept, `STATUS` and `FINFO` are set, no loop is running. -/
theorem raise_kept {f : Raised} {s : State} (hf : s.faulted = false) :
    raise f s = { s with
      status := statusWithFault s.status (fcodeOf f.code)
      finfo := BitVec.ofInt 32 f.info
      offset := (raise f s).offset, acc := (raise f s).acc, dfc := (raise f s).dfc
      apred := (raise f s).apred, aidx := (raise f s).aidx, bpred := (raise f s).bpred
      bidx := (raise f s).bidx, lastA := (raise f s).lastA, lastB := (raise f s).lastB
      pcmCount := (raise f s).pcmCount, pcm := (raise f s).pcm, lA := (raise f s).lA
      pA := (raise f s).pA, lB := (raise f s).lB, inner := Inner.idle, draws := s.draws + 1 } := by
  rw [raise_of_running hf]
  rfl

theorem havocLayersA_ok (f : Nat → Nat → RowA) : (havocLayersA f).ok :=
  ⟨Sparse.wf_tabulate, Sparse.wf_tabulate, Sparse.below_tabulate (by omega), Sparse.below_tabulate (by omega)⟩

theorem havocLayersB_ok (n : Nat) : (havocLayersB n).ok :=
  ⟨Sparse.wf_tabulate, Sparse.wf_tabulate, Sparse.wf_tabulate, Sparse.below_tabulate (by omega),
    Sparse.below_tabulate (by omega), Sparse.below_tabulate (by omega)⟩

/-- In a legal unfaulted state `STATUS` is 0 (10_state.md R22). -/
theorem StatusLegal.zero {s : State} (h : s.StatusLegal) (hf : s.faulted = false) : s.status = 0#32 := by
  have h1 := h.reserved
  have h2 := h.code.2 hf
  have h3 : s.status.getLsbD 0 = false := hf
  apply BitVec.eq_of_getLsbD_eq
  intro i hi
  have e1 : (s.status &&& 0xFFFF00FE#32).getLsbD i = false := by rw [h1]; simp
  rw [BitVec.getLsbD_and] at e1
  have e2 : (s.status.extractLsb' 8 8).getLsbD (i - 8) = false := by
    rw [show s.status.extractLsb' 8 8 = 0#8 from h2]; simp
  rw [BitVec.getLsbD_extractLsb'] at e2
  rw [BitVec.getLsbD_zero]
  by_cases hi0 : i = 0
  · rw [hi0]; exact h3
  · by_cases hi8 : 8 ≤ i ∧ i < 16
    · rw [show 8 + (i - 8) = i by omega] at e2
      simpa [show i - 8 < 8 by omega] using e2
    · have hm : (0xFFFF00FE#32).getLsbD i = true := by
        have : ∀ j, j < 32 → j ≠ 0 → ¬ (8 ≤ j ∧ j < 16) → (0xFFFF00FE#32).getLsbD j = true := by decide
        exact this i hi hi0 hi8
      rw [hm, Bool.and_true] at e1
      exact e1

theorem fcodeOf_range (c : FaultCode) : 1 ≤ (fcodeOf c).toNat ∧ (fcodeOf c).toNat ≤ 8 := by
  cases c <;> decide

/-- `STATUS` after a fault in a legal state: `FAULTED` and the code, nothing else. -/
theorem raise_status {f : Raised} {s : State} (h : s.StatusLegal) (hf : s.faulted = false) :
    (raise f s).status = ((fcodeOf f.code).setWidth 32 <<< 8) ||| 1#32 := by
  rw [raise_of_running hf]
  simp only [statusWithFault, StatusLegal.zero h hf]
  simp

theorem raise_statusLegal {f : Raised} {s : State} (h : s.StatusLegal) (hf : s.faulted = false) :
    (raise f s).StatusLegal := by
  have h1 := raise_status (f := f) h hf
  have h2 : (raise f s).faulted = true := raise_faulted f s
  refine ⟨?_, ?_, ?_⟩
  · rw [h1]; cases f.code <;> decide
  · rw [h2]
    simp only [Bool.true_eq_false, iff_false, statusFcode, h1]
    cases f.code <;> decide
  · simp only [statusFcode, h1]
    cases f.code <;> decide

/-- A fault keeps the invariant. -/
theorem raise_inv {f : Raised} {s : State} (h : s.Inv) : (raise f s).Inv := by
  by_cases hf : s.faulted = true
  · rw [raise_of_faulted hf]; exact h
  · have hf' : s.faulted = false := by simpa using hf
    have hff := raise_faulted f s
    have hk := raise_of_running (r := f) hf'
    refine ⟨⟨?_, ?_, ?_, ?_⟩, raise_statusLegal h.status hf', ?_, ?_, ?_, ?_, fun _ => ?_⟩
    · rw [hk]; exact h.stored.mem
    · rw [hk]; exact havocLayersA_ok _
    · rw [hk]; exact havocLayersA_ok _
    · rw [hk]; exact havocLayersB_ok _
    · rw [hk]; exact h.config
    · intro h1; rw [hff] at h1; simp at h1
    · intro h1; rw [hff] at h1; simp at h1
    · intro h1; rw [hff] at h1; simp at h1
    · rw [hk]; rfl

/-! ## The invariant -/

theorem AdpcmLegal.of_eq {s t : State} (h : s.AdpcmLegal) (h1 : t.apred = s.apred) (h2 : t.aidx = s.aidx)
    (h3 : t.bpred = s.bpred) (h4 : t.bidx = s.bidx) (h5 : t.pcm = s.pcm) (h6 : t.pcmCount = s.pcmCount) :
    t.AdpcmLegal := by
  refine ⟨?_, ?_, ?_, ?_, ?_, ?_, ?_⟩
  · rw [h1]; exact h.apredLow
  · rw [h1]; exact h.apredHigh
  · rw [h2]; exact h.aidx
  · rw [h3]; exact h.bpredLow
  · rw [h3]; exact h.bpredHigh
  · rw [h4]; exact h.bidx
  · rw [h5, h6]; exact h.count

theorem CacheLegal.of_eq {s t : State} (h : s.CacheLegal) (h1 : t.lastA = s.lastA) (h2 : t.lastB = s.lastB)
    (h3 : t.cfg = s.cfg) (h4 : s.lastA ≠ noFrame → t.lA = s.lA ∧ t.pA = s.pA)
    (h5 : t.inner.seq = s.inner.seq ∨ t.inner.seq = .command) : t.CacheLegal := by
  refine ⟨?_, ?_, ?_, ?_, ?_⟩
  · rw [h1, h3]; exact h.lastA
  · rw [h2, h3]; exact h.lastB
  · intro hn
    rw [h1] at hn
    obtain ⟨e1, e2⟩ := h4 hn
    rw [e1, e2]
    exact h.same hn
  · intro hl
    rcases h5 with h5 | h5 <;> rw [h5] at hl
    · rw [h1]; exact h.lines hl
    · simp at hl
  · intro hl
    rcases h5 with h5 | h5 <;> rw [h5] at hl
    · rw [h2]; exact h.tiles hl
    · simp at hl

/-- The parts of the invariant that an effect has to show in a running block. -/
theorem State.Inv.of_kept {s t : State} (h : s.Inv) (hf : s.faulted = false) (hk : Kept s t)
    (hA : t.lA.ok) (hP : t.pA.ok) (hB : t.lB.ok) (hc : t.CursorLegal) (ha : t.AdpcmLegal)
    (hl : t.CacheLegal) : t.Inv := by
  have hs : t.status = s.status := by rw [hk]
  have hff : t.faulted = false := by
    unfold State.faulted at *
    rw [hs]; exact hf
  refine ⟨⟨?_, hA, hP, hB⟩, ?_, ?_, fun _ => hc, fun _ => ha, fun _ => hl, fun h => by rw [hff] at h; simp at h⟩
  · have := h.stored.mem
    unfold State.memoryOk at *
    rw [hk]; exact this
  · have h1 := h.status
    have h2 := h1.code
    rw [hf] at h2
    refine ⟨?_, ?_, ?_⟩
    · rw [hs]; exact h1.reserved
    · rw [hff, hs]; exact h2
    · rw [hs]; exact h1.range
  · have := h.config
    unfold State.ConfigLegal at *
    rw [hk]; exact this

theorem CursorLegal.of_offset {s t : State} (h : s.CursorLegal) (h1 : t.dfc = s.dfc) (h2 : t.acc = s.acc)
    (h3 : t.offset.toNat ≤ t.len.toNat) : t.CursorLegal :=
  ⟨by rw [h1]; exact h.low, by rw [h1]; exact h.high, by rw [h1, h2]; exact h.acc, h3⟩

theorem reset_cursorLegal : State.reset.CursorLegal :=
  ⟨by decide, by decide, by decide, by decide⟩

theorem reset_adpcmLegal : State.reset.AdpcmLegal :=
  ⟨by decide, by decide, by decide, by decide, by decide, by decide, fun _ => rfl⟩

theorem reset_statusLegal : State.reset.StatusLegal :=
  ⟨by decide, by decide, by decide⟩

theorem resetOf_inv {s : State} (h : s.Inv) : (resetOf s).Inv := by
  refine ⟨⟨h.stored.mem, LayersA.ok_empty, LayersA.ok_empty, LayersB.ok_empty⟩,
    ⟨reset_statusLegal.reserved, reset_statusLegal.code, reset_statusLegal.range⟩, h.config,
    fun _ => CursorLegal.of_offset reset_cursorLegal rfl rfl (Nat.zero_le _),
    fun _ => AdpcmLegal.of_eq reset_adpcmLegal rfl rfl rfl rfl rfl rfl,
    fun _ => ⟨fun h => absurd rfl h, fun h => absurd rfl h, fun h => absurd rfl h, fun _ => rfl, fun _ => rfl⟩,
    fun _ => rfl⟩

/-- The byte cursor, the bit cursor and `RESULT` may change. -/
theorem State.Inv.of_cursor {s t : State} (h : s.Inv) (hf : s.faulted = false)
    (hk : t = { s with offset := t.offset, acc := t.acc, dfc := t.dfc, result := t.result })
    (hc : t.CursorLegal) : t.Inv := by
  have hkept : Kept s t := by unfold Kept; rw [hk]
  refine h.of_kept hf hkept ?_ ?_ ?_ hc ?_ ?_
  · rw [hk]; exact h.stored.lA
  · rw [hk]; exact h.stored.pA
  · rw [hk]; exact h.stored.lB
  · exact AdpcmLegal.of_eq (h.adpcm hf) (by rw [hk]) (by rw [hk]) (by rw [hk]) (by rw [hk]) (by rw [hk]) (by rw [hk])
  · exact CacheLegal.of_eq (h.cache hf) (by rw [hk]) (by rw [hk]) (by rw [hk])
      (fun _ => ⟨by rw [hk], by rw [hk]⟩) (.inl (by rw [hk]))

/-- The ADPCM state and the output may change. -/
theorem State.Inv.of_adpcm {s t : State} (h : s.Inv) (hf : s.faulted = false)
    (hk : t = { s with
      apred := t.apred, aidx := t.aidx, bpred := t.bpred, bidx := t.bidx, pcm := t.pcm, pcmCount := t.pcmCount })
    (ha : t.AdpcmLegal) : t.Inv := by
  have hkept : Kept s t := by unfold Kept; rw [hk]
  refine h.of_kept hf hkept ?_ ?_ ?_ ?_ ha ?_
  · rw [hk]; exact h.stored.lA
  · rw [hk]; exact h.stored.pA
  · rw [hk]; exact h.stored.lB
  · exact CursorLegal.of_eq (h.cursor hf) (by rw [hk]) (by rw [hk]) (by rw [hk]) (by rw [hk])
  · exact CacheLegal.of_eq (h.cache hf) (by rw [hk]) (by rw [hk]) (by rw [hk])
      (fun _ => ⟨by rw [hk], by rw [hk]⟩) (.inl (by rw [hk]))

/-- A seek keeps the invariant. -/
theorem seekTo_inv {x : Int} {s t : State} (h : s.Inv) (hf : s.faulted = false)
    (hb : seekTo x s = .ok t) : t.Inv := by
  obtain ⟨h1, h2, h3, h4⟩ := seekTo_only hb
  refine h.of_cursor hf (by rw [h1]) (CursorLegal.of_offset (h.cursor hf) (by rw [h1]) (by rw [h1]) ?_)
  have hl := s.len.isLt
  have hlen : t.len = s.len := by rw [h1]
  rw [h4, hlen, BitVec.toNat_ofInt]
  norm_num
  omega

/-- Every command keeps the invariant. -/
theorem command_inv {i : Instr} {s t : State} (h : s.Inv) (hf : s.faulted = false)
    (hseq : s.inner.seq = .command) (hi : formOf i = .command) (hb : bodyOf i s = .ok t) : t.Inv := by
  have hcl := h.cache hf
  cases i with
  | seekSet => exact seekTo_inv h hf hb
  | seekCur => exact seekTo_inv h hf hb
  | seekEnd => exact seekTo_inv h hf hb
  | bitsReset =>
    obtain rfl := Except.ok.inj hb
    exact h.of_cursor hf rfl
      ⟨reset_cursorLegal.low, reset_cursorLegal.high, reset_cursorLegal.acc, (h.cursor hf).offset⟩
  | bitsRead n =>
    obtain ⟨h1, h2, r, hr, rfl, hc⟩ := bitsReadBody_eq hb
    have hl := (readBits_legal (h.cursor hf) h1 h2 hr).1
    refine h.of_cursor hf ?_ (CursorLegal.of_eq hl rfl rfl rfl rfl)
    rw [hc]
  | adpcmAInit =>
    obtain rfl := Except.ok.inj hb
    have ha := h.adpcm hf
    exact h.of_adpcm hf rfl ⟨reset_adpcmLegal.apredLow, reset_adpcmLegal.apredHigh, reset_adpcmLegal.aidx,
      ha.bpredLow, ha.bpredHigh, ha.bidx, fun _ => rfl⟩
  | adpcmADecode =>
    obtain ⟨_, rfl⟩ := decodeTrack_eq hb
    refine h.of_adpcm hf ?_ (feedBytes_keeps stepAByte_legal _ _ (h.adpcm hf))
    rw [feedBytes_only_A]
  | adpcmBInit c =>
    simp only [bodyOf, adpcmBInitBody] at hb
    split at hb
    · simp at hb
    · obtain rfl := Except.ok.inj hb
      have ha := h.adpcm hf
      refine h.of_adpcm hf rfl ⟨ha.apredLow, ha.apredHigh, ha.aidx, reset_adpcmLegal.bpredLow,
        reset_adpcmLegal.bpredHigh, ?_, fun _ => rfl⟩
      simp only [State.emptyPcm_bidx]
      split <;> decide
  | adpcmBDecode =>
    obtain ⟨_, rfl⟩ := decodeTrack_eq hb
    refine h.of_adpcm hf ?_ (feedBytes_keeps stepBByte_legal _ _ (h.adpcm hf))
    rw [feedBytes_only_B]
  | faReset =>
    have hkept := bodyOf_kept (by simp) hb
    obtain rfl := Except.ok.inj hb
    refine h.of_kept hf hkept LayersA.ok_empty LayersA.ok_empty h.stored.lB
      (CursorLegal.of_eq (h.cursor hf) rfl rfl rfl rfl)
      (AdpcmLegal.of_eq (h.adpcm hf) rfl rfl rfl rfl rfl rfl) ⟨fun h => absurd rfl h, hcl.lastB,
        fun _ => rfl, fun _ => rfl, hcl.tiles⟩
  | faDecodeAt =>
    have hkept := bodyOf_kept (by simp) hb
    obtain ⟨r, hr, rfl⟩ := faDecodeAtBody_eq hb
    obtain ⟨e1, e2, e3⟩ := decodeBodyA_spec hr
    refine h.of_kept hf hkept e2 ?_ ?_ ?_ ?_ ⟨fun h => absurd rfl h, ?_, fun h => absurd rfl h, fun _ => rfl, ?_⟩
    · rw [e1]; exact e2
    · rw [e1]; exact h.stored.lB
    · exact CursorLegal.of_offset (h.cursor hf) (by rw [e1]) (by rw [e1]) e3
    · exact AdpcmLegal.of_eq (h.adpcm hf) (by rw [e1]) (by rw [e1]) (by rw [e1]) (by rw [e1]) (by rw [e1]) (by rw [e1])
    · rw [e1]; exact hcl.lastB
    · rw [e1]; simp [Inner.idle]
  | faDecodeFrame =>
    have hkept := bodyOf_kept (by simp) hb
    obtain ⟨e0, ⟨e1, e1'⟩, e2⟩ := decodeFrameA_spec hb
    rcases e2 with ⟨_, rfl⟩ | ⟨_, e2, e3, e4, e5, e6⟩
    · exact h
    · obtain ⟨i1, i2⟩ := index_ne_none e0 h.config.1
      refine h.of_kept hf hkept e5 (by rw [e3]; exact e5) ?_ ?_ ?_ ⟨fun _ => ?_, ?_, fun _ => e3.symm, ?_, ?_⟩
      · rw [e1]; exact h.stored.lB
      · exact CursorLegal.of_offset (h.cursor hf) (by rw [e1]) (by rw [e1]) e6
      · exact AdpcmLegal.of_eq (h.adpcm hf) (by rw [e1]) (by rw [e1]) (by rw [e1]) (by rw [e1]) (by rw [e1]) (by rw [e1])
      · rw [e2, i1, e1]; exact e0
      · rw [e1]; exact hcl.lastB
      · rw [e4]; simp [Inner.idle]
      · rw [e4]; simp [Inner.idle]
  | fbReset =>
    have hkept := bodyOf_kept (by simp) hb
    obtain rfl := Except.ok.inj hb
    refine h.of_kept hf hkept h.stored.lA h.stored.pA LayersB.ok_empty
      (CursorLegal.of_eq (h.cursor hf) rfl rfl rfl rfl)
      (AdpcmLegal.of_eq (h.adpcm hf) rfl rfl rfl rfl rfl rfl) ⟨hcl.lastA, fun h => absurd rfl h,
        hcl.same, hcl.lines, fun _ => rfl⟩
  | fbDecodeLayer k =>
    have hkept := bodyOf_kept (by simp) hb
    obtain ⟨_, r, hr, rfl⟩ := fbDecodeLayerBody_eq hb
    obtain ⟨_, e1, _, e3⟩ := decodeLayerB_spec hr
    obtain ⟨g1, g2⟩ := e3 h.stored.lB
    refine h.of_kept hf hkept ?_ ?_ g1 (CursorLegal.of_eq g2 rfl rfl rfl rfl) ?_
      ⟨?_, fun h => absurd rfl h, ?_, ?_, fun _ => rfl⟩
    · rw [e1]; exact h.stored.lA
    · rw [e1]; exact h.stored.pA
    · exact AdpcmLegal.of_eq (h.adpcm hf) (by rw [e1]) (by rw [e1]) (by rw [e1]) (by rw [e1]) (by rw [e1]) (by rw [e1])
    · rw [e1]; exact hcl.lastA
    · rw [e1]; exact hcl.same
    · rw [e1]; simp [Inner.idle]
  | fbDecodeFrame =>
    have hkept := bodyOf_kept (by simp) hb
    obtain ⟨e0, ⟨e1, e1', e1''⟩, e2, -⟩ := decodeFrameB_spec hb
    obtain ⟨g1, g2⟩ := e1'' ⟨h.stored.lB, h.cursor hf⟩
    have hcmd : t.inner.seq = .command := by
      rcases e1' with e | e
      · rw [e]; exact hseq
      · rw [e]; rfl
    refine h.of_kept hf hkept ?_ ?_ g1 g2 ?_ ⟨?_, ?_, ?_, ?_, ?_⟩
    · rw [e1]; exact h.stored.lA
    · rw [e1]; exact h.stored.pA
    · exact AdpcmLegal.of_eq (h.adpcm hf) (by rw [e1]) (by rw [e1]) (by rw [e1]) (by rw [e1]) (by rw [e1]) (by rw [e1])
    · rw [e1]; exact hcl.lastA
    · rcases e2 with ⟨_, rfl⟩ | ⟨_, e2⟩
      · exact hcl.lastB
      · intro _
        have hcfg : t.cfg = s.cfg := by rw [e1]
        rw [e2, (index_ne_none e0 h.config.2).1, hcfg]
        exact e0
    · rw [e1]; exact hcl.same
    · rw [hcmd]; simp
    · rw [hcmd]; simp
  | reset =>
    obtain rfl := Except.ok.inj hb
    exact resetOf_inv h
  | lineBlank => simp [formOf] at hi
  | lineSparse => simp [formOf] at hi
  | lineInvSparse => simp [formOf] at hi
  | lineRaw => simp [formOf] at hi
  | tileCommon => simp [formOf] at hi
  | tileFull => simp [formOf] at hi
  | tileCommonAlt => simp [formOf] at hi
  | tileFullAlt => simp [formOf] at hi
  | tileRows => simp [formOf] at hi
  | tileSkip => simp [formOf] at hi
  | tileReserved => simp [formOf] at hi
  | tilePattern => simp [formOf] at hi

/-- A line keeps the invariant. -/
theorem line_inv {c : LineCode} {s t : State} (h : s.Inv) (hf : s.faulted = false)
    (hseq : s.inner.seq = .lines) (hb : lineBody c s = .ok t) : t.Inv ∧ t.inner = s.inner := by
  have hin : t.inner = s.inner := lineBody_inner hb
  obtain ⟨e1, e2⟩ := lineBody_stepsA hb
  have e1 : t = { s with offset := t.offset, lA := t.lA, inner := t.inner } := e1
  obtain ⟨g1, g2⟩ := e2 ⟨h.stored.lA, (h.cursor hf).offset⟩
  have hcl := h.cache hf
  refine ⟨h.of_kept hf (lineBody_kept hb) g1 ?_ ?_ ?_ ?_ ?_, hin⟩
  · rw [e1]; exact h.stored.pA
  · rw [e1]; exact h.stored.lB
  · exact CursorLegal.of_offset (h.cursor hf) (by rw [e1]) (by rw [e1]) g2
  · exact AdpcmLegal.of_eq (h.adpcm hf) (by rw [e1]) (by rw [e1]) (by rw [e1]) (by rw [e1]) (by rw [e1]) (by rw [e1])
  · exact CacheLegal.of_eq hcl (by rw [e1]) (by rw [e1]) (by rw [e1])
      (fun hn => absurd (hcl.lines hseq) hn) (.inl (by rw [hin]))

/-- A part of a tile record keeps the invariant. -/
theorem tileStep_inv {s t : State} (h : s.Inv) (hf : s.faulted = false) (hb : TileStepB s t) : t.Inv := by
  have e1 := hb.only
  obtain ⟨g1, g2⟩ := hb.good ⟨h.stored.lB, h.cursor hf⟩
  have hkept : Kept s t := by unfold Kept; rw [e1]
  refine h.of_kept hf hkept ?_ ?_ g1 g2 ?_ ?_
  · rw [e1]; exact h.stored.lA
  · rw [e1]; exact h.stored.pA
  · exact AdpcmLegal.of_eq (h.adpcm hf) (by rw [e1]) (by rw [e1]) (by rw [e1]) (by rw [e1]) (by rw [e1]) (by rw [e1])
  · exact CacheLegal.of_eq (h.cache hf) (by rw [e1]) (by rw [e1]) (by rw [e1])
      (fun _ => ⟨by rw [e1], by rw [e1]⟩) (.inl (by rw [hb.inner]))

/-! ## Steps -/

theorem plainOp_form (op : Byte) : ((plainOp op).all fun i => decide (formOf i = .command)) = true := by
  revert op
  decide +kernel

/-- The host can issue commands only. -/
theorem decodeCmd_form {w : Word} {i : Instr} (h : decodeCmd w = .ok i) : formOf i = .command := by
  unfold decodeCmd at h
  split at h
  · simp at h
  · split at h
    · rename_i j hj
      obtain rfl := Except.ok.inj h
      unfold operandOp at hj
      split at hj
      · obtain rfl := Option.some.inj hj; rfl
      split at hj
      · obtain rfl := Option.some.inj hj; rfl
      split at hj
      · obtain rfl := Option.some.inj hj; rfl
      · simp at hj
    · split at h
      · simp at h
      · split at h
        · rename_i j hj
          obtain rfl := Except.ok.inj h
          have := plainOp_form (opField w)
          rw [hj] at this
          simpa using this
        · simp at h

theorem State.Inv.of_regs {s : State} (h : s.Inv) (c a0 a1 : Word) (q : List HostAccess) :
    State.Inv { s with cmd := c, arg0 := a0, arg1 := a1, host := q } :=
  ⟨⟨h.stored.mem, h.stored.lA, h.stored.pA, h.stored.lB⟩,
    ⟨h.status.reserved, h.status.code, h.status.range⟩, h.config,
    fun hf => CursorLegal.of_eq (h.cursor hf) rfl rfl rfl rfl,
    fun hf => AdpcmLegal.of_eq (h.adpcm hf) rfl rfl rfl rfl rfl rfl,
    fun hf => CacheLegal.of_eq (h.cache hf) rfl rfl rfl (fun _ => ⟨rfl, rfl⟩) (.inl rfl), h.idle⟩

theorem State.Inv.of_inner {s : State} (h : s.Inv) {i : Inner}
    (hi : i.seq = s.inner.seq ∨ i.seq = .command) : State.Inv { s with inner := i } :=
  ⟨⟨h.stored.mem, h.stored.lA, h.stored.pA, h.stored.lB⟩,
    ⟨h.status.reserved, h.status.code, h.status.range⟩, h.config,
    fun hf => CursorLegal.of_eq (h.cursor hf) rfl rfl rfl rfl,
    fun hf => AdpcmLegal.of_eq (h.adpcm hf) rfl rfl rfl rfl rfl rfl,
    fun hf => CacheLegal.of_eq (h.cache hf) rfl rfl rfl (fun _ => ⟨rfl, rfl⟩) hi,
    fun hf => by
      rcases hi with hi | hi
      · exact hi.trans (h.idle hf)
      · exact hi⟩

theorem advanceLine_eq (s : State) :
    ∃ i, advanceLine s = { s with inner := i } ∧ (i.seq = s.inner.seq ∨ i.seq = .command) := by
  unfold advanceLine
  split
  · exact ⟨s.inner, rfl, .inl rfl⟩
  · split
    · exact ⟨_, rfl, .inr rfl⟩
    · exact ⟨_, rfl, .inl rfl⟩

theorem advanceSlot_eq (s : State) :
    ∃ i, advanceSlot s = { s with inner := i } ∧ (i.seq = s.inner.seq ∨ i.seq = .command) := by
  unfold advanceSlot
  split
  · exact ⟨s.inner, rfl, .inl rfl⟩
  · split
    · exact ⟨_, rfl, .inr rfl⟩
    · exact ⟨_, rfl, .inl rfl⟩

theorem advanceLine_inv {s : State} (h : s.Inv) : (advanceLine s).Inv := by
  obtain ⟨i, h1, h2⟩ := advanceLine_eq s
  rw [h1]
  exact h.of_inner h2

theorem advanceSlot_inv {s : State} (h : s.Inv) : (advanceSlot s).Inv := by
  obtain ⟨i, h1, h2⟩ := advanceSlot_eq s
  rw [h1]
  exact h.of_inner h2

/-- An instruction keeps the invariant when its effect does. -/
theorem exec_inv {i : Instr} {s t : State} (h : s.Inv)
    (hb : ∀ u, s.faulted = false → bodyOf i s = .ok u → u.Inv) (he : exec i s = .next t) : t.Inv := by
  rcases exec_cases i s with ⟨_, h1⟩ | ⟨_, _, h1⟩ | ⟨_, hf, u, h2, h1⟩ | ⟨_, _, f, _, h1⟩ <;>
    rw [h1] at he <;> obtain rfl := Host.Outcome.next.inj he
  · exact resetOf_inv h
  · exact h
  · exact hb _ hf h2
  · exact raise_inv h

theorem afterNext_eq {f : State → State} {o : Outcome State Fault Refusal} {t : State}
    (h : afterNext f o = .next t) : ∃ u, o = .next u ∧ t = f u := by
  cases o with
  | next u => exact ⟨u, rfl, (Host.Outcome.next.inj h).symm⟩
  | fault r => simp [afterNext] at h
  | refused r => simp [afterNext] at h

theorem decodeLine_body (c : LineCode) (s : State) : bodyOf (decodeLine c) s = lineBody c s := by
  have : ∀ c : LineCode, c = 0#2 ∨ c = 1#2 ∨ c = 2#2 ∨ c = 3#2 := by decide
  rcases this c with rfl | rfl | rfl | rfl <;> rfl

theorem decodeTile_body (c : BitVec 3) (s : State) : bodyOf (decodeTile c) s = tileBody c s := by
  have : ∀ c : BitVec 3, c = 0#3 ∨ c = 1#3 ∨ c = 2#3 ∨ c = 3#3 ∨ c = 4#3 ∨ c = 5#3 ∨ c = 6#3 ∨ c = 7#3 := by
    decide
  rcases this c with rfl | rfl | rfl | rfl | rfl | rfl | rfl | rfl <;> rfl

theorem decodeLine_ne_reset (c : LineCode) : decodeLine c ≠ .reset := by
  unfold decodeLine; repeat' split
  all_goals simp

theorem decodeTile_ne_reset (c : BitVec 3) : decodeTile c ≠ .reset := by
  unfold decodeTile; repeat' split
  all_goals simp

/-- A host access keeps the invariant. -/
theorem hostAccess_inv {a : HostAccess} {s t : State} (h : s.Inv)
    (hseq : s.inner.seq = .command) (he : hostAccess a s = .next t) : t.Inv := by
  have admitted : ∀ {α : Type} {v : Option α} {r : Refusal}, admitRead v r s = .next t → t.Inv := by
    intro α v r hr
    unfold admitRead at hr
    cases v with
    | none => simp at hr
    | some x => obtain rfl := Host.Outcome.next.inj hr; exact h
  cases a with
  | writeReg reg v =>
    simp only [hostAccess, writeReg] at he
    split at he
    · have h' : State.Inv { s with cmd := v } := h.of_regs v s.arg0 s.arg1 s.host
      unfold issue at he
      split at he
      · rename_i i hi
        exact exec_inv h' (fun u hf hb => command_inv h' hf hseq (decodeCmd_form hi) hb) he
      · obtain rfl := Host.Outcome.next.inj he
        exact raise_inv h'
    · obtain rfl := Host.Outcome.next.inj he
      exact h.of_regs s.cmd v s.arg1 s.host
    · obtain rfl := Host.Outcome.next.inj he
      exact h.of_regs s.cmd s.arg0 v s.host
    · split at he
      · obtain rfl := Host.Outcome.next.inj he
        exact h
      · simp at he
  | readReg reg => exact admitted he
  | readLA k p => exact admitted he
  | readPA k p => exact admitted he
  | readLB k p => exact admitted he
  | readPcm i => exact admitted he

theorem hostStep_inv {s t : State} (h : s.Inv) (hseq : s.inner.seq = .command)
    (he : hostStep s = .next t) : t.Inv := by
  unfold hostStep at he
  split at he
  · obtain rfl := Host.Outcome.next.inj he
    exact h
  · rename_i a q _
    exact hostAccess_inv (h.of_regs s.cmd s.arg0 s.arg1 q) hseq he

/-! ## Memory written from outside keeps its canonical form -/

theorem placeBytes_wf {a : Nat} {bs : List Byte} {m : List Host.Cell} (h : Sparse.wf 0 m = true) :
    Sparse.wf 0 (placeBytes a bs m) = true := by
  induction bs generalizing a m with
  | nil => exact h
  | cons b bs ih => exact ih (Sparse.wf_set h)

theorem placeBytes_below {a n : Nat} {bs : List Byte} {m : List Host.Cell}
    (h : Sparse.below n m = true) (ha : a + bs.length ≤ n) : Sparse.below n (placeBytes a bs m) = true := by
  induction bs generalizing a m with
  | nil => exact h
  | cons b bs ih =>
    simp only [List.length_cons] at ha
    exact ih (Sparse.below_set h (by omega)) (by omega)

theorem Sparse.below_mono {α : Type} {m : Sparse α} {n n' : Nat} (h : Sparse.below n m = true)
    (hn : n ≤ n') : Sparse.below n' m = true := by
  simp only [Sparse.below, List.all_eq_true, decide_eq_true_eq] at h ⊢
  intro e he
  exact Nat.lt_of_lt_of_le (h e he) hn

/-- Placing bytes keeps `MEM` canonical and inside `LEN`. -/
theorem withStreamBytes_memoryOk {s : State} {bs : List Byte} (h : s.memoryOk)
    (hb : bs.length < 2 ^ 32) : (s.withStreamBytes bs).memoryOk := by
  obtain ⟨h1, h2⟩ := h
  have hl := s.len.isLt
  refine ⟨placeBytes_wf h1, ?_⟩
  have key : ∀ a, a + bs.length < 2 ^ 32 →
      Sparse.below (BitVec.ofNat 32 (max s.len.toNat (a + bs.length))).toNat (placeBytes a bs s.mem) = true := by
    intro a ha
    have : (BitVec.ofNat 32 (max s.len.toNat (a + bs.length))).toNat = max s.len.toNat (a + bs.length) := by
      rw [BitVec.toNat_ofNat]
      omega
    rw [this]
    exact placeBytes_below (Sparse.below_mono h2 (by omega)) (by omega)
  unfold State.withStreamBytes
  by_cases hc : s.offset.toNat + bs.length < 2 ^ 32
  · simp only [hc, if_true]
    exact key _ hc
  · simp only [hc, if_false]
    exact key _ (by omega)

/-! ## A recorded fault, and a word written to `CMD` -/

/-- `FCODE` is the code just recorded. -/
theorem status_fcode (st : Word) (c : Byte) : statusFcode (statusWithFault st c) = c := by
  unfold statusFcode statusWithFault
  ext i hi
  simp
  interval_cases i <;> simp

/-- A raise in an unfaulted block records its fault (60_exceptions.md R301, R305). -/
theorem raise_recorded {s : State} (f : Raised) (hf : s.faulted = false) :
    FaultRecorded s (raise f s) (fcodeOf f.code) (BitVec.ofInt 32 f.info) := by
  rw [raise_of_running hf]
  exact ⟨statusFaulted_withFault _ _, status_fcode _ _, rfl, rfl⟩

/-- The host's write to `CMD` issues the word (10_state.md R23). -/
theorem step_write {s : State} {w : Word} {q : List HostAccess} (hq : s.inner.seq = .command)
    (hh : s.host = .writeReg 0 w :: q) :
    step s = issue w { s with cmd := w, host := q } := by
  unfold step hostStep
  rw [hq, hh]
  simp [hostAccess, writeReg]

/-! ## What a step does to the input and to the record of a fault -/

/-- The input and the record of a fault are as before. -/
structure QuietStep (s t : State) : Prop where
  mem : t.mem = s.mem
  len : t.len = s.len
  cfg : t.cfg = s.cfg
  status : t.status = s.status
  finfo : t.finfo = s.finfo

/-- A fault was recorded in an unfaulted block; the input is as before. -/
structure FaultStep (s t : State) : Prop where
  mem : t.mem = s.mem
  len : t.len = s.len
  cfg : t.cfg = s.cfg
  running : s.faulted = false
  record : ∃ f : Raised, t.status = statusWithFault s.status (fcodeOf f.code) ∧ t.finfo = BitVec.ofInt 32 f.info

theorem QuietStep.refl (s : State) : QuietStep s s := ⟨rfl, rfl, rfl, rfl, rfl⟩

theorem QuietStep.of_kept {s t : State} (h : Kept s t) : QuietStep s t := by
  unfold Kept at h
  exact ⟨by rw [h], by rw [h], by rw [h], by rw [h], by rw [h]⟩

theorem FaultStep.of_raise {f : Raised} {s : State} (h : s.faulted = false) : FaultStep s (raise f s) := by
  rw [raise_of_running h]
  exact ⟨rfl, rfl, rfl, h, f, rfl, rfl⟩

/-- A raise while faulted changes nothing, else it records its fault. -/
theorem raise_step (f : Raised) (s : State) : QuietStep s (raise f s) ∨ FaultStep s (raise f s) := by
  cases h : s.faulted
  · exact .inr (.of_raise h)
  · exact .inl (by rw [raise_of_faulted h]; exact .refl s)

/-- What an instruction can do to the input and the record of a fault. -/
theorem exec_step {i : Instr} {s t : State} (h : exec i s = .next t) :
    QuietStep s t ∨ FaultStep s t ∨ (i = .reset ∧ t = resetOf s) := by
  rcases exec_cases i s with ⟨hi, h1⟩ | ⟨_, _, h1⟩ | ⟨hi, hf, u, h2, h1⟩ | ⟨_, hf, f, _, h1⟩ <;>
    rw [h1] at h <;> obtain rfl := Host.Outcome.next.inj h
  · exact .inr (.inr ⟨hi, rfl⟩)
  · exact .inl (.refl s)
  · exact .inl (.of_kept (bodyOf_kept hi h2))
  · exact .inr (.inl (.of_raise hf))

/-- Only one word is `RESET` (30_encoding.md R92, R93). -/
theorem decodeCmd_reset {w : Word} (h : decodeCmd w = .ok .reset) : w = 0x000000FF#32 := by
  have hplain : ∀ op : Byte, plainOp op = some .reset → op = 0xFF#8 := by decide +kernel
  unfold decodeCmd at h
  split at h
  · cases h
  · rename_i hr
    have hw := cmdWord_fields w (by simpa using hr)
    split at h
    · rename_i j hj
      cases h
      unfold operandOp at hj
      split at hj
      · cases hj
      · split at hj
        · cases hj
        · split at hj <;> cases hj
    · split at h
      · cases h
      · rename_i hi
        split at h
        · rename_i j hj
          cases h
          rw [← hw, hplain _ hj, show imm8Field w = 0#8 by simpa using hi]
          decide
        · cases h

/-- What one access of the host can do. -/
theorem hostStep_step {s t : State} (h : hostStep s = .next t) :
    QuietStep s t ∨ FaultStep s t ∨ ∃ q, s.host = .writeReg 0 0x000000FF#32 :: q ∧
      t = resetOf { s with cmd := 0x000000FF#32, host := q } := by
  unfold hostStep at h
  split at h
  · obtain rfl := Host.Outcome.next.inj h
    exact .inl (.refl s)
  · rename_i a q hq
    have admitted : ∀ {α : Type} {v : Option α} {r : Refusal} {s t : State}, admitRead v r s = .next t → t = s := by
      intro α v r s t hr
      unfold admitRead at hr
      cases v with
      | none => simp at hr
      | some x => exact (Host.Outcome.next.inj hr).symm
    cases a with
    | writeReg reg v =>
      simp only [hostAccess, writeReg] at h
      split at h
      · unfold issue at h
        split at h
        · rename_i i hi
          rcases exec_step h with h1 | h1 | ⟨rfl, rfl⟩
          · exact .inl ⟨h1.mem, h1.len, h1.cfg, h1.status, h1.finfo⟩
          · exact .inr (.inl ⟨h1.mem, h1.len, h1.cfg, h1.running, h1.record⟩)
          · obtain rfl := decodeCmd_reset hi
            exact .inr (.inr ⟨q, hq, rfl⟩)
        · obtain rfl := Host.Outcome.next.inj h
          rename_i w' _
          rcases raise_step ⟨.illegalCmd, w'.toNat⟩ { s with cmd := v, host := q } with h1 | h1
          · exact .inl ⟨h1.mem, h1.len, h1.cfg, h1.status, h1.finfo⟩
          · exact .inr (.inl ⟨h1.mem, h1.len, h1.cfg, h1.running, h1.record⟩)
      · obtain rfl := Host.Outcome.next.inj h
        exact .inl ⟨rfl, rfl, rfl, rfl, rfl⟩
      · obtain rfl := Host.Outcome.next.inj h
        exact .inl ⟨rfl, rfl, rfl, rfl, rfl⟩
      · split at h
        · obtain rfl := Host.Outcome.next.inj h
          exact .inl ⟨rfl, rfl, rfl, rfl, rfl⟩
        · simp at h
    | readReg reg => rw [admitted h]; exact .inl ⟨rfl, rfl, rfl, rfl, rfl⟩
    | readLA k p => rw [admitted h]; exact .inl ⟨rfl, rfl, rfl, rfl, rfl⟩
    | readPA k p => rw [admitted h]; exact .inl ⟨rfl, rfl, rfl, rfl, rfl⟩
    | readLB k p => rw [admitted h]; exact .inl ⟨rfl, rfl, rfl, rfl, rfl⟩
    | readPcm i => rw [admitted h]; exact .inl ⟨rfl, rfl, rfl, rfl, rfl⟩

theorem QuietStep.inner {s t : State} (h : QuietStep s t) {f : State → State}
    (hf : ∃ i, f t = { t with inner := i } ∧ (i.seq = t.inner.seq ∨ i.seq = .command)) :
    QuietStep s (f t) := by
  obtain ⟨i, hi, _⟩ := hf
  rw [hi]
  exact ⟨h.mem, h.len, h.cfg, h.status, h.finfo⟩

theorem FaultStep.inner {s t : State} (h : FaultStep s t) {f : State → State}
    (hf : ∃ i, f t = { t with inner := i } ∧ (i.seq = t.inner.seq ∨ i.seq = .command)) :
    FaultStep s (f t) := by
  obtain ⟨i, hi, _⟩ := hf
  rw [hi]
  exact ⟨h.mem, h.len, h.cfg, h.running, h.record⟩

theorem readTileType_quiet {s : State} {r : BitVec 3 × State} (h : readTileType s = .ok r) :
    QuietStep s r.2 := by
  have := (readTileType_tileStep h).only
  exact ⟨by rw [this], by rw [this], by rw [this], by rw [this], by rw [this]⟩

/-- What a step can do to the input and to the record of a fault: nothing, the recording of a fault in an
unfaulted block, or a `RESET`. -/
theorem step_next {s t : State} (h : step s = .next t) :
    QuietStep s t ∨ FaultStep s t ∨ ∃ q, s.host = .writeReg 0 0x000000FF#32 :: q ∧
      t = resetOf { s with cmd := 0x000000FF#32, host := q } := by
  unfold step at h
  split at h
  · exact hostStep_step h
  · rename_i hf
    split at h
    · exact hostStep_step h
    · obtain ⟨u, hu, rfl⟩ := afterNext_eq h
      rcases exec_step hu with h1 | h1 | ⟨h1, _⟩
      · exact .inl (h1.inner (advanceLine_eq u))
      · exact .inr (.inl (h1.inner (advanceLine_eq u)))
      · exact absurd h1 (decodeLine_ne_reset _)
    · unfold tileStep at h
      split at h
      · obtain rfl := Host.Outcome.next.inj h
        exact .inl (QuietStep.inner (s := s) (t := s.countSkip) ⟨rfl, rfl, rfl, rfl, rfl⟩ (advanceSlot_eq _))
      · split at h
        · rename_i r hr
          have hq := readTileType_quiet hr
          obtain ⟨u, hu, rfl⟩ := afterNext_eq h
          rcases exec_step hu with h1 | h1 | ⟨h1, _⟩
          · exact .inl (QuietStep.inner ⟨h1.mem.trans hq.mem, h1.len.trans hq.len, h1.cfg.trans hq.cfg, h1.status.trans hq.status, h1.finfo.trans hq.finfo⟩ (advanceSlot_eq u))
          · refine .inr (.inl (FaultStep.inner ⟨h1.mem.trans hq.mem, h1.len.trans hq.len, h1.cfg.trans hq.cfg, by simpa using hf, ?_⟩ (advanceSlot_eq u)))
            have := h1.record
            rwa [hq.status] at this
          · exact absurd h1 (decodeTile_ne_reset _)
        · obtain rfl := Host.Outcome.next.inj h
          exact .inr (.inl (.of_raise (by simpa using hf)))

/-- A seek inside the buffer. -/
theorem seekTo_ok {x : Int} {s : State} (h1 : 0 ≤ x) (h2 : x ≤ (s.len.toNat : Int)) :
    seekTo x s = .ok { s with offset := BitVec.ofInt 32 x } := by
  rw [seekTo, if_neg (by omega)]

/-- A seek outside the buffer (40_cursor.md R120 to R122). -/
theorem seekTo_range {x : Int} {s : State} (h : x < 0 ∨ (s.len.toNat : Int) < x) :
    seekTo x s = .error ⟨.seekRange, x⟩ := by
  rw [seekTo, if_pos (by omega)]

/-- An integer sum kept modulo 2^32. -/
theorem add_ofInt (a b : Word) : BitVec.ofInt 32 ((a.toNat : Int) + b.toInt) = a + b := by
  rw [BitVec.ofInt_add]; simp

/-- An instruction whose body raises records the fault. -/
theorem exec_fault {i : Instr} {s : State} {f : Raised} (hf : s.faulted = false)
    (h : bodyOf i s = .error f) :
    ∃ t, exec i s = .next t ∧ FaultRecorded s t (fcodeOf f.code) (BitVec.ofInt 32 f.info) :=
  ⟨_, exec_of_raise hf h, raise_recorded f hf⟩

/-- A track inside the buffer (41_adpcm.md R157, R163). -/
theorem decodeTrack_ok {f : Byte → State → State} {s : State} (h : s.arg0.toNat + s.arg1.toNat ≤ s.len.toNat) :
   decodeTrack f s = .ok (feedBytes f s.arg0.toNat s.arg1.toNat s) := by
  rw [decodeTrack, if_neg (by unfold argUnsigned argLength; omega)]; rfl

/-- A track past the buffer (41_adpcm.md R157, R163). -/
theorem decodeTrack_bounds {f : Byte → State → State} {s : State}
    (h : s.len.toNat < s.arg0.toNat + s.arg1.toNat) :
   decodeTrack f s = .error ⟨.bounds, s.arg0.toNat⟩ := by
  rw [decodeTrack, if_pos (by unfold argUnsigned argLength; omega)]; rfl

/-- An instruction that ends unfaulted ends as its body does. -/
theorem exec_body {i : Instr} {s t : State} (hi : i ≠ .reset) (hf : s.faulted = false)
    (ht : t.faulted = false) (h : exec i s = .next t) : bodyOf i s = .ok t := by
  rcases exec_cases i s with ⟨h0, _⟩ | ⟨_, hc, _⟩ | ⟨_, _, u, h2, h1⟩ | ⟨_, _, f, _, h1⟩
  · exact absurd h0 hi
  · rw [hf] at hc
    cases hc
  · rw [h1] at h
    obtain rfl := Host.Outcome.next.inj h
    exact h2
  · rw [h1] at h
    obtain rfl := Host.Outcome.next.inj h
    rw [raise_faulted] at ht
    cases ht

/-- What `FA_DECODE_AT` leaves (42_frame_a.md R207). -/
theorem faDecodeAtBody_ok {s r : State} (h : decodeBodyA s.arg0.toNat s = .ok r) :
    faDecodeAtBody s = .ok { r with lastA := noFrame } := by
  simp only [faDecodeAtBody, argUnsigned, h, Run.bind_ok]

/-- The same where `FINFO` is a number. -/
theorem exec_fault_nat {i : Instr} {s : State} {c : FaultCode} {n : Nat} (hf : s.faulted = false)
    (h : bodyOf i s = .error ⟨c, n⟩) :
    ∃ t, exec i s = .next t ∧ FaultRecorded s t (fcodeOf c) (BitVec.ofNat 32 n) := by
  have h1 := exec_fault hf h
  rwa [show BitVec.ofInt 32 (n : Int) = BitVec.ofNat 32 n from BitVec.ofInt_natCast ..] at h1

/-- A running block that an instruction leaves faulted: its effect raised. -/
theorem exec_raised {i : Instr} {s t : State} (hi : i ≠ .reset) (hf : s.faulted = false)
    (h : exec i s = .next t) (ht : t.faulted = true) : ∃ f, bodyOf i s = .error f ∧ t = raise f s := by
  rcases exec_cases i s with ⟨h1, _⟩ | ⟨_, h1, _⟩ | ⟨_, _, u, h1, h2⟩ | ⟨_, _, f, h1, h2⟩
  · exact absurd h1 hi
  · rw [hf] at h1; simp at h1
  · obtain rfl := Host.Outcome.next.inj (h.symm.trans h2)
    have hk := bodyOf_kept hi h1
    rw [State.faulted, show t.status = s.status by rw [hk]] at ht
    exact absurd ht (by rw [show statusFaulted s.status = false from hf]; simp)
  · exact ⟨f, h1, Host.Outcome.next.inj (h.symm.trans h2)⟩

/-- An effect that raises what another one raised ends with the same fault code and information. -/
theorem exec_same_fault {i : Instr} {s u : State} {f : Raised} (hf : s.faulted = false) (hu : u.faulted = false)
    (h : bodyOf i s = .error f) :
    ∃ v, exec i s = .next v ∧
      FaultRecorded s v (statusFcode (raise f u).status) (raise f u).finfo := by
  refine ⟨raise f s, exec_of_raise hf h, ?_⟩
  rw [(raise_recorded f hu).fcode, (raise_recorded f hu).finfo]
  exact raise_recorded f hf

end Sys2Proof.Machine
end

