-- ==== Sys2Proof/Laws/Coherent.lean ====
section
/-! SUPPORT. The format A cache: from a state whose layers are those of its cached frame, a frame decodes to what it
decodes to alone, and every kind of step keeps it so (42_frame_a.md R208, R221, R222, R225). -/

namespace Sys2Proof.Machine

/-- From any state whose layers are those of its cached frame, a frame decodes to what it decodes to from an empty
cache (42_frame_a.md R208, R222, R225). -/
theorem decodeFrameA_coherent {r : State} (hn : r.cfg.frameOffsetA.length < 2 ^ 32)
    (hrl : r.lastA = noFrame) (i : Nat) :
    ∀ {a t : State}, SameInput a r →
    (∀ j, cacheIs a.lastA (j : Nat) = true → j < r.cfg.frameOffsetA.length → ∃ x, decodeFrameA j r = .ok x ∧ x.lA = a.lA ∧ x.pA = a.pA) →
    decodeFrameA i a = .ok t → ∃ x, decodeFrameA i r = .ok x ∧ x.lA = t.lA ∧ x.pA = t.pA := by
  have hcr : ∀ j : Int, cacheIs r.lastA j = false := by intro j; rw [hrl]; exact cacheIs_noFrame j
  induction i with
  | zero =>
    intro a t har hco h
    have hi := (decodeFrameA_spec h).1
    rw [← har.2.2] at hi
    cases hc : cacheIs a.lastA ((0 : Nat) : Int)
    · obtain ⟨f, hfo, hfb⟩ := decodeFrameA_header hc h
      refine decodeFrameA_alone_same har hfo hfb hc (hcr _) (.inl ?_) h
      cases hk : headerKey (a.byteAt f.toNat)
      · rw [decodeFrameA_zero_delta hfo hc hfb hk] at h
        cases h
      · rfl
    · rw [decodeFrameA_cached (decodeFrameA_spec h).1 hc] at h
      obtain rfl := Except.ok.inj h
      exact hco 0 hc hi
  | succ i ih =>
    intro a t har hco h
    have hi' := (decodeFrameA_spec h).1
    have hi := hi'
    rw [← har.2.2] at hi
    cases hc : cacheIs a.lastA ((i + 1 : Nat) : Int)
    · obtain ⟨f, hfo, hfb⟩ := decodeFrameA_header hc h
      cases hk : headerKey (a.byteAt f.toNat)
      · have hfr : r.cfg.frameOffsetA[i + 1]? = some f := by rw [har.2.2]; exact hfo
        rw [decodeFrameA_chain hn hfr (hcr _) (hcr _) (by rw [har.2.1]; exact hfb) (by rw [byteAt_same har]; exact hk)]
        have last : ∀ {b x : State}, SameInput b r → cacheIs b.lastA ((i + 1 : Nat) : Int) = false → b.lastA = BitVec.ofNat 32 i →
            headerKey (b.byteAt f.toNat) = false → decodeFrameA (i + 1) b = .ok t →
            decodeFrameA i r = .ok x → x.lA = b.lA → x.pA = b.pA →
            ∃ x, (decodeFrameA i r >>= decodeFrameA (i + 1)) = .ok x ∧ x.lA = t.lA ∧ x.pA = t.pA := by
          intro b x hbr hcb hlb hkb hb hx _ hxp
          rw [hx, Run.bind_ok]
          have hlx : x.lastA = BitVec.ofNat 32 i := decodeFrameA_lastA (hcr _) hx
          have hp : cacheIs (BitVec.ofNat 32 i) (((i + 1 : Nat) : Int) - 1) = true := by
            rw [show ((i + 1 : Nat) : Int) - 1 = (i : Int) by omega]
            exact cacheIs_self (by omega : i < r.cfg.frameOffsetA.length) hn
          refine decodeFrameA_alone_same (hbr.trans (decodeFrameA_spec hx).2.1.same) (f := f) ?_ ?_ hcb (by rw [hlx, ← hlb]; exact hcb) (.inr ⟨by rw [hlb]; exact hp, by rw [hlx]; exact hp, hxp⟩) hb
          · rw [← hbr.2.2]; exact hfr
          · rw [← hbr.2.1, har.2.1]; exact hfb
        cases hp : cacheIs a.lastA (i : Int)
        · rw [decodeFrameA_chain (by rw [← har.2.2]; exact hn) hfo hc hp hfb hk] at h
          obtain ⟨u, hu, h⟩ := Run.bind_eq_ok.1 h
          obtain ⟨x, hx, hxl, hxp⟩ := ih har hco hu
          have hus := (decodeFrameA_spec hu).2.1.same
          have hlu := decodeFrameA_lastA hp hu
          refine last (hus.symm.trans har) ?_ hlu ?_ h hx hxl hxp
          · rw [hlu]
            exact cacheIs_other hi hn (fun h => by
              have := congrArg BitVec.toNat h
              rw [(index_ne_none (by omega : i < r.cfg.frameOffsetA.length) hn).1, (index_ne_none hi hn).1] at this
              omega)
          · rw [byteAt_same hus]; exact hk
        · obtain ⟨x, hx, hxl, hxp⟩ := hco i hp (by omega)
          exact last har hc ((cacheIs_eq (by omega : i < r.cfg.frameOffsetA.length) hn _).1 hp) hk h hx hxl hxp
      · exact decodeFrameA_alone_same har hfo hfb hc (hcr _) (.inl hk) h
    · rw [decodeFrameA_cached hi' hc] at h
      obtain rfl := Except.ok.inj h
      exact hco _ hc hi

/-- The state that `FA_RESET` leaves (42_frame_a.md R224). -/
def State.resetFa (s : State) : State := { s with lA := ⟨[], []⟩, pA := ⟨[], []⟩, lastA := noFrame }

/-- `frameAlone` in terms of the decode itself. -/
theorem frameAlone_iff {s : State} {i : Nat} {l p : LayersA} (hf : s.faulted = false)
    (hi : i < s.cfg.frameOffsetA.length)
    (hn : s.cfg.frameOffsetA.length < 2 ^ 32) :
    s.frameAlone i = some (l, p) ↔ ∃ x, decodeFrameA i s.resetFa = .ok x ∧ x.lA = l ∧ x.pA = p := by
  have hto := (index_ne_none hi hn).1
  have h1 : exec .faReset s = .next s.resetFa := exec_of_body hf rfl
  have hrf : s.resetFa.faulted = false := hf
  unfold State.frameAlone
  rw [h1]
  simp only []
  constructor
  · intro h
    split at h
    · rename_i u hu
      split at h
      · cases h
      · rename_i huf
        have hb := exec_body (i := .faDecodeFrame) (s := { s.resetFa with arg0 := BitVec.ofNat 32 i }) (by simp) hrf (by simpa using huf) hu
        have hb : decodeFrameA (BitVec.ofNat 32 i).toNat _ = _ := hb
        rw [hto] at hb
        have := Option.some.inj h
        exact ⟨_, decodeFrameA_arg0_back hb, (Prod.mk.inj this).1, (Prod.mk.inj this).2⟩
    · cases h
    · cases h
  · rintro ⟨x, hx, rfl, rfl⟩
    have hb := decodeFrameA_arg0_ok (BitVec.ofNat 32 i) hx
    have he : exec .faDecodeFrame { s.resetFa with arg0 := BitVec.ofNat 32 i } = .next { x with arg0 := BitVec.ofNat 32 i } := by
      refine exec_of_body (i := .faDecodeFrame) (s := { s.resetFa with arg0 := BitVec.ofNat 32 i }) hrf ?_
      show decodeFrameA (BitVec.ofNat 32 i).toNat _ = _
      rw [hto]; exact hb
    have hxf : x.faulted = false := by
      have := (decodeFrameA_spec hx).2.1.1
      unfold State.faulted at *; rw [this]; exact hf
    rw [he]
    have hxf' : State.faulted { x with arg0 := BitVec.ofNat 32 i } = false := hxf
    simp only [hxf']; rfl

/-- A frame decoded from a coherent state comes out as it does alone. -/
theorem frameAlone_of_decode {s t : State} {i : Nat} (hf : s.faulted = false) (hcfg : s.ConfigLegal)
    (hc : s.CoherentA)
    (h : decodeFrameA i s = .ok t) : s.frameAlone i = some (t.lA, t.pA) := by
  refine (frameAlone_iff hf (decodeFrameA_spec h).1 hcfg.1).2 (decodeFrameA_coherent (a := s) (r := s.resetFa) hcfg.1 rfl i ⟨rfl, rfl, rfl⟩ (fun j hj hlt => ?_) h)
  obtain ⟨h1, h2⟩ := cacheIs_iff.1 hj
  obtain rfl : s.lastA.toNat = j := by omega
  exact (frameAlone_iff hf hlt hcfg.1).1 (hc hf h1)

/-- What a frame decodes to alone depends on the input only. -/
theorem frameAlone_same {s t : State} {i : Nat} (hf : s.faulted = false) (hft : t.faulted = false)
    (hi : i < s.cfg.frameOffsetA.length)
    (hcfg : s.ConfigLegal) (h : SameInput s t) {v : LayersA × LayersA} (hv : s.frameAlone i = some v) : t.frameAlone i = some v := by
  obtain ⟨l, p⟩ := v
  obtain ⟨x, hx, rfl, rfl⟩ := (frameAlone_iff hf hi hcfg.1).1 hv
  refine (frameAlone_iff hft (by rw [h.2.2]; exact hi) (by rw [h.2.2]; exact hcfg.1)).2 ?_
  exact decodeFrameA_coherent (r := t.resetFa) (by show t.cfg.frameOffsetA.length < _; rw [h.2.2]; exact hcfg.1) rfl i (a := s.resetFa) h
    (fun j hj _ => by rw [show s.resetFa.lastA = noFrame from rfl, cacheIs_noFrame] at hj; cases hj) hx

/-- A frame that decodes alone is in the table. -/
theorem frameAlone_lt {s : State} {i : Nat} (hf : s.faulted = false) (hi : i < 2 ^ 32)
    {v : LayersA × LayersA} (h : s.frameAlone i = some v) :
    i < s.cfg.frameOffsetA.length := by
  by_contra hlt
  have h1 : exec .faReset s = .next s.resetFa := exec_of_body hf rfl
  have h2 : exec .faDecodeFrame { s.resetFa with arg0 := BitVec.ofNat 32 i } = _ :=
    exec_of_raise (s := { s.resetFa with arg0 := BitVec.ofNat 32 i }) (f := ⟨.frameRange, i⟩) hf (by
      show decodeFrameA (BitVec.ofNat 32 i).toNat _ = _
      rw [BitVec.toNat_ofNat, Nat.mod_eq_of_lt hi]
      exact decodeFrameA_range (by show s.cfg.frameOffsetA.length ≤ i; omega))
  unfold State.frameAlone at h
  rw [h1] at h
  simp only [h2, raise_faulted, if_true] at h
  cases h

/-- The cache stays coherent while the input, the cached index and, where one is cached, the layers stay. -/
theorem State.CoherentA.of_same {s t : State} (hc : s.CoherentA) (hcfg : s.ConfigLegal) (h : SameInput s t)
    (hf : t.faulted = false → s.faulted = false) (h1 : t.lastA = s.lastA) (h2 : t.lastA ≠ noFrame → t.lA = s.lA ∧ t.pA = s.pA) : t.CoherentA := by
  intro htf hl
  have hf := hf htf
  obtain ⟨h2, h3⟩ := h2 hl
  rw [h1] at hl
  rw [h1, h2, h3]
  exact frameAlone_same hf htf (frameAlone_lt hf s.lastA.isLt (hc hf hl)) hcfg h (hc hf hl)

theorem State.CoherentA.of_none {s : State} (h : s.lastA = noFrame) : s.CoherentA := fun _ hl => absurd h hl

theorem State.CoherentA.of_faulted {s : State} (h : s.faulted = true) :
    s.CoherentA := fun hf _ => by rw [h] at hf; cases hf

theorem raise_coherentA (f : Raised) (s : State) : (raise f s).CoherentA := .of_faulted (raise_faulted f s)

/-- A decode of a frame leaves a coherent cache. -/
theorem decodeFrameA_keeps {s t : State} {i : Nat} (hf : s.faulted = false) (hcfg : s.ConfigLegal)
    (hc : s.CoherentA)
    (h : decodeFrameA i s = .ok t) : t.CoherentA := by
  have ha := frameAlone_of_decode hf hcfg hc h
  have hsp := decodeFrameA_spec h
  rcases hsp.2.2 with ⟨_, rfl⟩ | ⟨_, hl, _⟩
  · exact hc
  · intro htf _
    rw [hl, (index_ne_none hsp.1 hcfg.1).1]
    exact frameAlone_same hf htf hsp.1 hcfg hsp.2.1.same ha

/-- A command leaves a coherent cache. -/
theorem command_coherentA {i : Instr} {s t : State} (hI : s.Inv) (hf : s.faulted = false) (hc : s.CoherentA)
    (hi : formOf i = .command) (hb : bodyOf i s = .ok t) : t.CoherentA := by
  by_cases hr : i = .reset
  · subst hr
    obtain rfl := Except.ok.inj hb
    exact .of_none rfl
  have hk := bodyOf_kept hr hb
  have hq := QuietStep.of_kept hk
  have same : t.lastA = s.lastA → t.lA = s.lA → t.pA = s.pA → t.CoherentA := fun h1 h2 h3 =>
    hc.of_same hI.config ⟨hq.mem, hq.len, hq.cfg⟩ (fun _ => hf) h1 fun _ => ⟨h2, h3⟩
  cases i with
  | seekSet => have := (seekTo_only hb).1; exact same (by rw [this]) (by rw [this]) (by rw [this])
  | seekCur => have := (seekTo_only hb).1; exact same (by rw [this]) (by rw [this]) (by rw [this])
  | seekEnd => have := (seekTo_only hb).1; exact same (by rw [this]) (by rw [this]) (by rw [this])
  | bitsReset => obtain rfl := Except.ok.inj hb; exact same rfl rfl rfl
  | bitsRead n =>
    obtain ⟨_, _, r, hr, rfl, hco⟩ := bitsReadBody_eq hb
    unfold CursorOnly at hco
    exact same (by show r.2.lastA = _; rw [hco]) (by show r.2.lA = _; rw [hco]) (by show r.2.pA = _; rw [hco])
  | adpcmAInit => obtain rfl := Except.ok.inj hb; exact same rfl rfl rfl
  | adpcmADecode =>
    obtain ⟨_, rfl⟩ := decodeTrack_eq hb
    have := feedBytes_only_A (argUnsigned s) (argLength s) s
    exact same (by rw [this]) (by rw [this]) (by rw [this])
  | adpcmBInit c =>
    simp only [bodyOf, adpcmBInitBody] at hb
    split at hb
    · cases hb
    · obtain rfl := Except.ok.inj hb
      exact same rfl rfl rfl
  | adpcmBDecode =>
    obtain ⟨_, rfl⟩ := decodeTrack_eq hb
    have := feedBytes_only_B (argUnsigned s) (argLength s) s
    exact same (by rw [this]) (by rw [this]) (by rw [this])
  | faReset => obtain rfl := Except.ok.inj hb; exact .of_none rfl
  | faDecodeAt => obtain ⟨r, _, rfl⟩ := faDecodeAtBody_eq hb; exact .of_none rfl
  | faDecodeFrame => exact decodeFrameA_keeps hf hI.config hc hb
  | fbReset => obtain rfl := Except.ok.inj hb; exact same rfl rfl rfl
  | fbDecodeLayer k =>
    obtain ⟨_, r, hr, rfl⟩ := fbDecodeLayerBody_eq hb
    have := (decodeLayerB_spec hr).2.1
    exact same (by rw [this]) (by rw [this]) (by rw [this])
  | fbDecodeFrame =>
    have := (decodeFrameB_spec hb).2.1.only
    exact same (by rw [this]) (by rw [this]) (by rw [this])
  | reset => exact absurd rfl hr
  | lineBlank => simp [formOf] at hi
  | lineSparse => simp [formOf] at hi
  | lineInvSparse => simp [formOf] at hi
  | lineRaw => simp [formOf] at hi
  | tileCommon => simp [formOf] at hi
  | tileFull => simp [formOf] at hi
  | tileCommonAlt => simp [formOf] at hi
  | tileFullAlt => simp [formOf] at hi
  | tileRows => simp [formOf] at hi
  | tileSkip => simp [formOf] at hi
  | tileReserved => simp [formOf] at hi
  | tilePattern => simp [formOf] at hi

/-- An instruction leaves a coherent cache when its effect does. -/
theorem exec_coherentA {i : Instr} {s t : State} (hc : s.CoherentA)
    (hb : ∀ u, s.faulted = false → bodyOf i s = .ok u → u.CoherentA) (he : exec i s = .next t) : t.CoherentA := by
  rcases exec_cases i s with ⟨_, h1⟩ | ⟨_, _, h1⟩ | ⟨_, hf, u, h2, h1⟩ | ⟨_, _, f, _, h1⟩ <;>
    rw [h1] at he <;> obtain rfl := Host.Outcome.next.inj he
  · exact .of_none rfl
  · exact hc
  · exact hb _ hf h2
  · exact raise_coherentA f s

theorem State.CoherentA.of_regs {s : State} (hc : s.CoherentA) (hI : s.Inv) (c a0 a1 : Word)
    (q : List HostAccess) :
    State.CoherentA { s with cmd := c, arg0 := a0, arg1 := a1, host := q } :=
  hc.of_same hI.config ⟨rfl, rfl, rfl⟩ id rfl fun _ => ⟨rfl, rfl⟩

theorem State.CoherentA.of_inner {s : State} (hc : s.CoherentA) (hI : s.Inv) (i : Inner) :
    State.CoherentA { s with inner := i } :=
  hc.of_same hI.config ⟨rfl, rfl, rfl⟩ id rfl fun _ => ⟨rfl, rfl⟩

/-- An access of the host leaves a coherent cache. -/
theorem hostStep_coherentA {s t : State} (hI : s.Inv) (hc : s.CoherentA) (he : hostStep s = .next t) :
    t.CoherentA := by
  unfold hostStep at he
  split at he
  · obtain rfl := Host.Outcome.next.inj he
    exact hc
  · rename_i a q _
    have admitted : ∀ {α : Type} {v : Option α} {r : Refusal}, admitRead v r { s with host := q } = .next t → t.CoherentA := by
      intro α v r hr
      unfold admitRead at hr
      cases v with
      | none => cases hr
      | some x => obtain rfl := Host.Outcome.next.inj hr; exact hc.of_regs hI s.cmd s.arg0 s.arg1 q
    cases a with
    | writeReg reg v =>
      simp only [hostAccess, writeReg] at he
      split at he
      · have hI' := hI.of_regs v s.arg0 s.arg1 q
        have hc' := hc.of_regs hI v s.arg0 s.arg1 q
        unfold issue at he
        split at he
        · rename_i i hi
          exact exec_coherentA hc' (fun u hf hb => command_coherentA hI' hf hc' (decodeCmd_form hi) hb) he
        · obtain rfl := Host.Outcome.next.inj he
          exact raise_coherentA _ _
      · obtain rfl := Host.Outcome.next.inj he
        exact hc.of_regs hI s.cmd v s.arg1 q
      · obtain rfl := Host.Outcome.next.inj he
        exact hc.of_regs hI s.cmd s.arg0 v q
      · split at he
        · obtain rfl := Host.Outcome.next.inj he
          exact hc.of_regs hI s.cmd s.arg0 s.arg1 q
        · cases he
    | readReg reg => exact admitted he
    | readLA k p => exact admitted he
    | readPA k p => exact admitted he
    | readLB k p => exact admitted he
    | readPcm i => exact admitted he

/-- A part of a tile record leaves a coherent cache. -/
theorem tileStep_coherentA {s t : State} (hI : s.Inv) (hc : s.CoherentA) (hb : TileStepB s t) :
    t.CoherentA := by
  have e1 := hb.only
  exact hc.of_same hI.config ⟨by rw [e1], by rw [e1], by rw [e1]⟩ (fun h => by unfold State.faulted at *; rw [e1] at h; exact h)
    (by rw [e1]) fun _ => ⟨by rw [e1], by rw [e1]⟩
/-- One `FA_DECODE_FRAME` of frame j from a coherent state. -/
theorem frame_next {s t : State} {j : Nat} (hf : s.faulted = false) (hcfg : s.ConfigLegal) (hc : s.CoherentA)
    (h : exec .faDecodeFrame { s with arg0 := BitVec.ofNat 32 j } = .next t) (ht : t.faulted = false) (hj : j < 2 ^ 32) :
    SameInput s t ∧ t.CoherentA ∧ j < s.cfg.frameOffsetA.length ∧ s.frameAlone j = some (t.lA, t.pA) := by
  have hc' : State.CoherentA { s with arg0 := BitVec.ofNat 32 j } := hc.of_same hcfg ⟨rfl, rfl, rfl⟩ id rfl fun _ => ⟨rfl, rfl⟩
  have hb : decodeFrameA (BitVec.ofNat 32 j).toNat _ = _ :=
    exec_body (i := .faDecodeFrame) (s := { s with arg0 := BitVec.ofNat 32 j }) (by simp) hf ht h
  rw [BitVec.toNat_ofNat, Nat.mod_eq_of_lt hj] at hb
  have hs : SameInput s t := FrameStepA.same (s := { s with arg0 := BitVec.ofNat 32 j }) (decodeFrameA_spec hb).2.1
  have hlt : j < s.cfg.frameOffsetA.length := (decodeFrameA_spec hb).1
  refine ⟨hs, decodeFrameA_keeps (s := { s with arg0 := BitVec.ofNat 32 j }) hf hcfg hc' hb, hlt, ?_⟩
  exact frameAlone_same (s := { s with arg0 := BitVec.ofNat 32 j }) hf hf hlt hcfg ⟨rfl, rfl, rfl⟩
    (frameAlone_of_decode (s := { s with arg0 := BitVec.ofNat 32 j }) hf hcfg hc' hb)

end Sys2Proof.Machine
end

