-- ==== Sys2Proof/Laws/Loops.lean ====
section
/-! SUPPORT. The decode loops inside a command and the machine run record by record are the same (log 10), and what
the line-type table unpacks to (42_frame_a.md R195). -/

namespace Sys2Proof.Machine

open Host (Outcome)

theorem run_succ (n : Nat) {s t : State} (h : step s = .next t) :
    Host.Core.run Sys2Proof.core (n + 1) s = Host.Core.run Sys2Proof.core n t := by
  have h' : Sys2Proof.core.step s = .next t := h
  simp only [Host.Core.run, h']

theorem run_zero (s : State) : Host.Core.run Sys2Proof.core 0 s = .next s := rfl

/-! ## The tile loop -/

theorem step_tiles {s : State} (hf : s.faulted = false) (hq : s.inner.seq = .tiles) :
    step s = tileStep s := by
  simp only [step, hf, hq, Bool.false_eq_true, if_false]

theorem step_lines {s : State} (hf : s.faulted = false) (hq : s.inner.seq = .lines) :
    step s = lineStep s := by
  simp only [step, hf, hq, Bool.false_eq_true, if_false]

theorem TileStepB.faulted {s t : State} (h : TileStepB s t) : t.faulted = s.faulted := by
  unfold State.faulted
  rw [h.only]

/-- A turn of the tile loop that completes. -/
theorem tileStep_ok {s t : State} (hf : s.faulted = false) (h : slotBody s = .ok t) :
    tileStep s = .next (advanceSlot t) := by
  unfold slotBody at h
  unfold tileStep
  split at h
  · rename_i hk
    rw [if_pos hk, ← Except.ok.inj h]
  · rename_i hk
    rw [if_neg hk]
    obtain ⟨r, hr, hb⟩ := Run.bind_eq_ok.1 h
    have hf' : r.2.faulted = false := (readTileType_tileStep hr).faulted.trans hf
    simp only [hr, exec_of_body hf' ((decodeTile_body r.1 r.2).trans hb), afterNext]

/-- A turn of the tile loop that raises. -/
theorem tileStep_error {s : State} {f : Raised} (hf : s.faulted = false) (h : slotBody s = .error f) :
    ∃ u, tileStep s = .next u ∧ u.faulted = true ∧
      u.status = statusWithFault s.status (fcodeOf f.code) ∧ u.finfo = BitVec.ofInt 32 f.info := by
  unfold slotBody at h
  unfold tileStep
  split at h
  · simp at h
  · rename_i hk
    rw [if_neg hk]
    rcases Run.bind_eq_error.1 h with hr | ⟨r, hr, hb⟩
    · refine ⟨raise f s, by simp only [hr], raise_faulted _ _, ?_, ?_⟩ <;> rw [raise_of_running hf]
    · have hts := readTileType_tileStep hr
      have hf' : r.2.faulted = false := hts.faulted.trans hf
      have hs : r.2.status = s.status := by rw [hts.only]
      refine ⟨raise f r.2, ?_, raise_faulted _ _, ?_, ?_⟩
      · simp only [hr, exec_of_raise hf' ((decodeTile_body r.1 r.2).trans hb), afterNext]
        congr 1
        unfold advanceSlot
        rw [raise_of_running hf']
        simp [havoc, Inner.idle]
      · rw [raise_of_running hf', ← hs]
      · rw [raise_of_running hf']

theorem slot_ofNat {i : Nat} (h : i < 1200) : (Fin.ofNat 1200 i).val = i := Nat.mod_eq_of_lt h

theorem slotBody_seq {s t : State} (hq : s.inner.seq = .tiles) (h : slotBody s = .ok t) :
    t.inner.seq = .tiles := by
  rw [(slotBody_tileStep h).inner]
  exact hq

/-- Between two slots of a layer. -/
theorem advanceSlot_atSlot {s t : State} {i : Nat} (hi : i + 1 < 1200) (hq : s.inner.seq = .tiles)
    (h : slotBody (s.atSlot i) = .ok t) : advanceSlot t = t.atSlot (i + 1) := by
  have hslot : t.inner.slot.val = i := by
    rw [(slotBody_tileStep h).inner]
    exact slot_ofNat (by omega)
  have h1 : ¬ t.inner.slot.val = 1199 := by omega
  have h2 : ¬ t.inner.seq ≠ .tiles := by simp [slotBody_seq (s := s.atSlot i) hq h]
  unfold advanceSlot
  rw [if_neg h2, if_neg h1, hslot]
  rfl

/-- The tile loop from slot i on is 1200 − i steps. -/
theorem tileLoop_run {n i : Nat} {s t : State} (hn : i + (n + 1) = 1200) (hf : s.faulted = false)
    (hq : s.inner.seq = .tiles) (h : forRange decodeSlot i (n + 1) s = .ok t) :
    Host.Core.run Sys2Proof.core (n + 1) (s.atSlot i) = .next t.closeLayerB := by
  induction n generalizing i s with
  | zero =>
    obtain ⟨w, hw, ht⟩ := Run.bind_eq_ok.1 h
    obtain rfl := Except.ok.inj ht
    have hin := (slotBody_tileStep hw).inner
    have hslot : w.inner.slot.val = 1199 := by
      rw [hin]
      show (Fin.ofNat 1200 i).val = 1199
      rw [slot_ofNat (by omega)]
      omega
    have hseq : w.inner.seq = .tiles := by rw [hin]; exact hq
    rw [run_succ 0 ((step_tiles (s := s.atSlot i) hf hq).trans (tileStep_ok hf hw)), run_zero]
    simp [advanceSlot, hseq, hslot, State.closeLayerB]
  | succ n ih =>
    obtain ⟨w, hw, ht⟩ := Run.bind_eq_ok.1 h
    rw [run_succ (n + 1) ((step_tiles (s := s.atSlot i) hf hq).trans (tileStep_ok hf hw)),
      advanceSlot_atSlot (by omega) hq hw]
    exact ih (by omega) ((slotBody_tileStep hw).faulted.trans hf) (slotBody_seq (s := s.atSlot i) hq hw) ht

/-- A raise in the tile loop is a fault of one of its steps. -/
theorem tileLoop_fault {n i : Nat} {s : State} {f : Raised} (hn : i + n = 1200) (hf : s.faulted = false)
    (hq : s.inner.seq = .tiles) (h : forRange decodeSlot i n s = .error f) :
    ∃ m u, m ≤ n ∧ Host.Core.run Sys2Proof.core m (s.atSlot i) = .next u ∧ u.faulted = true ∧
      u.status = statusWithFault s.status (fcodeOf f.code) ∧ u.finfo = BitVec.ofInt 32 f.info := by
  induction n generalizing i s with
  | zero => simp [forRange] at h
  | succ n ih =>
    rcases Run.bind_eq_error.1 h with hw | ⟨w, hw, ht⟩
    · obtain ⟨u, hu, h1⟩ := tileStep_error (s := s.atSlot i) hf hw
      exact ⟨1, u, by omega, by
        rw [run_succ 0 ((step_tiles (s := s.atSlot i) hf hq).trans hu), run_zero], h1⟩
    · have hts := slotBody_tileStep hw
      have hstatus : w.status = s.status := by rw [hts.only]; rfl
      cases n with
      | zero => simp [forRange] at ht
      | succ n =>
        obtain ⟨m, u, hm, hu, h1, h2, h3⟩ := ih (by omega) (hts.faulted.trans hf)
          (slotBody_seq (s := s.atSlot i) hq hw) ht
        refine ⟨m + 1, u, by omega, ?_, h1, by rw [h2, hstatus], h3⟩
        rw [run_succ m ((step_tiles (s := s.atSlot i) hf hq).trans (tileStep_ok hf hw)),
          advanceSlot_atSlot (by omega) hq hw]
        exact hu

/-! ## The line loop -/

theorem lineStep_ok {s t : State} {k : Fin 2} {y : Nat} (hf : s.faulted = false) (hy : y < 192)
    (h : decodeLineAt k y s = .ok t) : step (s.atLine k y) = .next (advanceLine t) := by
  have hv : (s.atLine k y).inner.lineA.val = y := Nat.mod_eq_of_lt hy
  have hl : lineTypeOf (s.atLine k y) k y = lineTypeOf s k y := rfl
  rw [step_lines (s := s.atLine k y) hf rfl, lineStep, hv]
  show afterNext advanceLine (exec (decodeLine (lineTypeOf (s.atLine k y) k y)) (s.atLine k y)) = _
  rw [exec_of_body (s := s.atLine k y) hf ((decodeLine_body _ _).trans (by rw [hl]; exact h))]
  rfl

/-- A turn of the line loop that raises. -/
theorem lineStep_error {s : State} {k : Fin 2} {y : Nat} {f : Raised} (hf : s.faulted = false) (hy : y < 192)
    (h : decodeLineAt k y s = .error f) :
    step (s.atLine k y) = .next (raise f (s.atLine k y)) := by
  have hf' : (s.atLine k y).faulted = false := hf
  have hv : (s.atLine k y).inner.lineA.val = y := Nat.mod_eq_of_lt hy
  have hl : lineTypeOf (s.atLine k y) k y = lineTypeOf s k y := rfl
  rw [step_lines hf' rfl, lineStep, hv]
  show afterNext advanceLine (exec (decodeLine (lineTypeOf (s.atLine k y) k y)) (s.atLine k y)) = _
  rw [exec_of_raise hf' ((decodeLine_body _ _).trans (by rw [hl]; exact h)), afterNext]
  congr 1
  unfold advanceLine
  rw [raise_of_running hf']
  simp [havoc, Inner.idle]

theorem decodeLineAt_inner {s t : State} {k : Fin 2} {y : Nat} (h : decodeLineAt k y s = .ok t) :
    t.inner = (s.atLine k y).inner := lineBody_inner h

theorem decodeLineAt_status {s t : State} {k : Fin 2} {y : Nat} (h : decodeLineAt k y s = .ok t) :
    t.status = s.status := by
  have h1 : t = { s.atLine k y with offset := t.offset, lA := t.lA, inner := t.inner } :=
    (lineBody_stepsA h).1
  rw [h1]
  rfl

theorem decodeLineAt_faulted {s t : State} {k : Fin 2} {y : Nat} (h : decodeLineAt k y s = .ok t) :
    t.faulted = s.faulted := congrArg statusFaulted (decodeLineAt_status h)

/-- Between two lines of a layer. -/
theorem advanceLine_atLine {s t : State} {k : Fin 2} {y : Nat} (hy : y + 1 < 192)
    (h : decodeLineAt k y s = .ok t) : advanceLine t = t.atLine k (y + 1) := by
  have hin := decodeLineAt_inner h
  have hline : t.inner.lineA.val = y := by
    rw [hin]
    exact Nat.mod_eq_of_lt (show y < 192 by omega)
  have hseq : t.inner.seq = .lines := by rw [hin]; rfl
  have hk : t.inner.layerA = k := by rw [hin]; rfl
  have h1 : ¬ t.inner.lineA.val = 191 := by omega
  have h2 : ¬ t.inner.seq ≠ .lines := by simp [hseq]
  unfold advanceLine State.atLine
  rw [if_neg h2, if_neg h1, hline, ← hk, ← hseq]

/-- The line loop of a layer from line y on is 192 − y steps. -/
theorem lineLoop_run {n y : Nat} {k : Fin 2} {s t : State} (hn : y + (n + 1) = 192)
    (hf : s.faulted = false) (h : forRange (decodeLineAt k) y (n + 1) s = .ok t) :
    Host.Core.run Sys2Proof.core (n + 1) (s.atLine k y) = .next { t with inner := Inner.idle } := by
  induction n generalizing y s with
  | zero =>
    obtain ⟨w, hw, ht⟩ := Run.bind_eq_ok.1 h
    obtain rfl := Except.ok.inj ht
    have hin := decodeLineAt_inner hw
    have hline : w.inner.lineA.val = 191 := by
      rw [hin]
      show (Fin.ofNat 192 y).val = 191
      rw [show (Fin.ofNat 192 y).val = y from Nat.mod_eq_of_lt (by omega)]
      omega
    have hseq : w.inner.seq = .lines := by rw [hin]; rfl
    rw [run_succ 0 (lineStep_ok hf (by omega) hw), run_zero]
    simp [advanceLine, hseq, hline]
  | succ n ih =>
    obtain ⟨w, hw, ht⟩ := Run.bind_eq_ok.1 h
    rw [run_succ (n + 1) (lineStep_ok hf (by omega) hw), advanceLine_atLine (by omega) hw]
    exact ih (by omega) ((decodeLineAt_faulted hw).trans hf) ht

/-- A raise in the line loop is a fault of one of its steps. -/
theorem lineLoop_fault {n y : Nat} {k : Fin 2} {s : State} {f : Raised} (hn : y + n = 192)
    (hf : s.faulted = false) (h : forRange (decodeLineAt k) y n s = .error f) :
    ∃ m u, m ≤ n ∧ Host.Core.run Sys2Proof.core m (s.atLine k y) = .next u ∧ u.faulted = true ∧
      u.status = statusWithFault s.status (fcodeOf f.code) ∧ u.finfo = BitVec.ofInt 32 f.info := by
  induction n generalizing y s with
  | zero => simp [forRange] at h
  | succ n ih =>
    rcases Run.bind_eq_error.1 h with hw | ⟨w, hw, ht⟩
    · refine ⟨1, raise f (s.atLine k y), by omega, ?_, raise_faulted _ _, ?_, ?_⟩
      · rw [run_succ 0 (lineStep_error hf (by omega) hw), run_zero]
      all_goals rw [raise_of_running (s := s.atLine k y) hf]
      rfl
    · cases n with
      | zero => simp [forRange] at ht
      | succ n =>
        obtain ⟨m, u, hm, hu, h1, h2, h3⟩ := ih (by omega) ((decodeLineAt_faulted hw).trans hf) ht
        refine ⟨m + 1, u, by omega, ?_, h1, by rw [h2, decodeLineAt_status hw], h3⟩
        rw [run_succ m (lineStep_ok hf (by omega) hw), advanceLine_atLine (by omega) hw]
        exact hu

/-! ## The line-type table -/

theorem lineTypeOf_setLineType (s : State) (k k' : Fin 2) (y y' : Nat) (c : LineCode)
    (h : Sparse.wf 0 s.inner.tA = true) :
    lineTypeOf (s.setLineType k y c) k' y' =
      if 192 * k'.val + y' = 192 * k.val + y then c else lineTypeOf s k' y' := by
  simp only [lineTypeOf, State.setLineType_inner]
  exact Sparse.get_set h

theorem setLineType_wf {s : State} (k : Fin 2) (y : Nat) (c : LineCode)
    (h : Sparse.wf 0 s.inner.tA = true) : Sparse.wf 0 (s.setLineType k y c).inner.tA = true :=
  Sparse.wf_set h

/-- `UnpackTypes` (42_frame_a.md R195): 48 bytes, four types each, lowest bits first; the other layer's types
stay. -/
theorem unpackTypes_value {k : Fin 2} {s : State} (hw : Sparse.wf 0 s.inner.tA = true)
    (hb : s.offset.toNat + 48 ≤ s.len.toNat) :
    ∃ t, unpackTypes k s = .ok t ∧ t.offset.toNat = s.offset.toNat + 48 ∧
      (∀ y, y < 192 →
        lineTypeOf t k y = lineCodeAt (s.byteAt (s.offset.toNat + y / 4)) (y % 4)) ∧
      (∀ k' y, k' ≠ k → y < 192 → lineTypeOf t k' y = lineTypeOf s k' y) ∧
      Sparse.wf 0 t.inner.tA = true ∧
      t = { s with offset := t.offset, inner := { s.inner with tA := t.inner.tA } } := by
  obtain ⟨t, ht, h1, h2, h3, h5, h4⟩ := forRange_completes (i := 0) (n := 48) (f := unpackByte k) (s := s)
    (P := fun j u => Sparse.wf 0 u.inner.tA = true ∧ u.offset.toNat = s.offset.toNat + j ∧
      (∀ y, y < 4 * j → lineTypeOf u k y = lineCodeAt (s.byteAt (s.offset.toNat + y / 4)) (y % 4)) ∧
      (∀ k' y, k' ≠ k → y < 192 → lineTypeOf u k' y = lineTypeOf s k' y) ∧
      u = { s with offset := u.offset, inner := { s.inner with tA := u.inner.tA } })
    ⟨hw, rfl, fun y hy => absurd hy (by omega), fun _ _ _ _ => rfl, rfl⟩
    (by
      rintro j u _ hj ⟨g1, g2, g3, g5, g4⟩
      have hlen : u.len = s.len := by rw [g4]
      have hmem : u.mem = s.mem := by rw [g4]
      have hroom : u.offset.toNat + 1 ≤ u.len.toNat := by rw [hlen]; omega
      have hbyte : u.byteAt u.offset.toNat = s.byteAt (s.offset.toNat + j) := by
        rw [g2]; simp only [State.byteAt, hmem]
      have hadv := State.advance_toNat hroom
      have w1 : Sparse.wf 0 (u.advance 1).inner.tA = true := g1
      have w2 := setLineType_wf k (4 * j) (lineCodeAt (u.byteAt u.offset.toNat) 0) w1
      have w3 := setLineType_wf k (4 * j + 1) (lineCodeAt (u.byteAt u.offset.toNat) 1) w2
      have w4 := setLineType_wf k (4 * j + 2) (lineCodeAt (u.byteAt u.offset.toNat) 2) w3
      refine ⟨_, unpackByte_ok hroom, setLineType_wf _ _ _ w4, ?_, ?_, fun k' y hk hy => ?_, ?_⟩
      · simp only [State.setLineType_offset]
        rw [hadv, g2]
        omega
      · intro y hy
        rw [lineTypeOf_setLineType _ _ _ _ _ _ w4, lineTypeOf_setLineType _ _ _ _ _ _ w3,
          lineTypeOf_setLineType _ _ _ _ _ _ w2, lineTypeOf_setLineType _ _ _ _ _ _ w1, hbyte]
        simp only [Nat.add_left_cancel_iff]
        by_cases e3 : y = 4 * j + 3
        · rw [if_pos e3, show y / 4 = j by omega, show y % 4 = 3 by omega]
        · rw [if_neg e3]
          by_cases e2 : y = 4 * j + 2
          · rw [if_pos e2, show y / 4 = j by omega, show y % 4 = 2 by omega]
          · rw [if_neg e2]
            by_cases e1 : y = 4 * j + 1
            · rw [if_pos e1, show y / 4 = j by omega, show y % 4 = 1 by omega]
            · rw [if_neg e1]
              by_cases e0 : y = 4 * j
              · rw [if_pos e0, show y / 4 = j by omega, show y % 4 = 0 by omega]
              · rw [if_neg e0]
                exact g3 y (by omega)
      · have hk' : k'.val ≠ k.val := fun h => hk (Fin.ext h)
        rw [lineTypeOf_setLineType _ _ _ _ _ _ w4, lineTypeOf_setLineType _ _ _ _ _ _ w3,
          lineTypeOf_setLineType _ _ _ _ _ _ w2, lineTypeOf_setLineType _ _ _ _ _ _ w1,
          if_neg (by omega), if_neg (by omega), if_neg (by omega), if_neg (by omega)]
        exact g5 k' y hk hy
      · simp only [State.setLineType, State.advance]
        rw [g4])
  exact ⟨t, ht, h2, fun y hy => h3 y (by omega), h5, h1, h4⟩

/-- A line type of a table byte, as a number (30_encoding.md R103). -/
theorem lineCodeAt_toNat (b : Byte) (m : Nat) : (lineCodeAt b m).toNat = b.toNat / 4 ^ m % 4 := by
  unfold lineCodeAt
  rw [BitVec.extractLsb'_toNat, Nat.shiftRight_eq_div_pow, show (4:Nat) ^ m = 2 ^ (2 * m) by rw [Nat.pow_mul]]

end Sys2Proof.Machine
end

