-- ==== Sys2Proof/Tests/Slice0.lean ====
section
/-! SUPPORT. The model's own tests. Expected values come from the spec's encodings and from its vectors
(95_test_vectors.md, named in each comment); the witnesses show that each statement's hypotheses can be met. -/

namespace Sys2Proof.Tests

open Sys2Proof Sys2Proof.Machine

/-! ## Small states -/

/-- `MEM` holds these bytes from address 0 and `LEN` counts them. -/
def loaded (bs : List Byte) (s : State) : State :=
  { s with mem := placeBytes 0 bs [], len := BitVec.ofNat 32 bs.length }

/-- The bytes most of the spec's cursor vectors use. -/
def m6 : State := loaded [0xB5, 0x3C, 0x12, 0xF0, 0xFF, 0x01] State.reset

/-- The state an instruction leaves. -/
def after (i : Instr) (s : State) : State :=
  match exec i s with
  | .next t => t
  | .fault _ => s
  | .refused _ => s

/-- The state a step leaves. -/
def stepped (s : State) : State :=
  match step s with
  | .next t => t
  | .fault _ => s
  | .refused _ => s

/-- The host's next access is a write to `CMD`. -/
def issuing (w : Word) (s : State) : State := { s with host := [.writeReg 0 w] }

/-- A faulted block: `ILLEGAL_CMD` is recorded. -/
def faultedState : State := { m6 with status := 0x00000101 }

/-- The line loop at line 2 of layer 1 over some bytes. -/
def lineState (bs : List Byte) : State :=
  loaded bs { State.reset with inner := { Inner.idle with seq := .lines, layerA := 1, lineA := 2 } }

/-- The tile loop at slot 1, tile (8, 0), of layer 1 over some bytes; the type field has been read. -/
def tileState (bs : List Byte) : State :=
  loaded bs { State.reset with inner := { Inner.idle with seq := .tiles, layerB := 1, slot := 1 } }

/-- The first `n` pixels of row 2 of layer 1. -/
def line2 (n : Nat) (s : State) : List Bool := (List.range n).map fun x => pixelA (s.lA.layer 1) (512 + x)

/-- Row r of tile (8, 0) of layer 1. -/
def tileRow (r : Nat) (s : State) : List Nat :=
  (List.range 8).map fun c => (pixelB (s.lB.layer 1) (320 * r + 8 + c)).val

theorem synced (s : State) (h1 : s.acc = 0#32) (h2 : s.dfc = 16#5) : s.Synced := by
  have h := resetBits_synced s
  rwa [show s.resetBits = s by unfold State.resetBits; cases s; cases h1; cases h2; rfl] at h

/-- An instruction always has a next state. -/
theorem exec_after (i : Instr) (s : State) : exec i s = .next (after i s) := by
  obtain ⟨t, ht⟩ := exec_next i s
  rw [ht, after, ht]

/-- A word written to `CMD` always has a next state. -/
theorem step_issue {s : State} {w : Word} {q : List HostAccess} (hs : s.inner.seq = .command)
    (hh : s.host = .writeReg 0 w :: q) : step s = .next (stepped s) := by
  obtain ⟨t, ht⟩ : ∃ t, step s = .next t := by
    rw [step_write hs hh, issue]
    split
    · exact exec_next _ _
    · exact ⟨_, rfl⟩
  rw [ht, stepped, ht]

theorem m6_legal : m6.CursorLegal := ⟨by decide, by decide, by decide, by decide⟩

/-! ## WellFormed refuses each ill-formed term (30_encoding.md R93) -/

theorem test_wf_bitsRead_0 : Instr.wellFormed (.bitsRead 0) = false := by decide
theorem test_wf_bitsRead_1 : Instr.wellFormed (.bitsRead 1) = true := by decide
theorem test_wf_bitsRead_16 : Instr.wellFormed (.bitsRead 16) = true := by decide
theorem test_wf_bitsRead_17 : Instr.wellFormed (.bitsRead 17) = false := by decide
theorem test_wf_adpcmBInit_1 : Instr.wellFormed (.adpcmBInit 1) = true := by decide
theorem test_wf_adpcmBInit_2 : Instr.wellFormed (.adpcmBInit 2) = false := by decide
theorem test_wf_fbDecodeLayer_2 : Instr.wellFormed (.fbDecodeLayer 2) = true := by decide
theorem test_wf_fbDecodeLayer_3 : Instr.wellFormed (.fbDecodeLayer 3) = false := by decide

/-! ## Decoding: words written out from the opcode map (R92), the line types (R104), the tile types (R106) -/

theorem test_decode_seekSet : decodeTableWord 32 0x00000001 = some .seekSet := by decide
theorem test_decode_seekCur : decodeTableWord 32 0x00000002 = some .seekCur := by decide
theorem test_decode_seekEnd : decodeTableWord 32 0x00000003 = some .seekEnd := by decide
theorem test_decode_bitsReset : decodeTableWord 32 0x00000008 = some .bitsReset := by decide
theorem test_decode_bitsRead : decodeTableWord 32 0x00000D09 = some (.bitsRead 13) := by decide
theorem test_decode_adpcmAInit : decodeTableWord 32 0x00000010 = some .adpcmAInit := by decide
theorem test_decode_adpcmADecode : decodeTableWord 32 0x00000011 = some .adpcmADecode := by decide
theorem test_decode_adpcmBInit : decodeTableWord 32 0x00000112 = some (.adpcmBInit 1) := by decide
theorem test_decode_adpcmBDecode : decodeTableWord 32 0x00000013 = some .adpcmBDecode := by decide
theorem test_decode_faReset : decodeTableWord 32 0x00000020 = some .faReset := by decide
theorem test_decode_faDecodeAt : decodeTableWord 32 0x00000021 = some .faDecodeAt := by decide
theorem test_decode_faDecodeFrame : decodeTableWord 32 0x00000022 = some .faDecodeFrame := by decide
theorem test_decode_fbReset : decodeTableWord 32 0x00000030 = some .fbReset := by decide
theorem test_decode_fbDecodeLayer : decodeTableWord 32 0x00000231 = some (.fbDecodeLayer 2) := by decide
theorem test_decode_fbDecodeFrame : decodeTableWord 32 0x00000032 = some .fbDecodeFrame := by decide
theorem test_decode_reset : decodeTableWord 32 0x000000FF = some .reset := by decide
theorem test_decode_lines : (List.range 4).map (decodeTableWord 2) =
    [some .lineBlank, some .lineSparse, some .lineInvSparse, some .lineRaw] := by decide
theorem test_decode_tiles : (List.range 8).map (decodeTableWord 3) =
    [some .tileCommon, some .tileFull, some .tileCommonAlt, some .tileFullAlt, some .tileRows,
      some .tileSkip, some .tileReserved, some .tilePattern] := by decide
/-- log 11: of a whole byte, 0 to 3 are line types, the rest a tile record's first byte. -/
theorem test_decode_byte : [0, 3, 4, 5, 255].map (decodeTableWord 8) =
    [some .lineBlank, some .lineRaw, some .tileRows, some .tileSkip, some .tilePattern] := by decide
/-- CD-1 to CD-4 and CD-7 (95_test_vectors.md 2.1). -/
theorem test_decode_illegal :
    [0x00000000, 0x00010001, 0x00000004, 0x00000101, 0x00011109].map (decodeTableWord 32) =
      [none, none, none, none, none] := by decide

/-! ## The very next step runs a placed instruction -/

theorem test_fetch_cmd : (stepped (State.reset.withFetchWord 32 0x00000112)).bidx = 0 := by decide
theorem test_fetch_line : (stepped (State.reset.withFetchWord 2 3)).offset = 32 := by decide +kernel
theorem test_fetch_line_next : (stepped (State.reset.withFetchWord 2 3)).inner.lineA = 1 := by decide +kernel
theorem test_fetch_tile : (stepped (State.reset.withFetchWord 3 4)).inner.slot = 1 := by decide +kernel
theorem test_fetch_tile_row :
    (stepped (State.reset.withFetchWord 3 7)).offset = 4 := by decide +kernel

/-! ## Faults and refusal (95_test_vectors.md 2.1) -/

/-- CD-1. -/
theorem test_illegal_status : (stepped (issuing 0 m6)).status = 0x00000101 := by decide
/-- CD-2. -/
theorem test_illegal_finfo : (stepped (issuing 0x00010001 m6)).finfo = 0x00010001 := by decide
/-- CD-11. -/
theorem test_refused_cmd : (stepped (issuing 0x00000309 faultedState)).cmd = 0x00000309 := by decide
/-- CD-11. -/
theorem test_refused_acc : (stepped (issuing 0x00000309 faultedState)).dfc = 16 := by decide

/-! ## The cursors (95_test_vectors.md 2.1 to 2.3) -/

/-- SK-2. -/
theorem test_seekSet : (after .seekSet { m6 with offset := 4, arg0 := 6 }).offset = 6 := by decide
/-- SK-3. -/
theorem test_seekSet_range : (after .seekSet { m6 with offset := 4, arg0 := 7 }).finfo = 7 := by decide
/-- SK-4. -/
theorem test_seekCur : (after .seekCur { m6 with offset := 4, arg0 := 0xFFFFFFFE }).offset = 2 := by decide
/-- SK-7. -/
theorem test_seekCur_range :
    (after .seekCur { m6 with offset := 4, arg0 := 0xFFFFFFFB }).finfo = 0xFFFFFFFF := by decide
/-- SK-9. -/
theorem test_seekEnd : (after .seekEnd { m6 with arg0 := 0xFFFFFFFC }).offset = 2 := by decide
/-- SK-11. -/
theorem test_seekEnd_range : (after .seekEnd { m6 with arg0 := 1 }).status = 0x00000301 := by decide
/-- BC-7. -/
theorem test_bitsReset : (after .bitsReset { m6 with acc := 7, dfc := 6, offset := 6 }).dfc = 16 := by decide
/-- BC-7. -/
theorem test_bitsReset_offset :
    (after .bitsReset { m6 with acc := 7, dfc := 6, offset := 6 }).offset = 6 := by decide
/-- BC-1, third row: a refill in the middle. -/
theorem test_bitsRead : (after (.bitsRead 13) { m6 with acc := 0x3C, dfc := 8, offset := 2 }).result = 0x123C := by
  decide
/-- BC-1, third row. -/
theorem test_bitsRead_acc : (after (.bitsRead 13) { m6 with acc := 0x3C, dfc := 8, offset := 2 }).acc = 0x780 := by
  decide

/-! ## ADPCM (95_test_vectors.md 2.4, 2.5) -/

theorem test_adpcmAInit : (after .adpcmAInit { m6 with aidx := 19, pcmCount := 2, pcm := [1, 2] }).pcm = [] := by
  decide
theorem test_adpcmAInit_other : (after .adpcmAInit { m6 with aidx := 19, bidx := 21 }).bidx = 21 := by decide
/-- AD-A1, byte 77. -/
theorem test_adpcmADecode : (after .adpcmADecode { loaded [0x77] State.reset with arg1 := 1 }).pcm = [11, 41] := by
  decide
/-- AD-A1, byte F0 from (34, 14). -/
theorem test_adpcmADecode_state :
    (after .adpcmADecode { loaded [0xF0] State.reset with apred := 34, aidx := 14, arg1 := 1 }).adpcmA =
      ⟨-9, 21⟩ := by decide
/-- CD-8. -/
theorem test_adpcmBInit_illegal : (after (.adpcmBInit 2) { m6 with cmd := 0x00000212 }).finfo = 0x00000212 := by
  decide
/-- AD-B6. -/
theorem test_adpcmBInit : (after (.adpcmBInit 0) { m6 with aidx := 19, bidx := 3 }).bidx = 40 := by decide
/-- AD-B1, byte 00 from (0, 40). -/
theorem test_adpcmBDecode :
    (after .adpcmBDecode { loaded [0x00] State.reset with arg1 := 1 }).pcm = [672, 1280] := by decide
/-- AD-B2, byte 07 from (−52, 16): the mode switch. -/
theorem test_adpcmBDecode_switch :
    ((after .adpcmBDecode { loaded [0x07] State.reset with bpred := -52, bidx := 16, arg1 := 1 }).pcm.map
      BitVec.toInt) = [-1440, -1200, -1136] := by decide

/-! ## Format A (95_test_vectors.md 2.8, frame f0's lines) -/

theorem test_lineBlank : (after .lineBlank (lineState [1])).offset = 0 := by decide
theorem test_lineBlank_row : line2 8 (after .lineBlank (lineState [0xFF])) = List.replicate 8 false := by decide
/-- f0, layer 0, line 1: mask 80 00 00 01, chunk 0 = A5. -/
theorem test_lineSparse : line2 10 (after .lineSparse (lineState [0x80, 0, 0, 1, 0xA5, 0x3C])) =
    [true, false, true, false, false, true, false, true, false, false] := by decide +kernel
/-- f0, layer 0, line 1: two chunk bytes. -/
theorem test_lineSparse_offset : (after .lineSparse (lineState [0x80, 0, 0, 1, 0xA5, 0x3C])).offset = 6 := by
  decide +kernel
/-- f0, layer 0, line 2: mask 40 00 00 00, chunk 1 = 0F, the rest 1. -/
theorem test_lineInvSparse : line2 18 (after .lineInvSparse (lineState [0x40, 0, 0, 0, 0x0F])) =
    List.replicate 12 true ++ List.replicate 4 false ++ List.replicate 2 true := by decide +kernel
theorem test_lineInvSparse_offset : (after .lineInvSparse (lineState [0x40, 0, 0, 0, 0x0F])).offset = 5 := by
  decide +kernel
/-- f0, layer 0, line 0: raw bytes 01, 02, ... -/
theorem test_lineRaw : line2 16 (after .lineRaw (lineState ((List.range 32).map fun i => BitVec.ofNat 8 (i + 1)))) =
    [true, false, false, false, false, false, false, false,
      false, true, false, false, false, false, false, false] := by decide +kernel
theorem test_lineRaw_bounds : (after .lineRaw (lineState [1, 2])).finfo = 2 := by decide +kernel
theorem test_faReset : (after .faReset { m6 with lastA := 2, lA := ⟨[(0, 1)], []⟩ }).lA = ⟨[], []⟩ := by decide
theorem test_faReset_last : (after .faReset { m6 with lastA := 2 }).lastA = 0xFFFFFFFF := by decide

/-- S4's blank keyframe, with a byte after it. -/
def blankKey : State := { loaded [0x80] State.reset with len := 98, cfg := { defaultConfig with frameOffsetA := [0] } }

/-- S4, whatever the layers held. -/
theorem test_faDecodeAt : (after .faDecodeAt { blankKey with lA := ⟨[(3, 1)], []⟩ }).lA = ⟨[], []⟩ := by
  decide +kernel
/-- A-F8. -/
theorem test_faDecodeAt_bounds : (after .faDecodeAt { blankKey with arg0 := 98 }).status = 0x00000201 := by decide
/-- S4. -/
theorem test_faDecodeFrame : (after .faDecodeFrame blankKey).offset = 97 := by decide +kernel
/-- A-F6. -/
theorem test_faDecodeFrame_delta :
    (after .faDecodeFrame { blankKey with mem := [] }).finfo = 0xFFFFFFFF := by decide +kernel

/-! ## Format B (95_test_vectors.md 2.6, 2.7) -/

/-- `FULL` and `SHIFT` of 729 and 6559. -/
theorem test_dictionary : [fullEntry 729, shiftEntry 729, fullEntry 6559, shiftEntry 6559] =
    [⟨1, 0, 0, 0, 0, 0, 0, 0⟩, ⟨0, 0, 0, 0, 0, 0, 0, 1⟩, ⟨2, 2, 2, 2, 2, 2, 1, 2⟩,
      ⟨2, 2, 2, 2, 2, 1, 2, 2⟩] := by decide

/-- FB10's record without its type field: index 2. -/
theorem test_tileCommon : tileRow 3 (after .tileCommon (tileState [0x02, 0])) = [2, 2, 2, 2, 2, 2, 2, 2] := by
  decide +kernel
theorem test_tileCommon_dfc : (after .tileCommon (tileState [0x02, 0])).dfc = 5 := by decide +kernel
/-- 3280, FB1's index. -/
theorem test_tileFull : tileRow 7 (after .tileFull (tileState [0xD0, 0x0C])) = [1, 1, 1, 1, 1, 1, 1, 1] := by
  decide +kernel
/-- FB-F3's index. -/
theorem test_tileFull_bad : (after .tileFull (tileState [0xA1, 0x19])).status = 0x00000801 := by decide
/-- FB11's index: an odd row is rotated. -/
theorem test_tileCommonAlt : tileRow 1 (after .tileCommonAlt (tileState [0x03, 0])) = [0, 0, 0, 0, 0, 0, 0, 1] := by
  decide +kernel
theorem test_tileCommonAlt_even :
    tileRow 6 (after .tileCommonAlt (tileState [0x03, 0])) = [1, 0, 0, 0, 0, 0, 0, 0] := by decide +kernel
/-- FB14's index 2916. -/
theorem test_tileFullAlt : tileRow 0 (after .tileFullAlt (tileState [0x64, 0x0B])) = [1, 1, 0, 0, 0, 0, 0, 0] := by
  decide +kernel
theorem test_tileFullAlt_odd :
    tileRow 5 (after .tileFullAlt (tileState [0x64, 0x0B])) = [1, 0, 0, 0, 0, 0, 0, 1] := by decide +kernel
/-- All flags set: eight common indices, row 0 index 1, row 1 index 2 and the rest 0. -/
theorem test_tileRows : tileRow 1 (after .tileRows (tileState [0xFF, 0x41, 0, 0, 0, 0])) =
    [2, 2, 2, 2, 2, 2, 2, 2] := by decide +kernel
theorem test_tileRows_dfc : (after .tileRows (tileState [0xFF, 0x41, 0, 0, 0, 0])).dfc = 16 := by decide +kernel
/-- FB13's N = 2. -/
theorem test_tileSkip : (after .tileSkip (tileState [0x02, 0])).inner.skip = 2 := by decide
theorem test_tileSkip_last :
    (stepped { tileState [] with inner := { (tileState []).inner with skip := 1 } }).inner.slot = 2 := by decide
/-- FB-F1, at slot 1. -/
theorem test_tileReserved : (after .tileReserved (tileState [])).finfo = 1 := by decide
/-- FB-F2. -/
theorem test_tileReserved_noOp : (after .tileReserved { tileState [] with
    cfg := { defaultConfig with tile6Policy := .noOp } }).status = 0 := by decide
/-- FB8: common indices 1 and 2, code 0 counts on to 1, and row 2 takes line B. -/
theorem test_tilePattern : tileRow 2 (after .tilePattern (tileState [0x0C, 0x02])) = [2, 2, 2, 2, 2, 2, 2, 2] := by
  decide +kernel
theorem test_tilePattern_row1 :
    tileRow 1 (after .tilePattern (tileState [0x0C, 0x02])) = [1, 1, 1, 1, 1, 1, 1, 1] := by decide +kernel

/-- 37×FD, 7D: a layer of skip records (95_test_vectors.md 2.7). -/
def skipLayer : State := loaded (List.replicate 37 0xFD ++ [0x7D]) { State.reset with lastB := 2 }

theorem test_fbReset : (after .fbReset { m6 with lB := ⟨[], [(0, ⟨1, 0, 0, 0, 0, 0, 0, 0⟩)], []⟩ }).lB =
    ⟨[], [], []⟩ := by decide
theorem test_fbReset_last : (after .fbReset { m6 with lastB := 2 }).lastB = 0xFFFFFFFF := by decide
theorem test_fbDecodeLayer : (after (.fbDecodeLayer 1) skipLayer).offset = 38 := by decide +kernel
/-- CD-9. -/
theorem test_fbDecodeLayer_bad : (after (.fbDecodeLayer 3) m6).status = 0x00000701 := by decide
/-- S5's frame table. -/
def sentinels : State := { m6 with cfg := { defaultConfig with frameMetaB := [⟨0, 38, 38, 38, 0⟩] } }
/-- S5. -/
theorem test_fbDecodeFrame : (after .fbDecodeFrame sentinels).lastB = 0 := by decide
/-- B-S6's fault. -/
theorem test_fbDecodeFrame_range : (after .fbDecodeFrame { sentinels with arg0 := 3 }).finfo = 3 := by decide

/-! ## `RESET` -/

/-- CD-13. -/
theorem test_reset : (after .reset faultedState).status = 0 := by decide
theorem test_reset_kept : (after .reset { faultedState with arg0 := 5 }).len = 6 := by decide

/-! ## Witnesses: each statement's hypotheses can be met, clause by clause -/

/-- A running block with a command pending. -/
def pending (w : Word) : State := { m6 with host := [.writeReg 0 w, .readReg 3] }

theorem test_w_DecodedWordsReencode : decodeCmd 0x00000309#32 = .ok (.bitsRead 3) := by decide

/-- One word for each of the three cases, at the edges of its field. -/
theorem test_w_IllegalWordsFault :
    (pending 0x00010001).faulted = false ∧ (pending 0x00010001).inner.seq = .command ∧
    rsvField 0x00010001#32 ≠ 0#16 ∧ opField 0x000000FE#32 ∉ commandOps ∧
    (opField 0x000001FF#32 ∉ operandOps ∧ imm8Field 0x000001FF#32 ≠ 0#8) := by decide

theorem test_w_StepRunsIssuedCommand :
    (pending 0x00000309).inner.seq = .command ∧
    (pending 0x00000309).host = .writeReg 0 0x00000309 :: [.readReg 3] ∧
    decodeCmd 0x00000309#32 = .ok (.bitsRead 3) := by decide

theorem test_w_StepRunsRecords_lines :
    (lineState []).faulted = false ∧ (lineState []).inner.seq = .lines := by decide
theorem test_w_StepRunsRecords_record : (tileState [0x05, 0]).faulted = false ∧
    (tileState [0x05, 0]).inner.seq = .tiles ∧ (tileState [0x05, 0]).inner.skip = 0 ∧
    ∃ t u, readTileType (tileState [0x05, 0]) = .ok (t, u) := ⟨by decide, by decide, by decide, _, _, rfl⟩
/-- A type field that has to refill at `LEN`. -/
theorem test_w_StepRunsRecords_raise : (tileState []).faulted = false ∧ (tileState []).inner.seq = .tiles ∧
    (tileState []).inner.skip = 0 ∧ readTileType (tileState []) = .error ⟨.bounds, 0⟩ :=
  ⟨by decide, by decide, by decide, rfl⟩
theorem test_w_StepRunsRecords_skip :
    let s : State := { tileState [] with inner := { (tileState []).inner with skip := 31 } }
    s.faulted = false ∧ s.inner.seq = .tiles ∧ s.inner.skip ≠ 0 := by decide

theorem test_w_EveryWordHasAStep : (pending 0).inner.seq = .command ∧
    (pending 0).host = .writeReg 0 0 :: [.readReg 3] := by decide

theorem test_w_RaiseRecords : faultedState.faulted = true ∧ m6.faulted = false := by decide

theorem test_w_RefusedWhileFaulted :
    (issuing 0x000001FF faultedState).faulted = true ∧
    (issuing 0x000001FF faultedState).host = .writeReg 0 0x000001FF :: [] ∧
    (0x000001FF#32 ≠ 0x000000FF#32) := by decide

theorem test_w_FaultSticky : (issuing 0x00000001 faultedState).faulted = true ∧
    step (issuing 0x00000001 faultedState) = .next (stepped (issuing 0x00000001 faultedState)) :=
  ⟨by decide, step_issue rfl rfl⟩
/-- The other side: `RESET` ends the faulted state. -/
theorem test_w_FaultSticky_reset : (stepped (issuing 0x000000FF faultedState)).faulted = false := by decide

theorem test_w_FaultKeeps : m6.faulted = false ∧ exec (.bitsRead 0) m6 = .next (after (.bitsRead 0) m6) ∧
    (after (.bitsRead 0) m6).faulted = true := ⟨by decide, exec_after _ _, by decide⟩

/-- A step that records a fault, and one that does not. -/
theorem test_w_StatusWriters : step (pending 4) = .next (stepped (pending 4)) ∧
    (stepped (pending 4)).faulted = true ∧ (stepped (pending 8)).faulted = false :=
  ⟨step_issue rfl rfl, by decide, by decide⟩

theorem pending_inv (w : Word) : (pending w).Inv where
  stored := ⟨⟨(by decide : Sparse.wf 0 m6.mem = true), (by decide : Sparse.below m6.len.toNat m6.mem = true)⟩,
    LayersA.ok_empty, LayersA.ok_empty, LayersB.ok_empty⟩
  status := ⟨(by decide : m6.status &&& 0xFFFF00FE#32 = 0#32),
    (by decide : statusFcode m6.status = 0#8 ↔ m6.faulted = false),
    (by decide : (statusFcode m6.status).toNat ≤ 8)⟩
  config := ⟨(by decide : m6.cfg.frameOffsetA.length < 2 ^ 32),
    (by decide : m6.cfg.frameMetaB.length < 2 ^ 32)⟩
  cursor := fun _ => ⟨m6_legal.low, m6_legal.high, m6_legal.acc, m6_legal.offset⟩
  adpcm := fun _ => ⟨reset_adpcmLegal.apredLow, reset_adpcmLegal.apredHigh, reset_adpcmLegal.aidx,
    reset_adpcmLegal.bpredLow, reset_adpcmLegal.bpredHigh, reset_adpcmLegal.bidx, reset_adpcmLegal.count⟩
  cache := fun _ => ⟨fun h => absurd rfl h, fun h => absurd rfl h, fun _ => rfl, fun _ => rfl, fun _ => rfl⟩
  idle := fun _ => rfl

theorem test_w_InvKept : (pending 0x00000309).Inv ∧
    step (pending 0x00000309) = .next (stepped (pending 0x00000309)) := ⟨pending_inv _, step_issue rfl rfl⟩

theorem test_w_InputsNeverChange : step (pending 0x00000309) = .next (stepped (pending 0x00000309)) :=
  step_issue rfl rfl

/-- `RESET`'s opcode with a nonzero `IMM8`, running and faulted. -/
theorem test_w_ResetCommand : opField 0x000001FF#32 = 0xFF#8 ∧ 0x000001FF#32 ≠ 0x000000FF#32 ∧
    (pending 0x000001FF).inner.seq = .command ∧ (pending 0x000001FF).host = .writeReg 0 0x000001FF :: [.readReg 3] ∧
    (pending 0x000001FF).faulted = false ∧ (issuing 0x000001FF faultedState).faulted = true ∧
    (issuing 0x000001FF faultedState).inner.seq = .command := by decide

/-- Register numbers at the edges of each clause. -/
theorem test_w_HostWrites :
    let s (reg : Nat) : State := { m6 with host := [.writeReg reg 7] }
    (s 1).inner.seq = .command ∧ (s 1).host = .writeReg 1 7 :: [] ∧ (s 2).host = .writeReg 2 7 :: [] ∧
    (s 3).host = .writeReg 3 7 :: [] ∧ (s 0x10).host = .writeReg 0x10 7 :: [] ∧
    (s 0x11).host = .writeReg 0x11 7 :: [] ∧
    ({ m6 with host := [.readReg 0x11] } : State).host = .readReg 0x11 :: [] := by decide
theorem test_w_HostWrites_unmapped :
    step { m6 with host := [.writeReg 0x11 7] } = .refused (.unmappedRegister 0x11) := rfl
theorem test_w_HostWrites_readonly : (stepped { m6 with host := [.writeReg 0x10 7] }).host = [] := by decide

/-- The last admitted access of each kind and the first that is not. -/
theorem test_w_HostReads :
    (pending 0).inner.seq = .command ∧ ({ m6 with host := [.readLA 1 49151] } : State).host = .readLA 1 49151 :: [] ∧
    (readReg m6 0x10).isSome = true ∧ readReg m6 0x11 = none ∧
    readElementA m6.lA 1 49151 = some 0 ∧ readElementA m6.lA 1 49152 = none ∧ readElementA m6.lA 2 0 = none ∧
    readElementB m6.lB 2 76799 = some 0 ∧ readElementB m6.lB 2 76800 = none ∧ readElementB m6.lB 3 0 = none ∧
    readSample { m6 with pcm := [5], pcmCount := 1 } 0 = some 5 ∧
    readSample { m6 with pcm := [5], pcmCount := 1 } 1 = none := by decide +kernel

theorem test_w_SeekSet : m6.faulted = false ∧
    ({ m6 with arg0 := 6 } : State).arg0.toNat ≤ m6.len.toNat ∧
    m6.len.toNat < ({ m6 with arg0 := 7 } : State).arg0.toNat := by decide
/-- The cursor lands on 0, on `LEN`, just below 0, just past `LEN`. -/
theorem test_w_SeekCur :
    let s (a : Word) : State := { m6 with offset := 4, arg0 := a }
    (s 2).faulted = false ∧ ((s 2).offset.toNat : Int) + (s 2).arg0.toInt = (s 2).len.toNat ∧
    ((s 2).offset.toNat : Int) + (s 0xFFFFFFFC).arg0.toInt = 0 ∧
    ((s 2).offset.toNat : Int) + (s 0xFFFFFFFB).arg0.toInt = -1 ∧
    ((s 2).offset.toNat : Int) + (s 3).arg0.toInt = (s 2).len.toNat + 1 := by decide
theorem test_w_SeekEnd :
    let s (a : Word) : State := { m6 with arg0 := a }
    (s 0).faulted = false ∧ (s 0).arg0.toInt ≤ 0 ∧ ((s 0).len.toNat : Int) + (s 0xFFFFFFFA).arg0.toInt = 0 ∧
    ((s 0).len.toNat : Int) + (s 0xFFFFFFF9).arg0.toInt < 0 ∧ 0 < (s 1).arg0.toInt := by decide
theorem test_w_BitsReset : m6.faulted = false := by decide

/-- The four clauses, at widths 1, 16, and 0 and 17; with `DFC` + n = 16 and 17. -/
theorem test_w_BitsRead_window : ({ m6 with dfc := 15, acc := 1 } : State).CursorLegal ∧
    ({ m6 with dfc := 15, acc := 1 } : State).dfc.toNat + (1#8).toNat ≤ 16 :=
  ⟨⟨by decide, by decide, by decide, by decide⟩, by decide⟩
theorem test_w_BitsRead_refill : m6.CursorLegal ∧ 16 < m6.dfc.toNat + (1#8).toNat ∧
    m6.offset.toNat + 2 ≤ m6.len.toNat := ⟨m6_legal, by decide, by decide⟩
theorem test_w_BitsRead_bounds : ({ m6 with offset := 5 } : State).CursorLegal ∧
    m6.len.toNat < ({ m6 with offset := 5 } : State).offset.toNat + 2 :=
  ⟨⟨by decide, by decide, by decide, by decide⟩, by decide⟩
theorem test_w_BitsRead_width : (0#8).toNat < 1 ∧ 16 < (17#8).toNat := by decide

/-- Widths that sum to all of `MEM`. -/
theorem test_w_StreamOrder : m6.faulted = false ∧ m6.acc = 0#32 ∧ m6.dfc = 16#5 ∧
    (∀ n ∈ ([16, 1, 15, 16] : List Byte), 1 ≤ n.toNat ∧ n.toNat ≤ 16) ∧
    m6.offset.toNat + 2 * (((([16, 1, 15, 16] : List Byte).map BitVec.toNat).sum + 15) / 16) ≤ m6.len.toNat := by
  decide

/-- One byte, two bytes and four bytes that end at `LEN`. -/
theorem test_w_TypedReads :
    let s (a : Word) : State := { m6 with offset := a }
    (s 5).offset.toNat + 1 ≤ (s 5).len.toNat ∧ (s 4).offset.toNat + 2 ≤ (s 4).len.toNat ∧
    (s 2).offset.toNat + 4 ≤ (s 2).len.toNat := by decide

/-- The same reads one byte further. -/
theorem test_w_TypedReads_bounds :
    let s (a : Word) : State := { m6 with offset := a }
    (s 6).len.toNat < (s 6).offset.toNat + 1 ∧ (s 5).len.toNat < (s 5).offset.toNat + 2 ∧
    (s 3).len.toNat < (s 3).offset.toNat + 4 := by decide

theorem test_w_AdpcmInits : m6.faulted = false ∧ 1 < (2#8).toNat := by decide

/-- A track that ends at `LEN`, and one byte more. -/
theorem test_w_AdpcmADecode :
    ({ m6 with arg0 := 2, arg1 := 4 } : State).arg0.toNat + ({ m6 with arg0 := 2, arg1 := 4 } : State).arg1.toNat ≤
      m6.len.toNat ∧ m6.pcmCount.toNat + 2 * 4 < 2 ^ 32 ∧
    m6.len.toNat < ({ m6 with arg0 := 2, arg1 := 5 } : State).arg0.toNat + (5#32).toNat := by decide
theorem test_w_AdpcmBDecode : ({ m6 with arg0 := 2, arg1 := 4 } : State).AdpcmLegal ∧
    ({ m6 with arg0 := 2, arg1 := 4 } : State).pcm.length + 4 * 4 < 2 ^ 32 :=
  ⟨⟨by decide, by decide, by decide, by decide, by decide, by decide, fun _ => rfl⟩, by decide⟩
/-- A one-byte track of variant B, no `PCM_CAP`. -/
def trackB (p : Word) (i : BitVec 7) (b : Byte) : State := { loaded [b] State.reset with bpred := p, bidx := i, arg1 := 1 }
/-- A byte of 2, of 3 and of 4 samples (AD-B1, AD-B2), at the end of `LEN`. -/
theorem test_w_SampleCounts : (∀ s ∈ [trackB 0 40 0x00, trackB (-52) 16 0x07, trackB 0 0 0x00],
      s.faulted = false ∧ s.cfg.pcmCap = none ∧ s.arg1 = 1#32 ∧ s.arg0.toNat + 1 ≤ s.len.toNat) ∧
    [trackB 0 40 0x00, trackB (-52) 16 0x07, trackB 0 0 0x00].map
      (fun s => (after .adpcmBDecode s).pcm.length) = [2, 3, 4] := by decide
theorem test_w_SampleRange :
    let s : State := { m6 with arg1 := 1 }
    s.faulted = false ∧ s.AdpcmLegal ∧ s.pcm.length + 4 * s.arg1.toNat < 2 ^ 32 ∧ (exec .adpcmADecode s = .next (after .adpcmADecode s) ∧
      (after .adpcmADecode s).faulted = false) ∧
    (exec .adpcmBDecode s = .next (after .adpcmBDecode s) ∧ (after .adpcmBDecode s).faulted = false) :=
  ⟨by decide, ⟨by decide, by decide, by decide, by decide, by decide, by decide, fun _ => rfl⟩, by decide,
    ⟨exec_after _ _, by decide⟩, exec_after _ _, by decide⟩

/-- 32 bytes, no more. -/
theorem test_w_LineBlankRaw : (lineState (List.replicate 32 1)).faulted = false ∧
    (lineState (List.replicate 32 1)).lA.ok ∧
    (lineState (List.replicate 32 1)).offset.toNat + 32 ≤ (lineState (List.replicate 32 1)).len.toNat :=
  ⟨by decide, LayersA.ok_empty, by decide⟩
/-- A mask with its first and last chunk, and exactly their bytes. -/
theorem test_w_LineMasked :
    let s := lineState [0x80, 0, 0, 1, 0xA5, 0x3C]
    s.faulted = false ∧ s.lA.ok ∧ s.wordBE s.offset.toNat = 0x80000001#32 ∧
    s.offset.toNat + (4 + chunksBefore (chunkPresent 0x80000001#32) 32) ≤ s.len.toNat :=
  ⟨by decide, LayersA.ok_empty, by decide, by decide⟩
theorem test_w_UnpackTypes : Sparse.wf 0 (lineState (List.replicate 48 0x1B)).inner.tA = true ∧
    (lineState (List.replicate 48 0x1B)).offset.toNat + 48 ≤ (lineState (List.replicate 48 0x1B)).len.toNat := by
  decide
theorem test_w_LineLoopIsSteps : m6.faulted = false ∧ ∃ t, decodeLines 1 m6 = .ok t := by
  refine ⟨by decide, ?_⟩
  obtain ⟨t, h, _⟩ := decodeLines_blank (k := 1) (s := m6) rfl
  exact ⟨t, h⟩
/-- A raw line at the end of `LEN`. -/
theorem test_w_LineLoopIsSteps_fault :
    let s : State := { m6 with offset := 6, inner := { Inner.idle with tA := [(192, 3)] } }
    s.faulted = false ∧ decodeLines 1 s = .error ⟨.bounds, 6⟩ := by
  refine ⟨by decide, ?_⟩
  have h : decodeLineAt 1 0 { m6 with offset := 6, inner := { Inner.idle with tA := [(192, 3)] } } =
    .error ⟨.bounds, 6⟩ := rfl
  rw [decodeLines, show (192 : Nat) = 191 + 1 from rfl, forRange, h]
  rfl
theorem test_w_FaReset : m6.faulted = false := by decide
/-- The longest record exactly; a start at `LEN`; one and both translation bytes past `LEN`. -/
theorem test_w_FaDecodeAt : ({ m6 with len := 13923 } : State).arg0.toNat + 13923 ≤ (13923#32).toNat ∧
    m6.len.toNat ≤ ({ m6 with arg0 := 6 } : State).arg0.toNat ∧
    headerTranslated ((loaded [0x20, 1] State.reset).byteAt 0) = true ∧
    (∀ s ∈ [loaded [0x20] State.reset, loaded [0x20, 1] State.reset],
      s.faulted = false ∧ s.arg0.toNat + 1 ≤ s.len.toNat ∧ s.len.toNat < s.arg0.toNat + 3) := by decide
/-- A record of header `h` over zeros, with either order of its parts. -/
def record (h : Byte) (len : Word) (order : LineTableOrder) : State :=
  { loaded [h] State.reset with len := len, cfg := { defaultConfig with lineTableOrder := order } }
/-- Without and with translation bytes, that end at `LEN` or not. -/
theorem test_w_FaDecodeAt_header : headerTranslated ((record 0x80 1 .tablesFirst).byteAt 0) = false ∧
    headerTranslated ((record 0x60 3 .interleaved).byteAt 0) = true ∧
    (record 0x80 1 .tablesFirst).arg0.toNat + 1 ≤ (record 0x80 1 .tablesFirst).len.toNat ∧
    (record 0x60 3 .interleaved).arg0.toNat + 3 ≤ (record 0x60 3 .interleaved).len.toNat := by decide
theorem record_layers (h : Byte) (order : LineTableOrder) {n : Nat} (hn : n ≤ 3) :
    ∃ a, decodeLayersA { record h 13923 order with offset := BitVec.ofNat 32 n } = .ok a := by
  obtain ⟨a, ha, -⟩ := decodeLayersA_within { record h 13923 order with offset := BitVec.ofNat 32 n } (by
    show (BitVec.ofNat 32 n).toNat + 13920 ≤ (13923#32).toNat
    simp only [BitVec.toNat_ofNat]
    omega)
  exact ⟨a, ha⟩
/-- The parts complete in both orders, after one header byte and after three. -/
theorem test_w_FaDecodeAt_orders :
    let s1 : State := { record 0x80 13923 .tablesFirst with offset := BitVec.ofNat 32 1 }
    let s3 : State := { record 0x60 13923 .interleaved with offset := BitVec.ofNat 32 3 }
    (∃ a, (unpackTypes 0 s1 >>= unpackTypes 1 >>= decodeLines 0 >>= decodeLines 1) = .ok a) ∧
    ∃ a, (unpackTypes 0 s3 >>= decodeLines 0 >>= unpackTypes 1 >>= decodeLines 1) = .ok a := by
  refine ⟨?_, ?_⟩
  · rw [← decodeLayersA_tablesFirst rfl]
    exact record_layers _ _ (by omega)
  · rw [← decodeLayersA_interleaved rfl]
    exact record_layers _ _ (by omega)
/-- The first table passes `LEN`. -/
theorem test_w_FaDecodeAt_raise :
    unpackTypes 0 { record 0x80 1 .tablesFirst with offset := 1 } = .error ⟨.bounds, 1⟩ := rfl
/-- Two blocks with one input and different layers. -/
theorem test_w_KeyframeIndependence :
    let s : State := blankKey
    let s' : State := { blankKey with lA := ⟨[(3, 1)], []⟩, offset := 5, lastA := 0 }
    s.faulted = false ∧ s'.faulted = false ∧ s'.mem = s.mem ∧ s'.len = s.len ∧ s'.cfg = s.cfg ∧
    s'.arg0 = s.arg0 ∧ headerKey (s.byteAt s.arg0.toNat) = true ∧ s'.lA ≠ s.lA :=
  ⟨by decide, by decide, rfl, rfl, rfl, rfl, by decide, by decide⟩

/-- A frame of blank lines that is no keyframe, translated by (1, 1) (frame f1 of 95_test_vectors.md 2.8). -/
def movedFrame : State :=
  { loaded [0x20, 1, 1] State.reset with len := 99, pA := ⟨[(2, 5)], []⟩ }
theorem test_w_DeltaFrame : movedFrame.faulted = false ∧
    headerKey (movedFrame.byteAt movedFrame.arg0.toNat) = false ∧
    ((1, 1) : Int × Int) = (if headerTranslated (movedFrame.byteAt movedFrame.arg0.toNat) then
      ((movedFrame.byteAt (movedFrame.arg0.toNat + 1)).toInt,
        (movedFrame.byteAt (movedFrame.arg0.toNat + 2)).toInt) else (0, 0)) ∧
    exec .faDecodeAt movedFrame = .next (after .faDecodeAt movedFrame) ∧
    (after .faDecodeAt movedFrame).faulted = false ∧ (after .faDecodeAt movedFrame).lA = ⟨[(3, 10)], []⟩ :=
  ⟨by decide, by decide, by decide, exec_after _ _, by decide +kernel, by decide +kernel⟩

theorem test_w_FaFrameLookup :
    ({ blankKey with lastA := 0 } : State).arg0 = ({ blankKey with lastA := 0 } : State).lastA ∧
    blankKey.arg0 ≠ 0xFFFFFFFF#32 ∧ blankKey.arg0.toNat < blankKey.cfg.frameOffsetA.length ∧
    blankKey.cfg.frameOffsetA.length ≤ ({ blankKey with arg0 := 1 } : State).arg0.toNat ∧
    blankKey.lastA ≠ 0#32 ∧ blankKey.cfg.frameOffsetA[0]? = some 0#32 ∧
    (0#32).toNat + 1 ≤ blankKey.len.toNat ∧
    headerKey (({ blankKey with mem := [] } : State).byteAt (0#32).toNat) = false := by decide

/-- A keyframe, then a frame of blank lines. -/
def twoFrames : State :=
  { loaded [0x80] State.reset with len := 194, cfg := { defaultConfig with frameOffsetA := [0, 97] } }
theorem twoFrames_config : twoFrames.ConfigLegal :=
  ⟨(by decide : twoFrames.cfg.frameOffsetA.length < 2 ^ 32), (by decide : twoFrames.cfg.frameMetaB.length < 2 ^ 32)⟩
/-- The keyframe clause for frame 0. -/
theorem test_w_FaFrameChain_key : twoFrames.ConfigLegal ∧ twoFrames.cfg.frameOffsetA[0]? = some 0#32 ∧
    twoFrames.lastA ≠ BitVec.ofNat 32 0 ∧ headerKey (twoFrames.byteAt 0) = true ∧
    exec .faDecodeAt { twoFrames with arg0 := 0 } = .next (after .faDecodeAt { twoFrames with arg0 := 0 }) ∧
    (after .faDecodeAt { twoFrames with arg0 := 0 }).faulted = false :=
  ⟨twoFrames_config, by decide, by decide, by decide, exec_after _ _, by decide +kernel⟩
/-- The frame after the cached one. -/
theorem test_w_FaFrameChain_next : twoFrames.cfg.frameOffsetA[1]? = some 97#32 ∧
    headerKey (twoFrames.byteAt 97) = false ∧
    ({ twoFrames with lastA := 0 } : State).lastA = BitVec.ofNat 32 (1 - 1) ∧
    (97#32).toNat + 1 ≤ twoFrames.len.toNat ∧
    (after .faDecodeAt { twoFrames with lastA := 0, arg0 := 97 }).faulted = false :=
  ⟨by decide, by decide, by decide, by decide, by decide +kernel⟩
/-- The predecessor, then the frame. -/
theorem test_w_FaFrameChain_ancestor :
    let t := after .faDecodeFrame { twoFrames with arg0 := BitVec.ofNat 32 (1 - 1) }
    headerKey (twoFrames.byteAt 97) = false ∧ twoFrames.lastA ≠ BitVec.ofNat 32 (1 - 1) ∧
    t.faulted = false ∧ (after .faDecodeFrame { t with arg0 := BitVec.ofNat 32 1 }).faulted = false :=
  ⟨by decide, by decide, by decide +kernel, by decide +kernel⟩
/-- Frame 1's entry is `LEN` itself; frame 0's record does not fit. -/
theorem test_w_FaFrameChain_bounds : ({ twoFrames with len := 97 } : State).len.toNat = (97#32).toNat ∧
    (after .faDecodeAt { twoFrames with len := 2, arg0 := 0 }).faulted = true := ⟨by decide, by decide +kernel⟩
/-- A predecessor that faults: frame 0's entry is `LEN` itself. -/
theorem test_w_FaFrameChain_predecessor :
    let s : State := { twoFrames with len := 97, cfg := { defaultConfig with frameOffsetA := [97, 96] } }
    s.ConfigLegal ∧ s.cfg.frameOffsetA[1]? = some 96#32 ∧ headerKey (s.byteAt 96) = false ∧
    96 + 1 ≤ s.len.toNat ∧ s.lastA ≠ BitVec.ofNat 32 (1 - 1) ∧
    (after .faDecodeFrame { s with arg0 := BitVec.ofNat 32 (1 - 1) }).faulted = true :=
  ⟨⟨by decide, by decide⟩, by decide, by decide, by decide, by decide, by decide +kernel⟩
/-- The predecessor completes, and the frame after it faults. -/
theorem test_w_FaFrameChain_frame :
    let s : State := { twoFrames with len := 98 }
    let t := after .faDecodeFrame { s with arg0 := BitVec.ofNat 32 (1 - 1) }
    t.faulted = false ∧ (after .faDecodeFrame { t with arg0 := BitVec.ofNat 32 1 }).faulted = true :=
  ⟨by decide +kernel, by decide +kernel⟩
theorem test_w_FaFrameCompletes :
    let s : State := { twoFrames with len := 14020, arg0 := 1 }
    s.faulted = false ∧ s.arg0.toNat < s.cfg.frameOffsetA.length ∧
    (∀ f ∈ s.cfg.frameOffsetA, f.toNat + 13923 ≤ s.len.toNat) ∧
    (∀ f, s.cfg.frameOffsetA[0]? = some f → headerKey (s.byteAt f.toNat) = true) := by
  refine ⟨by decide, by decide, fun f hf => ?_, fun f h => ?_⟩
  · have h : f = 0#32 ∨ f = 97#32 := by simpa [twoFrames, loaded] using hf
    rcases h with rfl | rfl <;> simp
  obtain rfl : 0#32 = f := Option.some.inj h
  decide
theorem test_w_FaSequence_twice : exec .faDecodeFrame twoFrames = .next (after .faDecodeFrame twoFrames) ∧
    (after .faDecodeFrame twoFrames).faulted = false ∧ (after .faDecodeFrame twoFrames).lastA = 0 :=
  ⟨exec_after _ _, by decide +kernel, by decide +kernel⟩
/-- Two frames, and `FA_DECODE_FRAME` 0 pending. -/
def cachingFrames : State := { twoFrames with host := [.writeReg 0 0x00000022] }
theorem cachingFrames_inv : cachingFrames.Inv where
  stored := ⟨⟨(by decide : Sparse.wf 0 twoFrames.mem = true),
    (by decide : Sparse.below twoFrames.len.toNat twoFrames.mem = true)⟩,
    LayersA.ok_empty, LayersA.ok_empty, LayersB.ok_empty⟩
  status := ⟨(by decide : twoFrames.status &&& 0xFFFF00FE#32 = 0#32),
    (by decide : statusFcode twoFrames.status = 0#8 ↔ twoFrames.faulted = false),
    (by decide : (statusFcode twoFrames.status).toNat ≤ 8)⟩
  config := twoFrames_config
  cursor := fun _ => ⟨by decide, by decide, by decide, by decide⟩
  adpcm := fun _ => ⟨reset_adpcmLegal.apredLow, reset_adpcmLegal.apredHigh, reset_adpcmLegal.aidx,
    reset_adpcmLegal.bpredLow, reset_adpcmLegal.bpredHigh, reset_adpcmLegal.bidx, reset_adpcmLegal.count⟩
  cache := fun _ => ⟨fun h => absurd rfl h, fun h => absurd rfl h, fun _ => rfl, fun _ => rfl, fun _ => rfl⟩
  idle := fun _ => rfl
/-- A step that caches frame 0, from a state that meets both invariants. -/
theorem test_w_CacheCoherent : cachingFrames.Inv ∧ cachingFrames.CoherentA ∧
    step cachingFrames = .next (stepped cachingFrames) ∧ (stepped cachingFrames).faulted = false ∧
    (stepped cachingFrames).lastA = 0 :=
  ⟨cachingFrames_inv, fun _ h => absurd rfl h, step_issue rfl rfl, by decide +kernel, by decide +kernel⟩
theorem test_w_FaSequence : twoFrames.faulted = false ∧ twoFrames.ConfigLegal ∧ twoFrames.CoherentA ∧
    framesInOrder 1 twoFrames = some (after .faDecodeFrame
      { after .faDecodeFrame { twoFrames with arg0 := 0 } with arg0 := BitVec.ofNat 32 (0 + 1) }) ∧
    (after .faDecodeFrame
      { after .faDecodeFrame { twoFrames with arg0 := 0 } with arg0 := BitVec.ofNat 32 (0 + 1) }).faulted = false :=
  ⟨by decide, twoFrames_config, fun _ h => absurd rfl h, by simp only [framesInOrder, exec_after], by decide +kernel⟩

/-- The first index past the dictionaries. -/
theorem test_w_FullDictionary : 6560 < 6561 ∧ fullLine 6561 = .error ⟨.badIndex, 6561⟩ := by decide
/-- Exactly the words the field needs; indices at the ends of the dictionary. -/
theorem test_w_TileCommon : (tileState [0x1F, 0]).Synced ∧ (tileState [0x1F, 0]).lB.ok ∧
    (tileState [0x1F, 0]).roomFor 5 :=
  ⟨synced _ rfl rfl, LayersB.ok_empty, by unfold State.roomFor; decide⟩
theorem test_w_TileFull :
    (tileState [0xA0, 0x19]).faulted = false ∧ (tileState [0xA0, 0x19]).lB.ok ∧
    (tileState [0xA0, 0x19]).Synced ∧ (tileState [0xA0, 0x19]).roomFor 13 ∧
    (tileState [0xA0, 0x19]).field (tileState [0xA0, 0x19]).bitPos 13 = 6560 :=
  ⟨rfl, LayersB.ok_empty, synced _ rfl rfl, by unfold State.roomFor; decide, by decide⟩
/-- The first index past the dictionary. -/
theorem test_w_TileFull_past : (tileState [0xA1, 0x19]).Synced ∧ (tileState [0xA1, 0x19]).lB.ok ∧
    (tileState [0xA1, 0x19]).roomFor 13 ∧
    6560 < (tileState [0xA1, 0x19]).field (tileState [0xA1, 0x19]).bitPos 13 :=
  ⟨synced _ rfl rfl, LayersB.ok_empty, by unfold State.roomFor; decide, by decide⟩
/-- All flags clear, and all flags set. -/
theorem test_w_TileRows_full :
    (tileState (List.replicate 14 0)).faulted = false ∧ (tileState (List.replicate 14 0)).lB.ok ∧
    (tileState (List.replicate 14 0)).Synced ∧
    (tileState (List.replicate 14 0)).field (tileState (List.replicate 14 0)).bitPos 8 = 0 ∧
    (tileState (List.replicate 14 0)).roomFor (112 - 8 * ((List.range 8).filter fun r => (0#8).getLsbD r).length) ∧
    ((List.range 8).all fun r => decide ((tileState (List.replicate 14 0)).field
      ((tileState (List.replicate 14 0)).bitPos + 8 + rowIndexPos 0 r) 13 ≤ 6560)) = true :=
  ⟨rfl, LayersB.ok_empty, synced _ rfl rfl, by decide, by unfold State.roomFor; decide, by decide +kernel⟩
theorem test_w_TileRows_common :
    (tileState [0xFF, 0x41, 0, 0, 0, 0]).faulted = false ∧ (tileState [0xFF, 0x41, 0, 0, 0, 0]).lB.ok ∧ (tileState [0xFF, 0x41, 0, 0, 0, 0]).Synced ∧
    (tileState [0xFF, 0x41, 0, 0, 0, 0]).field (tileState [0xFF, 0x41, 0, 0, 0, 0]).bitPos 8 = 255 ∧
    (tileState [0xFF, 0x41, 0, 0, 0, 0]).roomFor
      (112 - 8 * ((List.range 8).filter fun r => (0xFF#8).getLsbD r).length) :=
  ⟨rfl, LayersB.ok_empty, synced _ rfl rfl, by decide, by unfold State.roomFor; decide⟩
/-- Both dictionaries. -/
theorem test_w_TilePattern_common :
    (tileState [0x0C, 0x02]).faulted = false ∧ (tileState [0x0C, 0x02]).lB.ok ∧
    (tileState [0x0C, 0x02]).Synced ∧
    (tileState [0x0C, 0x02]).streamBit ((tileState [0x0C, 0x02]).bitPos + 2) = true ∧
    (tileState [0x0C, 0x02]).roomFor (3 + 2 * indexBits true) :=
  ⟨rfl, LayersB.ok_empty, synced _ rfl rfl, by decide, by unfold State.roomFor; decide⟩
theorem test_w_TilePattern_full :
    (tileState [0, 0, 0, 0]).faulted = false ∧ (tileState [0, 0, 0, 0]).lB.ok ∧
    (tileState [0, 0, 0, 0]).Synced ∧
    (tileState [0, 0, 0, 0]).streamBit ((tileState [0, 0, 0, 0]).bitPos + 2) = false ∧
    (tileState [0, 0, 0, 0]).roomFor (3 + 2 * indexBits false) ∧
    (tileState [0, 0, 0, 0]).field ((tileState [0, 0, 0, 0]).bitPos + 3) 13 ≤ 6560 ∧
    (tileState [0, 0, 0, 0]).field ((tileState [0, 0, 0, 0]).bitPos + 16) 13 ≤ 6560 :=
  ⟨rfl, LayersB.ok_empty, synced _ rfl rfl, by decide, by unfold State.roomFor; decide, by decide, by decide⟩
theorem test_w_TileSkipReserved :
    (tileState [31, 0]).faulted = false ∧
    (tileState [31, 0]).Synced ∧ (tileState [31, 0]).roomFor 5 ∧
    (tileState []).cfg.tile6Policy = .fault ∧
    ({ tileState [] with cfg := { defaultConfig with tile6Policy := .noOp } } : State).cfg.tile6Policy = .noOp :=
  ⟨rfl, synced _ rfl rfl, by unfold State.roomFor; decide, by decide, by decide⟩
/-- 6561 in each place. -/
theorem test_w_TileBadIndex_first :
    (tileState [0xA1, 0x19]).faulted = false ∧
    (tileState [0xA1, 0x19]).Synced ∧ (tileState [0xA1, 0x19]).roomFor 13 ∧
    (tileState [0xA1, 0x19]).field (tileState [0xA1, 0x19]).bitPos 13 = 6561 :=
  ⟨rfl, synced _ rfl rfl, by unfold State.roomFor; decide, by decide⟩
theorem test_w_TileBadIndex_patternA :
    (tileState [0x08, 0xCD]).faulted = false ∧ (tileState [0x08, 0xCD]).Synced ∧
    (tileState [0x08, 0xCD]).roomFor 16 ∧
    (tileState [0x08, 0xCD]).streamBit ((tileState [0x08, 0xCD]).bitPos + 2) = false ∧
    (tileState [0x08, 0xCD]).field ((tileState [0x08, 0xCD]).bitPos + 3) 13 = 6561 :=
  ⟨rfl, synced _ rfl rfl, by unfold State.roomFor; decide, by decide, by decide⟩
theorem test_w_TileBadIndex_patternB :
    (tileState [0, 0, 0xA1, 0x19]).faulted = false ∧ (tileState [0, 0, 0xA1, 0x19]).Synced ∧
    (tileState [0, 0, 0xA1, 0x19]).roomFor 29 ∧
    (tileState [0, 0, 0xA1, 0x19]).field ((tileState [0, 0, 0xA1, 0x19]).bitPos + 3) 13 ≤ 6560 ∧
    (tileState [0, 0, 0xA1, 0x19]).field ((tileState [0, 0, 0xA1, 0x19]).bitPos + 16) 13 = 6561 :=
  ⟨rfl, synced _ rfl rfl, by unfold State.roomFor; decide, by decide, by decide⟩
/-- Row 0 of a record without common rows; row 7 of one whose other rows are common. -/
theorem test_w_TileBadIndex_row0 :
    (tileState [0, 0xA1, 0x19, 0]).faulted = false ∧ (tileState [0, 0xA1, 0x19, 0]).Synced ∧
    (tileState [0, 0xA1, 0x19, 0]).roomFor (8 + rowIndexPos 0 1) ∧
    (tileState [0, 0xA1, 0x19, 0]).field ((tileState [0, 0xA1, 0x19, 0]).bitPos + 8 + rowIndexPos 0 0) 13 = 6561 :=
  ⟨rfl, synced _ rfl rfl, by unfold State.roomFor; decide, by decide⟩
theorem test_w_TileBadIndex_row7 :
    (tileState [0x7F, 0, 0, 0, 0, 8, 0xCD, 0]).faulted = false ∧ (tileState [0x7F, 0, 0, 0, 0, 8, 0xCD, 0]).Synced ∧
    (tileState [0x7F, 0, 0, 0, 0, 8, 0xCD, 0]).roomFor (8 + rowIndexPos 0x7F 8) ∧
    (tileState [0x7F, 0, 0, 0, 0, 8, 0xCD, 0]).field
      ((tileState [0x7F, 0, 0, 0, 0, 8, 0xCD, 0]).bitPos + 8 + rowIndexPos 0x7F 7) 13 = 6561 :=
  ⟨rfl, synced _ rfl rfl, by unfold State.roomFor; decide, by decide⟩

/-- 1200 records of type 0 in a `MEM` of zeros that ends with the last of them. -/
def zeroRecords : State := { State.reset with len := 1200 }
theorem zeroRecords_fits : zeroRecords.layerFits 0 := by unfold State.layerFits; decide +kernel
theorem skipLayer_fits : skipLayer.layerFits 0 := by unfold State.layerFits; decide +kernel
theorem test_w_TileLoopIsSteps_ok : zeroRecords.faulted = false ∧ 0 ≤ zeroRecords.len.toNat ∧
    ∃ t, decodeLayerB 2 0 zeroRecords = .ok t := by
  obtain ⟨t, h, _⟩ := decodeLayerB_fits (k := 2) zeroRecords_fits
  exact ⟨by decide, by decide, t, h⟩
theorem test_w_TileLoopIsSteps_fault : State.reset.faulted = false ∧ 0 ≤ State.reset.len.toNat ∧
    decodeLayerB 2 0 State.reset = .error ⟨.bounds, 0⟩ := by
  refine ⟨by decide, by decide, ?_⟩
  have h : decodeSlot 0 (State.reset.openLayerB 2 0) = .error ⟨.bounds, 0⟩ := rfl
  rw [decodeLayerB, if_neg (by decide), show (1200 : Nat) = 1199 + 1 from rfl, forRange, h]
  rfl
theorem test_w_FbReset : m6.faulted = false := by decide
/-- Layer 2 and layer 3; a stream that ends at `LEN`; a start past `LEN`; a stream of skip records. -/
theorem test_w_FbDecodeLayer : (2#8).toNat < 3 ∧ 3 ≤ (3#8).toNat ∧
    zeroRecords.layerFits zeroRecords.arg0.toNat ∧
    zeroRecords.len.toNat < ({ zeroRecords with arg0 := 1201 } : State).arg0.toNat :=
  ⟨by decide, by decide, zeroRecords_fits, by decide⟩
theorem test_w_FbDecodeLayer_skips : skipLayer.layerFits skipLayer.arg0.toNat ∧
    (∀ j, j < 1200 → 0 + j < skipLayer.len.toNat → (skipLayer.byteAt (0 + j)).extractLsb' 0 3 = 5#3) := by
  refine ⟨skipLayer_fits, fun j _ h => ?_⟩
  have hj : j < 38 := by simpa [skipLayer, loaded] using h
  clear h
  revert j
  decide +kernel
/-- A layer that completes and one that raises. -/
theorem test_w_FbDecodeLayer_runs : (∃ t, decodeLayerB 2 0 zeroRecords = .ok t) ∧
    decodeLayerB 2 7 m6 = .error ⟨.bounds, 7⟩ :=
  ⟨(decodeLayerB_fits zeroRecords_fits).imp fun _ h => h.1, rfl⟩
/-- The lengths of R108, one for each type over zeros, and of the two records of the other kinds. -/
theorem test_recordSize : ([0, 1, 2, 3, 4, 5, 6, 7].map fun t => (loaded [] State.reset).recordSizeAs t 0) =
      [some 8, some 16, some 8, some 16, some 115, some 8, none, some 32] ∧
    (loaded [0xFC, 0x07] State.reset).recordSizeAs 4 0 = some 51 ∧
    (loaded [0x27] State.reset).recordSizeAs 7 0 = some 16 := by decide +kernel
/-- FB1's stream (95_test_vectors.md 2.6), and the same without its last byte. -/
theorem test_layerFits : (loaded ([0x81, 0x66] ++ List.replicate 37 0xFD ++ [0x75]) State.reset).slotsFit 0 1200 0 0 = true ∧
    (loaded ([0x81, 0x66] ++ List.replicate 37 0xFD) State.reset).slotsFit 0 1200 0 0 = false := by decide +kernel
/-- Frame 0 with one layer of its own. -/
def oneFrame : State := { zeroRecords with cfg := { defaultConfig with frameMetaB := [⟨0, 1200, 38, 38, 0⟩] } }
theorem test_w_FbFrameAlone : oneFrame.faulted = false ∧ oneFrame.ConfigLegal ∧
    oneFrame.cfg.frameMetaB[0]? = some ⟨0, 1200, 38, 38, 0⟩ ∧ oneFrame.lastB ≠ BitVec.ofNat 32 0 ∧
    oneFrame.arg0 = BitVec.ofNat 32 0 ∧ oneFrame.layerFits 0 :=
  ⟨by decide, ⟨(by decide : oneFrame.cfg.frameOffsetA.length < 2 ^ 32), (by decide : oneFrame.cfg.frameMetaB.length < 2 ^ 32)⟩,
    by decide, by decide, by decide, by unfold State.layerFits; decide +kernel⟩
/-- Its decode completes; a frame whose layer starts past `LEN` raises. -/
theorem test_w_FbFrameAlone_runs : (∃ t, decodeFrameB 0 0b111#3 false oneFrame = .ok t) ∧
    decodeFrameB 0 0b111#3 false { oneFrame with cfg := { defaultConfig with frameMetaB := [⟨1201, 1200, 38, 38, 0⟩] } } =
      .error ⟨.bounds, 1201⟩ := by
  refine ⟨?_, rfl⟩
  obtain ⟨t, ht⟩ := layersB_completes (fm := ⟨0, 1200, 38, 38, 0⟩) (mask := 0b111#3) (s := oneFrame)
    (.inr (by unfold State.layerFits; decide +kernel)) (.inl rfl) (.inl rfl)
  rw [decodeFrameB_alone (fm := ⟨0, 1200, 38, 38, 0⟩) rfl (by decide) (.inl rfl), ht]
  exact ⟨_, rfl⟩
/-- Three frames of sentinels. -/
def threeFrames : State := { m6 with cfg := { defaultConfig with
  frameMetaB := [⟨0, 38, 38, 38, 0⟩, ⟨0, 38, 38, 38, 0⟩, ⟨0, 38, 38, 38, 5⟩] } }
theorem threeFrames_config : threeFrames.ConfigLegal :=
  ⟨(by decide : threeFrames.cfg.frameOffsetA.length < 2 ^ 32),
    (by decide : threeFrames.cfg.frameMetaB.length < 2 ^ 32)⟩
/-- Frame 1 after frame 0, all sentinels; the frame at the end of the table. -/
theorem test_w_FbFrameAlone_next : threeFrames.ConfigLegal ∧
    threeFrames.cfg.frameMetaB[2]? = some ⟨0, 38, 38, 38, 5⟩ ∧
    (∀ i ∈ [1, 2], ({ threeFrames with lastB := BitVec.ofNat 32 (i - 1) } : State).lastB ≠ BitVec.ofNat 32 i) :=
  ⟨threeFrames_config, by decide, by decide⟩
/-- A request with the whole mask; an ancestor request that keeps a layer, and one that keeps none. -/
theorem test_w_FbFrameChain : threeFrames.ConfigLegal ∧
    threeFrames.cfg.frameMetaB[1 + 1]? = some ⟨0, 38, 38, 38, 5⟩ ∧
    threeFrames.lastB ≠ BitVec.ofNat 32 2 ∧ threeFrames.lastB ≠ BitVec.ofNat 32 1 ∧
    threeFrames.lastB ≠ BitVec.ofNat 32 0 ∧
    decodeFrameB 1 0b111#3 true { threeFrames with arg0 := 2 } =
      .ok { threeFrames with arg0 := 2, lastB := BitVec.ofNat 32 1 } ∧
    (after .fbDecodeFrame { threeFrames with arg0 := 2, lastB := BitVec.ofNat 32 1 }).faulted = false ∧
    0b111#3 &&& ~~~5#3 ≠ 0#3 ∧ 0b101#3 &&& ~~~5#3 = 0#3 ∧
    decodeFrameB 0 (0b111#3 &&& ~~~5#3) true threeFrames = .ok { threeFrames with lastB := BitVec.ofNat 32 0 } :=
  ⟨threeFrames_config, by decide, by decide, by decide, by decide, rfl, by decide, by decide, by decide, rfl⟩
/-- An ancestor that faults: its layer starts past `LEN`. -/
theorem test_w_FbFrameChain_fault :
    let s : State := { m6 with arg0 := 1, cfg := { defaultConfig with
      frameMetaB := [⟨7, 1200, 38, 38, 0⟩, ⟨0, 38, 38, 38, 0⟩] } }
    decodeFrameB 0 0b111#3 true s = .error ⟨.bounds, 7⟩ := rfl
/-- The ancestor completes, and the frame itself faults. -/
theorem test_w_FbFrameChain_frame :
    let s : State := { m6 with arg0 := 1, cfg := { defaultConfig with
      frameMetaB := [⟨0, 38, 38, 38, 0⟩, ⟨7, 1200, 38, 38, 0⟩] } }
    decodeFrameB 0 0b111#3 true s = .ok { s with lastB := BitVec.ofNat 32 0 } ∧
    (after .fbDecodeFrame { s with lastB := BitVec.ofNat 32 0 }).faulted = true := ⟨rfl, by decide⟩
/-- Frames 0 and 1 of the sequence of 95_test_vectors.md 2.9, and a frame 2 of sentinels with its diff flag. -/
def sequenceB : State :=
  { loaded ([0x81, 0x66] ++ List.replicate 37 0xFD ++ [0x75] ++
      ([0x01, 0xCD] ++ List.replicate 37 0xFD ++ [0x75]) ++ List.replicate 38 0 ++
      ([0x05, 0x01, 0xCD] ++ List.replicate 37 0xFD ++ [0x6D, 0x00])) State.reset with
    arg0 := 2
    cfg := { defaultConfig with
      frameMetaB := [⟨0, 40, 40, 38, 7⟩, ⟨118, 42, 38, 38, 0⟩, ⟨0, 38, 38, 38, 2⟩] } }
/-- B-S1: frame 2 from power-on asks for frame 1, and that for frame 0, whose layer 1 is masked out. -/
theorem test_fbDecodeFrame_recursion :
    let t := after .fbDecodeFrame sequenceB
    [0, 2247, 8, 2255, 16].map (fun p => (pixelB (t.lB.layer 0) p).val) = [1, 1, 2, 2, 0] ∧
    t.lB.layer 1 = [] ∧ t.lastB = 2 := by decide +kernel
/-- Frame 2's diff flag takes layers 0 and 2 from a request for frame 1, and all of a request for those. -/
theorem test_w_FbAncestorMask : threeFrames.ConfigLegal ∧
    threeFrames.cfg.frameMetaB[1 + 1]? = some ⟨0, 38, 38, 38, 5⟩ ∧ 0 < 1 ∧
    threeFrames.lastB ≠ BitVec.ofNat 32 1 ∧ threeFrames.lastB ≠ BitVec.ofNat 32 (1 - 1) ∧
    (∃ t, decodeFrameB 1 0b111#3 true threeFrames = .ok t) ∧ 0b101#3 &&& ~~~5#3 = 0#3 :=
  ⟨threeFrames_config, by decide, by decide, by decide, by decide, ⟨_, rfl⟩, by decide⟩
/-- The last frame of the table, cached. -/
theorem test_w_FbFrameLookup_cached :
    let s : State := { threeFrames with arg0 := 2, lastB := 2 }
    s.faulted = false ∧ s.arg0 = s.lastB ∧ s.arg0 ≠ 0xFFFFFFFF#32 ∧
    s.arg0.toNat < s.cfg.frameMetaB.length := by decide
theorem test_w_FbFrameLookup :
    threeFrames.cfg.frameMetaB.length ≤ ({ threeFrames with arg0 := 3 } : State).arg0.toNat ∧
    threeFrames.ConfigLegal ∧ exec .fbDecodeFrame threeFrames = .next (after .fbDecodeFrame threeFrames) ∧
    (after .fbDecodeFrame threeFrames).faulted = false := ⟨by decide, threeFrames_config, exec_after _ _, by decide⟩

end Sys2Proof.Tests
end

section
/-! The family of 10_state.md: what a step keeps of the machine's invariant (R30 to R34), who writes `STATUS`
(R22), and the register map and the host's writes to it (R21, R23, R42). -/

namespace Sys2Proof.Machine

/-! ## The register map (R21) -/

/-- Register numbers past the map are unmapped (R42). -/
theorem readReg_eq_none {s : State} {r : Nat} (h : 0x11 ≤ r) : readReg s r = none := by
  unfold readReg
  split
  case h_18 => rfl
  all_goals omega

/-- The map has no gap: each number up to 0x10 is a register. -/
theorem readReg_isSome {s : State} {r : Nat} (h : r ≤ 0x10) : (readReg s r).isSome = true := by
  interval_cases r <;> rfl

/-- Settles O20: each row of the map by evaluation, the numbers past it by `readReg_eq_none`. -/
theorem registerMap : Obligations.RegisterMap := fun _ =>
  ⟨rfl, rfl, rfl, rfl, rfl, rfl, rfl, rfl, rfl, rfl, rfl, rfl, rfl, rfl, rfl, rfl, rfl,
    fun _ h => readReg_eq_none h⟩

/-! ## One access of the host (R42) -/

/-- While no decode loop runs, a step serves the host's next access. -/
theorem step_access {s : State} {a : HostAccess} {q : List HostAccess} (hseq : s.inner.seq = .command)
    (hh : s.host = a :: q) : step s = hostAccess a { s with host := q } := by
  simp [step, hostStep, hseq, hh]

/-- A write past `ARG1` has no effect on a mapped register, and is not admitted to another number. -/
theorem writeReg_of_two_lt {r : Nat} (h : 2 < r) (v : Word) (s : State) :
    writeReg r v s = if (readReg s r).isSome then .next s else .refused (.unmappedRegister r) := by
  unfold writeReg
  split
  case h_4 => rfl
  all_goals omega

/-- A write to a register that the host cannot write. -/
theorem writeReg_readOnly {r : Nat} (h3 : 3 ≤ r) (h16 : r ≤ 0x10) (v : Word) (s : State) :
    writeReg r v s = .next s := by
  rw [writeReg_of_two_lt h3, if_pos (readReg_isSome h16)]

/-- A write to a number that is no register. -/
theorem writeReg_unmapped {r : Nat} (h : 0x11 ≤ r) (v : Word) (s : State) :
    writeReg r v s = .refused (.unmappedRegister r) := by
  rw [writeReg_of_two_lt (by omega), readReg_eq_none h]
  rfl

/-- Settles O18: the step is the access, and the register's number says what a write does. -/
theorem hostWrites : Obligations.HostWrites := by
  refine ⟨fun s reg q hseq hh h => ?_, fun s reg v q hseq hh => ?_⟩
  · rw [step_access hseq hh, hostAccess, readReg_eq_none h]
    rfl
  · rw [step_access hseq hh, hostAccess]
    refine ⟨?_, ?_, fun h3 h16 => writeReg_readOnly h3 h16 v _, fun h => writeReg_unmapped h v _⟩
    · rintro rfl
      rfl
    · rintro rfl
      rfl

/-- Settles O5: a write to `CMD` issues the word, and issuing a word that decodes runs its instruction. -/
theorem stepRunsIssuedCommand : Obligations.StepRunsIssuedCommand := by
  intro s w q i hseq hh hdec
  rw [step_write hseq hh, issue, hdec]

/-! ## `STATUS` and `FINFO` (R22) -/

/-- A step that records a fault sets `FAULTED` and a code of 60_exceptions.md R300. -/
theorem FaultStep.faulted_fcode {s t : State} (h : FaultStep s t) :
    t.faulted = true ∧ 1 ≤ (statusFcode t.status).toNat ∧ (statusFcode t.status).toNat ≤ 8 := by
  obtain ⟨f, hst, -⟩ := h.record
  rw [State.faulted, hst, status_fcode]
  exact ⟨statusFaulted_withFault _ _, fcodeOf_range f.code⟩

/-- Settles O12: the three things that `step_next` says a step can do to the record of a fault. -/
theorem statusWriters : Obligations.StatusWriters := by
  intro s t h
  rcases step_next h with hquiet | hfault | ⟨q, hh, rfl⟩
  · exact .inl ⟨hquiet.status, hquiet.finfo⟩
  · exact .inr (.inl ⟨hfault.running, hfault.faulted_fcode⟩)
  · exact .inr (.inr ⟨rfl, rfl, q, hh⟩)

/-! ## The invariant (R30 to R34) -/

/-- A turn of the line loop keeps the invariant. -/
theorem lineStep_inv {s t : State} (h : s.Inv) (hf : s.faulted = false) (hseq : s.inner.seq = .lines)
    (he : lineStep s = .next t) : t.Inv := by
  obtain ⟨u, hu, rfl⟩ := afterNext_eq he
  refine advanceLine_inv (exec_inv h (fun v _ hb => ?_) hu)
  rw [decodeLine_body] at hb
  exact (line_inv h hf hseq hb).1

/-- A skipped slot keeps the invariant. -/
theorem countSkip_inv {s : State} (h : s.Inv) : s.countSkip.Inv := h.of_inner (.inl rfl)

/-- A record of the tile loop keeps the invariant. -/
theorem exec_decodeTile_inv {c : BitVec 3} {s t : State} (h : s.Inv) (he : exec (decodeTile c) s = .next t) :
    t.Inv := by
  refine exec_inv h (fun v hf hb => ?_) he
  rw [decodeTile_body] at hb
  exact tileStep_inv h hf (tileBody_tileStep hb)

/-- A turn of the tile loop keeps the invariant: the slot is skipped, or a record is run after its type field,
or the type field raises. -/
theorem tileTurn_inv {s t : State} (h : s.Inv) (hf : s.faulted = false) (he : tileStep s = .next t) :
    t.Inv := by
  unfold tileStep at he
  split at he
  · obtain rfl := Host.Outcome.next.inj he
    exact advanceSlot_inv (countSkip_inv h)
  · split at he
    · rename_i r hr
      obtain ⟨u, hu, rfl⟩ := afterNext_eq he
      have hread : r.2.Inv := tileStep_inv h hf (readTileType_tileStep hr)
      exact advanceSlot_inv (exec_decodeTile_inv hread hu)
    · obtain rfl := Host.Outcome.next.inj he
      exact raise_inv h

/-- Settles O13: a faulted block serves the host and runs no loop; in a running one each of the three
sequencers keeps the invariant. -/
theorem invKept : Obligations.InvKept := by
  intro s t h he
  unfold step at he
  split at he
  · rename_i hf
    exact hostStep_inv h (h.idle hf) he
  · rename_i hf
    have hrun : s.faulted = false := by simpa using hf
    split at he
    · rename_i hseq
      exact hostStep_inv h hseq he
    · rename_i hseq
      exact lineStep_inv h hrun hseq he
    · exact tileTurn_inv h hrun he

end Sys2Proof.Machine
end

section
/-! The family of 20_memory.md: no step writes the input (R61), `MemRead` and the typed reads (R63 to R67), and
what the host can read between commands (R73). -/

namespace Sys2Proof.Machine

/-! ## The input (R61) -/

/-- Settles O15: a quiet step and a recorded fault keep the input, and so does `RESET`. -/
theorem inputsNeverChange : Obligations.InputsNeverChange := by
  intro s t h
  rcases step_next h with hquiet | hfault | ⟨q, -, rfl⟩
  · exact ⟨hquiet.mem, hquiet.len, hquiet.cfg⟩
  · exact ⟨hfault.mem, hfault.len, hfault.cfg⟩
  · exact ⟨rfl, rfl, rfl⟩

/-! ## The typed reads (R63 to R67) -/

/-- Joined words as a number: the first one is the more significant. -/
theorem toNat_append_eq {m n : Nat} (a : BitVec m) (b : BitVec n) :
    (a ++ b).toNat = 2 ^ n * a.toNat + b.toNat := by
  rw [BitVec.toNat_append, ← Nat.shiftLeft_add_eq_or_of_lt b.isLt, Nat.shiftLeft_eq, Nat.mul_comm]

/-- Four bytes, the most significant first (R67). -/
theorem wordBE_toNat (s : State) (a : Nat) :
    (s.wordBE a).toNat = 16777216 * (s.byteAt a).toNat + 65536 * (s.byteAt (a + 1)).toNat +
      256 * (s.byteAt (a + 2)).toNat + (s.byteAt (a + 3)).toNat := by
  simp only [State.wordBE, toNat_append_eq]
  omega

theorem readI8_ok {s : State} (h : s.offset.toNat + 1 ≤ s.len.toNat) :
    readI8 s = .ok ((s.byteAt s.offset.toNat).toInt, s.advance 1) :=
  readI8_eq_ok.2 ⟨h, rfl⟩

theorem readI8_bounds {s : State} (h : s.offset.toNat + 1 > s.len.toNat) :
    readI8 s = .error ⟨.bounds, s.offset.toNat⟩ := by
  rw [readI8, readU8_bounds h, Run.bind_error]

/-- Settles O27: what each read gives inside `LEN`, and its `BOUNDS` past it; the two words as numbers. -/
theorem typedReads : Obligations.TypedReads := by
  refine ⟨fun _ _ _ => rfl, fun s h => ⟨readU8_ok h, readI8_ok h⟩, fun s h => ⟨_, readU16LE_ok h, ?_⟩,
    fun s h => ⟨_, readU32BE_ok h, wordBE_toNat s _⟩,
    fun s => ⟨fun h => ⟨readU8_bounds h, readI8_bounds h⟩, readU16LE_bounds, readU32BE_bounds⟩⟩
  exact (toNat_append_eq _ _).trans (Nat.add_comm _ _)

/-! ## What the host reads (R73) -/

/-- A read is admitted where there is a value, and changes nothing. -/
theorem admitRead_eq {α : Type} {v : Option α} {c : Prop} [Decidable c] (h : v.isSome ↔ c) (r : Refusal)
    (s : State) : admitRead v r s = if c then .next s else .refused r := by
  cases v with
  | none => rw [if_neg (h.not.1 Bool.false_ne_true)]; rfl
  | some x => rw [if_pos (h.1 rfl)]; rfl

theorem readReg_isSome_iff (s : State) (r : Nat) : (readReg s r).isSome ↔ r ≤ 0x10 := by
  refine ⟨fun h => ?_, readReg_isSome⟩
  by_contra hr
  rw [readReg_eq_none (by omega)] at h
  exact Bool.false_ne_true h

theorem readElementA_isSome_iff (l : LayersA) (k p : Nat) :
    (readElementA l k p).isSome ↔ k < 2 ∧ p < 49152 := by
  simp [readElementA]

theorem readElementB_isSome_iff (l : LayersB) (k p : Nat) :
    (readElementB l k p).isSome ↔ k < 3 ∧ p < 76800 := by
  simp [readElementB]

theorem readSample_isSome_iff (s : State) (i : Nat) :
    (readSample s i).isSome ↔ i < s.pcmCount.toNat := by
  simp [readSample]

theorem readElementA_value (l : LayersA) (k : Fin 2) {p : Nat} (hp : p < 49152) :
    readElementA l k.val p = some (if pixelA (l.layer k) p then 1#8 else 0#8) := by
  rw [readElementA, if_pos ⟨k.isLt, hp⟩, Fin.ofNat_val_eq_self]
  rfl

theorem readElementB_value (l : LayersB) (k : Fin 3) {p : Nat} (hp : p < 76800) :
    readElementB l k.val p = some (BitVec.ofNat 8 (pixelB (l.layer k) p).val) := by
  rw [readElementB, if_pos ⟨k.isLt, hp⟩, Fin.ofNat_val_eq_self]

theorem readSample_value {s : State} {i : Nat} (h : i < s.pcm.length) (hi : i < s.pcmCount.toNat) :
    readSample s i = some s.pcm[i] := by
  rw [readSample, if_pos hi, List.getD_eq_getElem _ _ h]

/-- Settles O19: the step is the access, which is admitted exactly where the port has a value; and that value. -/
theorem hostReads : Obligations.HostReads := by
  refine ⟨fun s a q hseq hh => ?_, fun l k p => readElementA_value l k, fun l k p => readElementB_value l k,
    fun s i => readSample_value⟩
  rw [step_access hseq hh]
  refine ⟨?_, ?_, ?_, ?_, ?_⟩
  · rintro reg rfl
    exact admitRead_eq (readReg_isSome_iff _ reg) _ _
  · rintro k p rfl
    exact admitRead_eq (readElementA_isSome_iff _ k p) _ _
  · rintro k p rfl
    exact admitRead_eq (readElementA_isSome_iff _ k p) _ _
  · rintro k p rfl
    exact admitRead_eq (readElementB_isSome_iff _ k p) _ _
  · rintro i rfl
    exact admitRead_eq (readSample_isSome_iff _ i) _ _

end Sys2Proof.Machine
end

section
/-! The family of 30_encoding.md: the decoder and the encoder are each other's inverse (R90 to R93, R104, R106),
what a word that does not decode raises (R95), and that every word written to `CMD` has a step (R91). -/

namespace Sys2Proof

/-! ## The rows of the opcode map (R92, R93) -/

/-- A row with an operand encodes to its opcode and that operand. -/
theorem operandOp_encode {op imm : Byte} {i : Instr} (h : operandOp op imm = some i) :
    encode i = .cmd (cmdWord op imm) := by
  unfold operandOp at h
  split_ifs at h with h9 h12 h31 <;> obtain rfl := Option.some.inj h
  · rw [h9]; rfl
  · rw [h12]; rfl
  · rw [h31]; rfl

/-- No opcode stands both in a row with an operand and in a row without one. -/
theorem operandOp_none_of_plainOp {op : Byte} {i : Instr} (h : plainOp op = some i) (imm : Byte) :
    operandOp op imm = none :=
  (operandOp_none op imm).2 ((plainOp_some op).1 (by rw [h]; rfl)).2

/-- Which words decode, and to what: `RSV` is 0, and the opcode is a row with an operand, or a row without one
and `IMM8` is 0 (R91, R93). -/
theorem decodeCmd_eq_ok {w : Word} {i : Instr} : decodeCmd w = .ok i ↔
    rsvField w = 0#16 ∧ (operandOp (opField w) (imm8Field w) = some i ∨
      imm8Field w = 0#8 ∧ plainOp (opField w) = some i) := by
  constructor
  · intro h
    unfold decodeCmd at h
    split at h
    case isTrue => cases h
    case isFalse hr =>
    refine ⟨not_not.1 hr, ?_⟩
    split at h
    case h_1 j hj => exact .inl (hj.trans (congrArg some (Except.ok.inj h)))
    case h_2 =>
    split at h
    case isTrue => cases h
    case isFalse hi =>
    split at h
    case h_1 j hj => exact .inr ⟨not_not.1 hi, hj.trans (congrArg some (Except.ok.inj h))⟩
    case h_2 => cases h
  · rintro ⟨hr, ho | ⟨hi, hp⟩⟩
    · simp only [decodeCmd, hr, ho, ne_eq, not_true_eq_false, if_false]
    · simp only [decodeCmd, hr, operandOp_none_of_plainOp hp, hi, hp, ne_eq, not_true_eq_false, if_false]

/-! ## Decode after encode (R90 to R93, R104, R106) -/

theorem decodeCmd_operand {op imm : Byte} {i : Instr} (h : operandOp op imm = some i) :
    decodeCmd (cmdWord op imm) = .ok i := by
  rw [decodeCmd_eq_ok, opField_cmdWord, imm8Field_cmdWord]
  exact ⟨rsvField_cmdWord _ _, .inl h⟩

theorem decodeCmd_plain {op : Byte} {i : Instr} (h : plainOp op = some i) :
    decodeCmd (cmdWord op 0#8) = .ok i := by
  rw [decodeCmd_eq_ok, opField_cmdWord, imm8Field_cmdWord]
  exact ⟨rsvField_cmdWord _ _, .inr ⟨rfl, h⟩⟩

/-- Each format by its own reason: a command by its row of the map, a line or tile type by evaluation. -/
theorem decode_encode (i : Instr) : decode (encode i) = .ok i := by
  cases i with
  | bitsRead n => exact decodeCmd_operand rfl
  | adpcmBInit c => exact decodeCmd_operand rfl
  | fbDecodeLayer k => exact decodeCmd_operand rfl
  | seekSet | seekCur | seekEnd | bitsReset | adpcmAInit | adpcmADecode | adpcmBDecode | faReset | faDecodeAt
  | faDecodeFrame | fbReset | fbDecodeFrame | reset => exact decodeCmd_plain rfl
  | lineBlank | lineSparse | lineInvSparse | lineRaw => rfl
  | tileCommon | tileFull | tileCommonAlt | tileFullAlt | tileRows | tileSkip | tileReserved | tilePattern => rfl

/-- A table word of 2 bits is a line type. -/
theorem decodeTableWord_line (c : LineCode) : decodeTableWord 2 c.toNat = (decode (.line c)).toOption := by
  simp [decodeTableWord, codeOfTable, c.isLt]

/-- A table word of 3 bits is a tile type. -/
theorem decodeTableWord_tile (t : BitVec 3) : decodeTableWord 3 t.toNat = (decode (.tile t)).toOption := by
  simp [decodeTableWord, codeOfTable, t.isLt]

/-- Settles O1: `decode_encode`, and the table word of a code is read as that code. -/
theorem decodeEncode : Obligations.DecodeEncode := by
  intro i
  have h := decode_encode i
  refine ⟨h, ?_⟩
  have htable : (decode (encode i)).toOption = some i := congrArg Except.toOption h
  cases hc : encode i <;> rw [hc] at htable
  case cmd w => exact (decodeTableWord_cmd w).trans htable
  case line c => exact (decodeTableWord_line c).trans htable
  case tile t => exact (decodeTableWord_tile t).trans htable

/-- Settles O3: each code by evaluation. -/
theorem sampleWords : Obligations.SampleWords := ⟨rfl, rfl, rfl, rfl, rfl, rfl, rfl⟩

/-! ## Encode after decode (R90 to R93) -/

/-- A row without an operand encodes to its opcode with `IMM8` 0. -/
theorem encode_of_plainOp {op : Byte} {i : Instr} (h : plainOp op = some i) :
    encode i = .cmd (cmdWord op 0#8) := by
  have hrow := plainOp_encode op
  rw [h] at hrow
  exact of_decide_eq_true hrow

/-- Settles O2: the row that a word decodes by encodes to the word's own fields, and `RSV` is 0. -/
theorem decodedWordsReencode : Obligations.DecodedWordsReencode := by
  intro w i h
  obtain ⟨hr, hrow⟩ := decodeCmd_eq_ok.1 h
  have henc : encode i = .cmd (cmdWord (opField w) (imm8Field w)) := by
    rcases hrow with ho | ⟨hi, hp⟩
    · exact operandOp_encode ho
    · rw [hi]; exact encode_of_plainOp hp
  rw [henc, cmdWord_fields w hr]

end Sys2Proof

namespace Sys2Proof.Machine

/-! ## A word written to `CMD` (R91, R95) -/

/-- Issuing a word that does not decode raises `ILLEGAL_CMD` with the word. -/
theorem issue_illegal {w : Word} (h : decodeCmd w = .error (.illegalCmd w)) (s : State) :
    issue w s = .next (raise ⟨.illegalCmd, w.toNat⟩ s) := by
  rw [issue, h]

/-- Settles O4: the word does not decode (`decodeCmd_illegal`), and the raise records its fault. -/
theorem illegalWordsFault : Obligations.IllegalWordsFault := by
  intro s w q hf hseq hh hw
  refine ⟨_, (step_write hseq hh).trans (issue_illegal (decodeCmd_illegal w hw) _), ?_⟩
  have hinfo : BitVec.ofInt 32 w.toNat = w := by rw [BitVec.ofInt_natCast, BitVec.ofNat_toNat, BitVec.setWidth_eq]
  have hrec := raise_recorded (s := { s with cmd := w, host := q }) ⟨.illegalCmd, w.toNat⟩ hf
  rwa [hinfo] at hrec

/-- Issuing a word is an instruction or a raise, and both have a next state. -/
theorem issue_next (w : Word) (s : State) : ∃ t, issue w s = .next t := by
  unfold issue
  split
  · exact exec_next _ _
  · exact ⟨_, rfl⟩

/-- Settles O7: `issue_next` for the words, `exec_next` for the instructions. -/
theorem everyWordHasAStep : Obligations.EveryWordHasAStep := by
  refine ⟨fun s w q hseq hh => ?_, exec_next⟩
  rw [step_write hseq hh]
  exact issue_next _ _

end Sys2Proof.Machine
end

section
/-! The family of 40_cursor.md: the seeks of the byte cursor (R120 to R122), the reset of the bit cursor (R128),
one `BITS_READ` in numbers (R129, R130), and a sequence of them as the stream (R132, R133). -/

namespace Sys2Proof.Machine

/-! ## One `BITS_READ` (R129, R130) -/

/-- With a legal width, the effect is `ReadBits` with its field put into `RESULT`. -/
theorem bitsReadBody_ok {n : Byte} {s : State} {r : Word × State} (h1 : 1 ≤ n.toNat) (h16 : n.toNat ≤ 16)
    (h : readBits n.toNat s = .ok r) : bitsReadBody n s = .ok { r.2 with result := r.1 } := by
  rw [bitsReadBody, if_neg (by omega), h, Run.bind_ok]

/-- With a legal width, the effect raises what `ReadBits` raises. -/
theorem bitsReadBody_raise {n : Byte} {s : State} {f : Raised} (h1 : 1 ≤ n.toNat) (h16 : n.toNat ≤ 16)
    (h : readBits n.toNat s = .error f) : bitsReadBody n s = .error f := by
  rw [bitsReadBody, if_neg (by omega), h, Run.bind_error]

theorem bitsReadBody_badWidth {n : Byte} {s : State} (h : n.toNat < 1 ∨ 16 < n.toNat) :
    bitsReadBody n s = .error ⟨.badWidth, n.toNat⟩ :=
  if_pos h

/-- A read that takes its field out of the accumulator `acc`, in numbers. -/
theorem exec_bitsRead_takeBits {n : Byte} {s u : State} {acc : Word} {d : Nat} (hf : s.faulted = false)
    (h1 : 1 ≤ n.toNat) (h16 : n.toNat ≤ 16) (hd : d ≤ 16)
    (h : readBits n.toNat s = .ok (takeBits n.toNat acc d u)) :
    ∃ t, exec (.bitsRead n) s = .next t ∧ t = { u with result := t.result, acc := t.acc, dfc := t.dfc } ∧
      t.result.toNat = acc.toNat % 2 ^ n.toNat ∧ t.acc.toNat = acc.toNat / 2 ^ n.toNat ∧ t.dfc.toNat = d := by
  refine ⟨_, exec_of_body hf (bitsReadBody_ok h1 h16 h), rfl, lowBits_toNat h16 acc, ?_, ofNat5_toNat hd⟩
  exact (BitVec.toNat_ushiftRight ..).trans (Nat.shiftRight_eq_div_pow ..)

/-- A command word by shifts: the opcode in bits 0 to 7, `IMM8` in bits 8 to 15 (30_encoding.md R90). -/
theorem cmdWord_eq_or (op imm : Byte) : cmdWord op imm = (imm.setWidth 32 <<< 8) ||| op.setWidth 32 := by
  apply BitVec.eq_of_getLsbD_eq
  intro i hi
  simp only [cmdWord_getLsbD, BitVec.getLsbD_or, BitVec.getLsbD_shiftLeft, BitVec.getLsbD_setWidth]
  by_cases h8 : i < 8
  · simp [h8, hi]
  · have hop : op.getLsbD i = false := BitVec.getLsbD_of_ge _ _ (by omega)
    simp [h8, hi, hop, show i - 8 < 32 by omega]

/-- Settles O25: the window and the refill are each a field taken out of an accumulator, whose number is
`refilled_toNat` with a refill; the other clauses are the raise of the read and of the width. -/
theorem bitsRead : Obligations.BitsRead := by
  refine ⟨fun n => cmdWord_eq_or 0x09#8 n ▸ decode_encode (.bitsRead n), fun n s hf hs => ⟨?_, ?_, ?_, ?_⟩⟩
  · intro h1 h16 hw
    exact exec_bitsRead_takeBits hf h1 h16 hw (readBits_window hw)
  · intro h1 h16 hw hb
    have hhigh := hs.high
    obtain ⟨t, ht, hframe, hres, hacc, hdfc⟩ :=
      exec_bitsRead_takeBits hf h1 h16 (by omega) (readBits_refill hw hb)
    rw [refilled_toNat s _ hs, toNat_append_eq, Nat.add_comm (2 ^ 8 * _)] at hres hacc
    exact ⟨t, _, ht, rfl, hframe, hres, hacc, by omega⟩
  · intro h1 h16 hw hb
    have h := exec_fault_nat (i := .bitsRead n) hf (bitsReadBody_raise h1 h16 (readBits_bounds hw hb))
    rwa [BitVec.ofNat_toNat, BitVec.setWidth_eq] at h
  · intro hw
    have h := exec_fault_nat (i := .bitsRead n) hf (bitsReadBody_badWidth hw)
    rwa [BitVec.ofNat_toNat] at h

/-! ## A sequence of `BITS_READ` (R132, R133) -/

/-- All that `BITS_READ` may change where it completes. -/
def BitsReadOnly (s t : State) : Prop :=
  t = { s with result := t.result, offset := t.offset, acc := t.acc, dfc := t.dfc }

theorem BitsReadOnly.trans {s t u : State} (h : BitsReadOnly s t) (h' : BitsReadOnly t u) :
    BitsReadOnly s u := by
  unfold BitsReadOnly at *
  rw [h', h]

theorem BitsReadOnly.of_cursorOnly {s t : State} {w : Word} (h : CursorOnly s t) :
    BitsReadOnly s { t with result := w } := by
  unfold BitsReadOnly
  unfold CursorOnly at h
  rw [h]

theorem BitsReadOnly.mem {s t : State} (h : BitsReadOnly s t) : t.mem = s.mem := by rw [h]

theorem BitsReadOnly.faulted {s t : State} (h : BitsReadOnly s t) : t.faulted = s.faulted := by rw [h]; rfl

/-- A read whose words, and those of `m` more bits, are in the buffer: it completes, `RESULT` is the next n
stream bits, and the words it has loaded. -/
theorem exec_bitsRead_stream {n : Byte} {m : Nat} {s : State} (hf : s.faulted = false) (hs : s.Synced)
    (h1 : 1 ≤ n.toNat) (h16 : n.toNat ≤ 16) (hr : s.roomFor (n.toNat + m)) :
    ∃ t, exec (.bitsRead n) s = .next t ∧ t.Synced ∧ t.roomFor m ∧ BitsReadOnly s t ∧
      t.bitPos = s.bitPos + n.toNat ∧ (∀ i < n.toNat, t.result.getLsbD i = s.streamBit (s.bitPos + i)) ∧
      t.offset.toNat = s.offset.toNat + 2 * ((s.dfc.toNat + n.toNat - 1) / 16) ∧
      t.dfc.toNat = s.dfc.toNat + n.toNat - 16 * ((s.dfc.toNat + n.toNat - 1) / 16) := by
  obtain ⟨r, hread, -, hsync, hpos, honly, hroom⟩ := readBits_field hs h1 h16 hr
  obtain ⟨-, -, hbits, -⟩ := readBits_stream hs h1 h16 hread
  obtain ⟨hoff, hdfc⟩ := readBits_offset h1 h16 hs hread
  refine ⟨{ r.2 with result := r.1 }, exec_of_body hf (bitsReadBody_ok h1 h16 hread),
    Synced_congr hsync rfl rfl rfl rfl, roomFor_congr hroom rfl rfl rfl, .of_cursorOnly honly, hpos,
    fun i hi => ?_, hoff, hdfc⟩
  simp [hbits, hi]

/-- From a bit cursor in step with the stream, `BITS_READ` of each width in turn returns the bits that follow. -/
theorem readFields_stream : ∀ (widths : List Byte) {s : State}, s.faulted = false → s.Synced →
    (∀ n ∈ widths, 1 ≤ n.toNat ∧ n.toNat ≤ 16) → s.roomFor (widths.map BitVec.toNat).sum →
    ∃ fields t, readFields widths s = some (fields, t) ∧
      fieldBits widths fields =
        (List.range (widths.map BitVec.toNat).sum).map (fun j => s.streamBit (s.bitPos + j)) ∧
      t.offset.toNat = s.offset.toNat + 2 * ((s.dfc.toNat + (widths.map BitVec.toNat).sum - 1) / 16) ∧
      BitsReadOnly s t := by
  intro widths
  induction widths with
  | nil =>
    intro s _ hs _ _
    have hhigh := hs.high
    refine ⟨[], s, rfl, rfl, ?_, rfl⟩
    simp only [List.map_nil, List.sum_nil]
    omega
  | cons n ns ih =>
    intro s hf hs hw hr
    obtain ⟨⟨h1, h16⟩, hns⟩ := List.forall_mem_cons.1 hw
    rw [List.map_cons, List.sum_cons] at hr ⊢
    obtain ⟨u, hu, hsync, hroom, honly, hpos, hbits, hoff, hdfc⟩ := exec_bitsRead_stream hf hs h1 h16 hr
    obtain ⟨fields, t, ht, hfields, htoff, htonly⟩ := ih (honly.faulted.trans hf) hsync hns hroom
    refine ⟨u.result :: fields, t, by simp [readFields, hu, ht], ?_, ?_, honly.trans htonly⟩
    · have hhead : (List.range n.toNat).map u.result.getLsbD =
          (List.range n.toNat).map fun j => s.streamBit (s.bitPos + j) :=
        List.map_congr_left fun i hi => hbits i (List.mem_range.1 hi)
      rw [fieldBits, hhead, hfields, List.range_add, List.map_append, List.map_map]
      simp only [hpos, streamBit_congr honly.mem, Nat.add_assoc, Function.comp_def]
    · have hlow := hs.low
      rw [htoff, hoff, hdfc]
      omega

/-- Settles O26: after a reset the bit cursor is in step with the stream at the byte cursor, and
`readFields_stream` counts from there. -/
theorem streamOrder : Obligations.StreamOrder := by
  intro widths s hf hacc hdfc hw hroom
  have hs : s.Synced := Synced_congr (resetBits_synced s) rfl hdfc hacc rfl
  have hd : s.dfc.toNat = 16 := by rw [hdfc]; rfl
  have hpos : s.bitPos = 8 * s.offset.toNat := by rw [State.bitPos, hd, Nat.add_sub_cancel]
  have hwords : ∀ k, (s.dfc.toNat + k - 1) / 16 = (k + 15) / 16 := by omega
  have h := readFields_stream widths hf hs hw (by rwa [State.roomFor, hwords])
  rwa [hpos, hwords] at h

/-! ## The seeks (R120 to R122) -/

/-- A command whose effect is a seek to `x`: it moves the byte cursor, or raises `SEEK_RANGE`. -/
theorem exec_seek {i : Instr} {s : State} {x : Int} (hf : s.faulted = false) (hi : bodyOf i s = seekTo x s) :
    (0 ≤ x → x ≤ (s.len.toNat : Int) → exec i s = .next { s with offset := BitVec.ofInt 32 x }) ∧
    (x < 0 ∨ (s.len.toNat : Int) < x →
      ∃ t, exec i s = .next t ∧ FaultRecorded s t 0x03#8 (BitVec.ofInt 32 x)) :=
  ⟨fun h0 hlen => exec_of_body hf (hi.trans (seekTo_ok h0 hlen)),
    fun h => exec_fault hf (hi.trans (seekTo_range h))⟩

theorem ofInt_word (w : Word) : BitVec.ofInt 32 w.toNat = w := by
  rw [BitVec.ofInt_natCast, BitVec.ofNat_toNat, BitVec.setWidth_eq]

/-- Settles O21: a seek to `ARG0`, which is not negative. -/
theorem seekSet : Obligations.SeekSet := by
  refine ⟨decode_encode .seekSet, fun s hf => ?_⟩
  have h := exec_seek (i := .seekSet) (x := s.arg0.toNat) hf rfl
  rw [ofInt_word] at h
  exact ⟨fun hle => h.1 (Int.natCast_nonneg _) (Int.ofNat_le.2 hle), fun hlt => h.2 (.inr (Int.ofNat_lt.2 hlt))⟩

/-- Settles O22: a seek to the integer sum; as a word it is the sum of the words. -/
theorem seekCur : Obligations.SeekCur := by
  refine ⟨decode_encode .seekCur, fun s hf => ?_⟩
  have h := exec_seek (i := .seekCur) (x := s.offset.toNat + s.arg0.toInt) hf rfl
  rwa [add_ofInt] at h

/-- Settles O23: a seek to the integer sum with `LEN`, which is at most `LEN` exactly when `ARG0` is at most 0. -/
theorem seekEnd : Obligations.SeekEnd := by
  refine ⟨decode_encode .seekEnd, fun s hf => ?_⟩
  have h := exec_seek (i := .seekEnd) (x := s.len.toNat + s.arg0.toInt) hf rfl
  rw [add_ofInt] at h
  exact ⟨fun h0 hle => h.1 h0 (by omega), fun hout => h.2 (by omega)⟩

/-! ## The reset of the bit cursor (R128) -/

/-- Settles O24: the effect is `resetBits`. -/
theorem bitsReset : Obligations.BitsReset :=
  ⟨decode_encode .bitsReset, fun _ hf => exec_of_body hf rfl⟩

end Sys2Proof.Machine
end

section
/-! The family of 41_adpcm.md: the two inits (R153, R158), a track of each variant in integers (R157, R163), how many
samples it appends (R165), and that they fit 16 bits (R164). -/

namespace Sys2Proof.Machine

/-! ## The inits (R153, R158) -/

/-- Settles O28: each init's effect is its assignments, and an operand above 1 raises. -/
theorem adpcmInits : Obligations.AdpcmInits := by
  refine ⟨decode_encode .adpcmAInit, decode_encode (.adpcmBInit 0#8), decode_encode (.adpcmBInit 1#8), fun s hf =>
    ⟨exec_of_body hf rfl, exec_of_body hf rfl, exec_of_body hf rfl, fun c hc => ?_⟩⟩
  have hraise : bodyOf (.adpcmBInit c) s = .error ⟨.illegalCmd, s.cmd.toNat⟩ := if_pos hc
  have h := exec_fault_nat hf hraise
  rwa [BitVec.ofNat_toNat, BitVec.setWidth_eq] at h

/-! ## A track in integers (R157, R163) -/

/-- A command whose effect is a track: with the range in the buffer it feeds the bytes, and past `LEN` it raises
`BOUNDS` with `ARG0`. -/
theorem exec_track {i : Instr} {f : Byte → State → State} {s : State} (hf : s.faulted = false)
    (hi : bodyOf i s = decodeTrack f s) :
    (s.arg0.toNat + s.arg1.toNat ≤ s.len.toNat →
      exec i s = .next (feedBytes f s.arg0.toNat s.arg1.toNat s)) ∧
    (s.len.toNat < s.arg0.toNat + s.arg1.toNat →
      ∃ t, exec i s = .next t ∧ FaultRecorded s t 0x02#8 s.arg0) := by
  refine ⟨fun h => exec_of_body hf (hi.trans (decodeTrack_ok h)), fun h => ?_⟩
  have hfault := exec_fault_nat hf (hi.trans (decodeTrack_bounds h))
  rwa [BitVec.ofNat_toNat, BitVec.setWidth_eq] at hfault

/-- A track that ends unfaulted has fed its bytes. -/
theorem exec_track_unfaulted {i : Instr} {f : Byte → State → State} {s t : State} (hreset : i ≠ .reset)
    (hf : s.faulted = false) (ht : t.faulted = false) (hi : bodyOf i s = decodeTrack f s)
    (h : exec i s = .next t) : t = feedBytes f s.arg0.toNat s.arg1.toNat s :=
  (decodeTrack_eq (hi.symm.trans (exec_body hreset hf ht h))).2

/-- Settles O29: variant A's bytes follow `trackA` (`feedBytes_A_spec`). -/
theorem adpcmADecode : Obligations.AdpcmADecode := by
  refine ⟨decode_encode .adpcmADecode, fun s hf => ?_⟩
  obtain ⟨hin, hout⟩ := exec_track (i := .adpcmADecode) hf rfl
  obtain ⟨hstate, hpcm⟩ := feedBytes_A_spec s.arg0.toNat s.arg1.toNat s
  exact ⟨fun h => ⟨_, hin h, feedBytes_only_A _ _ s, hpcm, hstate, feedBytes_A_pcmCount _ _⟩, hout⟩

/-- Under every cap a byte of variant B appends at most 4 samples (R163). -/
theorem feedBytes_B_grows (p n : Nat) (s : State) :
    (feedBytes stepBByte p n s).pcm.length ≤ s.pcm.length + 4 * n := by
  induction n generalizing p s with
  | zero => exact Nat.le_refl _
  | succ n ih =>
    have hbyte := stepBByte_grows (s.byteAt p) s
    have hrest := ih (p + 1) (stepBByte (s.byteAt p) s)
    rw [feedBytes]
    omega

/-- Settles O30: variant B's bytes follow `trackB` under the cap (`feedBytes_B_spec`), and the ADPCM ranges, which
every byte keeps, say that `PCMCOUNT` counts the output. -/
theorem adpcmBDecode : Obligations.AdpcmBDecode := by
  refine ⟨decode_encode .adpcmBDecode, fun s hf => ?_⟩
  obtain ⟨hin, hout⟩ := exec_track (i := .adpcmBDecode) hf rfl
  refine ⟨fun h hl hn => ?_, hout⟩
  obtain ⟨hstate, hpcm⟩ := feedBytes_B_spec s.arg0.toNat s.arg1.toNat hl hn
  have hlegal := feedBytes_keeps stepBByte_legal s.arg0.toNat s.arg1.toNat hl
  have hgrows := feedBytes_B_grows s.arg0.toNat s.arg1.toNat s
  exact ⟨_, hin h, feedBytes_only_B _ _ s, hpcm, hlegal.count (by omega), hstate⟩

/-! ## How many samples (R159, R165) -/

/-- The walk over a byte takes a 2-bit code below index 18, and past position 4. -/
theorem stepBWalk_code2 {b : Byte} {fuel pos : Nat} {s : State} (hpos : pos < 8)
    (h : s.bidx.toNat < 18 ∨ 4 < pos) :
    stepBWalk b (fuel + 1) pos s = stepBWalk b fuel (pos + 2) (stepB2 (code2At b pos) s) := by
  rw [stepBWalk, if_pos hpos, if_pos h]

/-- Elsewhere it takes a 4-bit code. -/
theorem stepBWalk_code4 {b : Byte} {fuel pos : Nat} {s : State} (hpos : pos ≤ 4) (h : ¬ s.bidx.toNat < 18) :
    stepBWalk b (fuel + 1) pos s = stepBWalk b fuel (pos + 4) (stepB4 (code4At b pos) s) := by
  rw [stepBWalk, if_pos (by omega), if_neg (not_or.2 ⟨h, by omega⟩)]

/-- At position 8 the byte is done. -/
theorem stepBWalk_end (b : Byte) (fuel : Nat) (s : State) : stepBWalk b fuel 8 s = s := by
  cases fuel <;> rfl

section
variable {b : Byte} {s : State} (hcap : s.cfg.pcmCap = none)
include hcap

theorem stepB2_length (c : BitVec 2) : (stepB2 c s).pcm.length = s.pcm.length + 1 := stepB_length hcap

theorem stepB4_length (c : BitVec 4) : (stepB4 c s).pcm.length = s.pcm.length + 1 := stepB_length hcap

theorem stepB2_uncapped (c : BitVec 2) : (stepB2 c s).cfg.pcmCap = none := by rw [stepB2, stepB_cfg, hcap]

theorem stepB4_uncapped (c : BitVec 4) : (stepB4 c s).cfg.pcmCap = none := by rw [stepB4, stepB_cfg, hcap]

/-- From position 6 there is one code, of 2 bits. -/
theorem stepBWalk_from6_length (fuel : Nat) : (stepBWalk b (fuel + 1) 6 s).pcm.length = s.pcm.length + 1 := by
  rw [stepBWalk_code2 (by omega) (.inr (by omega)), stepBWalk_end, stepB2_length hcap]

/-- From position 4 there are two codes of 2 bits, or one of 4. -/
theorem stepBWalk_from4_length (fuel : Nat) :
    (stepBWalk b (fuel + 2) 4 s).pcm.length = s.pcm.length + if s.bidx.toNat < 18 then 2 else 1 := by
  split
  · next h =>
    rw [stepBWalk_code2 (by omega) (.inl h), stepBWalk_from6_length (stepB2_uncapped hcap _), stepB2_length hcap]
  · next h =>
    rw [stepBWalk_code4 (by omega) h, stepBWalk_end, stepB4_length hcap]

/-- From position 2 a code of 4 bits leaves position 6. -/
theorem stepBWalk_from2_length (fuel : Nat) :
    (stepBWalk b (fuel + 3) 2 s).pcm.length = s.pcm.length +
      if s.bidx.toNat < 18 ∧ (stepB2 (code2At b 2) s).bidx.toNat < 18 then 3 else 2 := by
  by_cases h : s.bidx.toNat < 18
  · rw [stepBWalk_code2 (by omega) (.inl h), stepBWalk_from4_length (stepB2_uncapped hcap _), stepB2_length hcap]
    simp only [h, true_and]
    split <;> rfl
  · rw [stepBWalk_code4 (by omega) h, stepBWalk_from6_length (stepB4_uncapped hcap _), stepB4_length hcap,
      if_neg fun h' => h h'.1]

/-- The samples of a byte that starts with a 2-bit code. -/
theorem stepBByte_length_below (h : s.bidx.toNat < 18) :
    (stepBByte b s).pcm.length = s.pcm.length +
      if (stepB2 (code2At b 0) s).bidx.toNat < 18 ∧
        (stepB2 (code2At b 2) (stepB2 (code2At b 0) s)).bidx.toNat < 18 then 4 else 3 := by
  rw [stepBByte, stepBWalk_code2 (by omega) (.inl h), stepBWalk_from2_length (stepB2_uncapped hcap _),
    stepB2_length hcap]
  split <;> rfl

/-- The samples of a byte that starts with a 4-bit code. -/
theorem stepBByte_length_above (h : ¬ s.bidx.toNat < 18) :
    (stepBByte b s).pcm.length = s.pcm.length +
      if (stepB4 (code4At b 0) s).bidx.toNat < 18 then 3 else 2 := by
  rw [stepBByte, stepBWalk_code4 (by omega) h, stepBWalk_from4_length (stepB4_uncapped hcap _), stepB4_length hcap]
  split <;> rfl

end

/-- Settles O31: the lengths over a track, and over one byte by the index at its start. -/
theorem sampleCounts : Obligations.SampleCounts := by
  refine ⟨fun s hf h => ⟨⟨_, (exec_track (i := .adpcmADecode) hf rfl).1 h, feedBytes_length_A _ _ s⟩,
    fun hcap => ⟨_, (exec_track (i := .adpcmBDecode) hf rfl).1 h, feedBytes_length_B _ _ hcap⟩⟩, ?_⟩
  rintro s b hf hcap h1 h rfl
  have hexec := (exec_track (i := .adpcmBDecode) hf rfl).1 (by rwa [h1])
  rw [h1] at hexec
  refine ⟨stepBByte (s.byteAt s.arg0.toNat) s, hexec, rfl, ?_⟩
  by_cases h18 : s.bidx.toNat < 18
  · rw [stepBByte_length_below hcap h18]
    split <;> simp [*]
  · rw [stepBByte_length_above hcap h18]
    split <;> simp [*]

/-! ## The samples fit 16 bits (R164) -/

/-- How many of k samples a cap lets through when n are there already (R163). -/
def capRoom (cap : Option Nat) (n k : Nat) : Nat :=
  match cap with
  | none => k
  | some c => c - n

theorem capSamples_eq_take (cap : Option Nat) (n : Nat) (l : List Sample) :
    capSamples cap n l = l.take (capRoom cap n l.length) := by
  cases cap with
  | none => exact List.take_length.symm
  | some c => rfl

/-- Sixteen times a predictor of variant B is in range. -/
theorem trackB_sample_range {bs : List Byte} {a x : Adpcm} (hx : x ∈ a.trackB bs) :
    -32768 ≤ x.pred * 16 ∧ x.pred * 16 ≤ 32752 := by
  have := trackB_pred bs a x hx
  omega

/-- Settles O32: the predictors are clamped to ranges whose samples 16 bits hold (`samplesOf_toInt`). -/
theorem sampleRange : Obligations.SampleRange := by
  intro s t hf ht
  refine ⟨fun h => ?_, fun h hl hn => ?_⟩
  · obtain rfl := exec_track_unfaulted (i := .adpcmADecode) nofun hf ht rfl h
    have hrange := trackA_pred (s.bytesFrom s.arg0.toNat s.arg1.toNat) s.adpcmA
    refine ⟨?_, hrange⟩
    rw [(feedBytes_A_spec _ _ s).2, List.map_append, samplesOf_toInt (by simpa using hrange)]
    simp only [mul_one]
  · obtain rfl := exec_track_unfaulted (i := .adpcmBDecode) nofun hf ht rfl h
    refine ⟨capRoom s.cfg.pcmCap s.pcm.length _, ?_, rfl, fun a ha => trackB_sample_range ha⟩
    have hfits : ∀ a ∈ s.adpcmB.trackB (s.bytesFrom s.arg0.toNat s.arg1.toNat),
        -32768 ≤ a.pred * 16 ∧ a.pred * 16 ≤ 32767 :=
      fun a ha => (trackB_sample_range ha).imp_right (le_trans · (by decide))
    rw [(feedBytes_B_spec _ _ hl hn).2, List.map_append, capSamples_eq_take, List.map_take,
      samplesOf_toInt hfits, samplesOf, List.length_map]

end Sys2Proof.Machine
end

section
/-! The family of 42_frame_a.md: the line types (R199 to R203), the line-type table and the line loop (R195, R198), one
frame record (R190 to R208), and the sequencer with its cache (R221 to R225). -/

namespace Sys2Proof.Machine

/-! ## The cache stays coherent (R208, R221, R225) -/

theorem advanceLine_coherentA {s : State} (hI : s.Inv) (hc : s.CoherentA) : (advanceLine s).CoherentA := by
  obtain ⟨i, hi, -⟩ := advanceLine_eq s
  rw [hi]
  exact hc.of_inner hI i

theorem advanceSlot_coherentA {s : State} (hI : s.Inv) (hc : s.CoherentA) : (advanceSlot s).CoherentA := by
  obtain ⟨i, hi, -⟩ := advanceSlot_eq s
  rw [hi]
  exact hc.of_inner hI i

/-- While the line loop runs no frame is cached, so a line cannot make the cache incoherent. -/
theorem lineBody_coherentA {c : LineCode} {s t : State} (hI : s.Inv) (hf : s.faulted = false)
    (hseq : s.inner.seq = .lines) (h : lineBody c s = .ok t) : t.CoherentA := by
  have honly : t = { s with offset := t.offset, lA := t.lA, inner := t.inner } := (lineBody_stepsA h).1
  refine .of_none ?_
  rw [honly]
  exact (hI.cache hf).lines hseq

/-- A turn of the line loop leaves a coherent cache. -/
theorem lineStep_coherentA {s t : State} (hI : s.Inv) (hf : s.faulted = false) (hseq : s.inner.seq = .lines)
    (hc : s.CoherentA) (h : lineStep s = .next t) : t.CoherentA := by
  obtain ⟨u, hu, rfl⟩ := afterNext_eq h
  refine advanceLine_coherentA (exec_inv hI (fun v _ hb => ?_) hu) (exec_coherentA hc (fun v _ hb => ?_) hu)
  all_goals rw [decodeLine_body] at hb
  · exact (line_inv hI hf hseq hb).1
  · exact lineBody_coherentA hI hf hseq hb

/-- A record of the tile loop leaves a coherent cache. -/
theorem exec_decodeTile_coherentA {c : BitVec 3} {s t : State} (hI : s.Inv) (hc : s.CoherentA)
    (h : exec (decodeTile c) s = .next t) : t.CoherentA := by
  refine exec_coherentA hc (fun v _ hb => ?_) h
  rw [decodeTile_body] at hb
  exact tileStep_coherentA hI hc (tileBody_tileStep hb)

/-- A turn of the tile loop leaves a coherent cache: it passes a slot, runs a record after its type field, or
raises. -/
theorem tileTurn_coherentA {s t : State} (hI : s.Inv) (hf : s.faulted = false) (hc : s.CoherentA)
    (h : tileStep s = .next t) : t.CoherentA := by
  unfold tileStep at h
  split at h
  · obtain rfl := Host.Outcome.next.inj h
    exact advanceSlot_coherentA (countSkip_inv hI) (hc.of_inner hI _)
  · split at h
    · rename_i r hr
      obtain ⟨u, hu, rfl⟩ := afterNext_eq h
      have hread := readTileType_tileStep hr
      have hI' : r.2.Inv := tileStep_inv hI hf hread
      exact advanceSlot_coherentA (exec_decodeTile_inv hI' hu)
        (exec_decodeTile_coherentA hI' (tileStep_coherentA hI hc hread) hu)
    · obtain rfl := Host.Outcome.next.inj h
      exact raise_coherentA _ s

/-- Settles O44: no frame is cached at reset; a faulted block serves the host, and in a running one each of the
three sequencers keeps the cache coherent. -/
theorem cacheCoherent : Obligations.CacheCoherent := by
  refine ⟨.of_none rfl, fun s t hI hc h => ?_⟩
  unfold step at h
  split at h
  · exact hostStep_coherentA hI hc h
  · rename_i hf
    have hrun : s.faulted = false := by simpa using hf
    split at h
    · exact hostStep_coherentA hI hc h
    · rename_i hseq
      exact lineStep_coherentA hI hrun hseq hc h
    · exact tileTurn_coherentA hI hrun hc h

/-! ## A step in a decode loop (R198; 43_frame_b.md R245, R248) -/

theorem tileStep_record {s : State} {r : BitVec 3 × State} (hskip : s.inner.skip = 0#5)
    (h : readTileType s = .ok r) : tileStep s = afterNext advanceSlot (exec (decodeTile r.1) r.2) := by
  rw [tileStep, if_neg (not_not.2 hskip), h]

theorem tileStep_raise {s : State} {f : Raised} (hskip : s.inner.skip = 0#5)
    (h : readTileType s = .error f) : tileStep s = .next (raise f s) := by
  rw [tileStep, if_neg (not_not.2 hskip), h]

theorem tileStep_skip {s : State} (hskip : s.inner.skip ≠ 0#5) :
    tileStep s = .next (advanceSlot s.countSkip) := if_pos hskip

/-- Settles O6: the step is the loop's turn, and the turn's branch is the one its hypotheses name. -/
theorem stepRunsRecords : Obligations.StepRunsRecords := by
  refine ⟨fun s hf hseq => step_lines hf hseq,
    fun s t u hf hseq hskip hr => (step_tiles hf hseq).trans (tileStep_record hskip hr),
    fun s f hf hseq hskip hr => (step_tiles hf hseq).trans (tileStep_raise hskip hr),
    fun s hf hseq hskip => (step_tiles hf hseq).trans (tileStep_skip hskip), fun s => ?_, fun s => ?_⟩
  · unfold advanceLine
    by_cases hseq : s.inner.seq = .lines
    · rw [if_neg (not_not.2 hseq), if_pos hseq]
      split <;> rfl
    · rw [if_pos hseq, if_neg hseq]
  · unfold advanceSlot
    by_cases hseq : s.inner.seq = .tiles
    · rw [if_neg (not_not.2 hseq), if_pos hseq]
      split <;> rfl
    · rw [if_pos hseq, if_neg hseq]

/-- Settles O36: `lineLoop_run` and `lineLoop_fault` from line 0. -/
theorem lineLoopIsSteps : Obligations.LineLoopIsSteps := by
  refine fun k s hf => ⟨fun t h => lineLoop_run (n := 191) rfl hf h, fun e h => ?_⟩
  obtain ⟨n, u, hn, hrun, hfaulted, hstatus, hfinfo⟩ := lineLoop_fault (n := 192) rfl hf h
  exact ⟨n, u, hn, hrun, hfaulted, by rw [hstatus, status_fcode], hfinfo⟩

/-! ## The line types and the line-type table (R195, R199 to R203) -/

/-- Settles O33: a blank line has no effect, and `lineRawBody_written` is the effect of a raw one. -/
theorem lineBlankRaw : Obligations.LineBlankRaw := by
  refine ⟨decode_encode .lineBlank, decode_encode .lineRaw, fun s hf =>
    ⟨exec_of_body hf rfl, fun hok hroom => ?_⟩⟩
  obtain ⟨t, ht, hwritten⟩ := lineRawBody_written hok hroom
  exact ⟨t, exec_of_body (i := .lineRaw) hf ht, hwritten⟩

/-- Settles O34: the two masked lines differ only in what an absent chunk keeps. -/
theorem lineMasked : Obligations.LineMasked := by
  refine ⟨decode_encode .lineSparse, decode_encode .lineInvSparse, ?_⟩
  rintro s m n hf hok rfl rfl hroom
  rw [← Nat.add_assoc] at hroom
  obtain ⟨t, ht, hsparse⟩ := lineSparseBody_written hok hroom
  obtain ⟨u, hu, hinv⟩ := lineInvSparseBody_written hok hroom
  exact ⟨⟨t, exec_of_body (i := .lineSparse) hf ht, hsparse⟩,
    ⟨u, exec_of_body (i := .lineInvSparse) hf hu, hinv⟩⟩

/-- Settles O35 (the obligation's own name is the model's function): `unpackTypes_value`, with a type as two bits of
its byte's number. -/
theorem unpackTypes_spec : Obligations.UnpackTypes := by
  intro k s hwf hroom
  obtain ⟨t, ht, hoff, htype, hrest⟩ := unpackTypes_value hwf hroom
  exact ⟨t, ht, hoff, fun y hy => by rw [htype y hy, lineCodeAt_toNat], hrest⟩

/-! ## The reset of the decoder (R224) -/

theorem pixelA_empty (k : Fin 2) (p : Nat) : pixelA (LayersA.layer ⟨[], []⟩ k) p = false := by
  rw [LayersA.layer, ite_self]
  exact BitVec.getLsbD_zero

/-- Settles O37: the effect is `resetFa`, and every pixel of an empty buffer is 0. -/
theorem faReset : Obligations.FaReset :=
  ⟨decode_encode .faReset, fun s hf =>
    ⟨s.resetFa, exec_of_body hf rfl, rfl, fun k p => ⟨pixelA_empty k p, pixelA_empty k p⟩⟩⟩

/-! ## The parts of a frame record (R190, R191, R194, R196) -/

/-- A record whose header is past the buffer. -/
theorem decodeBodyA_bounds {f : Nat} {s : State} (h : s.len.toNat ≤ f) :
    decodeBodyA f s = .error ⟨.bounds, f⟩ := if_pos (Nat.lt_succ_of_le h)

/-- A record that decodes has its header in the buffer. -/
theorem decodeBodyA_header {f : Nat} {s r : State} (h : decodeBodyA f s = .ok r) : f + 1 ≤ s.len.toNat := by
  by_contra hf
  rw [decodeBodyA_bounds (by omega)] at h
  cases h

theorem openFrameA_toNat {a : Nat} {s : State} (h : a ≤ s.len.toNat) : (s.openFrameA a).offset.toNat = a := by
  have := s.len.isLt
  rw [State.openFrameA_offset, BitVec.toNat_ofNat]
  omega

/-- Reading on from a record's start only moves the byte cursor. -/
theorem openFrameA_advance (s : State) (a n : Nat) : (s.openFrameA a).advance n = s.openFrameA (a + n) := by
  rw [State.advance, State.openFrameA_offset, ← BitVec.ofNat_add]
  rfl

theorem readI8_openFrameA {a : Nat} {s : State} (h : a + 1 ≤ s.len.toNat) :
    readI8 (s.openFrameA a) = .ok ((s.byteAt a).toInt, s.openFrameA (a + 1)) := by
  have hoff := openFrameA_toNat (Nat.le_of_succ_le h)
  rw [readI8_ok (by rwa [hoff]), hoff, openFrameA_advance]
  rfl

theorem readI8_openFrameA_bounds {s : State} :
    readI8 (s.openFrameA s.len.toNat) = .error ⟨.bounds, s.len.toNat⟩ := by
  have hoff := openFrameA_toNat (Nat.le_refl s.len.toNat)
  rw [readI8_bounds (by rw [hoff]; exact Nat.lt_succ_self _), hoff]

/-- Both bytes of a translation are in the buffer. -/
theorem readTranslation_openFrameA {a : Nat} {s : State} (h : a + 2 ≤ s.len.toNat) :
    readTranslation true (s.openFrameA a) =
      .ok (((s.byteAt a).toInt, (s.byteAt (a + 1)).toInt), s.openFrameA (a + 2)) := by
  rw [readTranslation, if_pos rfl, readI8_openFrameA (by omega), Run.bind_ok, readI8_openFrameA h, Run.bind_ok]

/-- One of the two bytes of a translation stands at `LEN`. -/
theorem readTranslation_bounds {a : Nat} {s : State} (h : a ≤ s.len.toNat) (h2 : s.len.toNat < a + 2) :
    readTranslation true (s.openFrameA a) = .error ⟨.bounds, s.len.toNat⟩ := by
  rw [readTranslation, if_pos rfl]
  by_cases hx : a = s.len.toNat
  · rw [hx, readI8_openFrameA_bounds, Run.bind_error]
  · rw [readI8_openFrameA (by omega), Run.bind_ok, show a + 1 = s.len.toNat by omega,
      readI8_openFrameA_bounds, Run.bind_error]

/-- The length in bytes of a record's header with its translation, and the translation (R193, R194). -/
def headerOf (s : State) (f : Nat) : Nat × Int × Int :=
  if headerTranslated (s.byteAt f) then (3, (s.byteAt (f + 1)).toInt, (s.byteAt (f + 2)).toInt) else (1, 0, 0)

/-- With its header in the buffer, a record is its tables and lines from the byte after the header on. -/
theorem recordA_eq {f : Nat} {s : State} (h : f + (headerOf s f).1 ≤ s.len.toNat) :
    recordA f s = (do
      let r ← decodeLayersA (s.openFrameA (f + (headerOf s f).1))
      .ok ((headerOf s f).2, r)) := by
  unfold recordA
  rw [openFrameA_advance]
  unfold headerOf at *
  cases ht : headerTranslated (s.byteAt f)
  · simp only [Bool.false_eq_true, if_false]
    rw [readTranslation, if_neg Bool.false_ne_true, Run.bind_ok]
  · simp only [ht, if_true] at h ⊢
    rw [readTranslation_openFrameA h, Run.bind_ok]

theorem one_le_headerOf (s : State) (f : Nat) : 1 ≤ (headerOf s f).1 := by
  unfold headerOf
  split <;> simp

/-- With its header in the buffer, a record completes where its tables and lines do, and raises what they raise. -/
theorem decodeBodyA_parts {f : Nat} {s : State} (h : f + (headerOf s f).1 ≤ s.len.toNat) :
    decodeBodyA f s = (do
      let r ← decodeLayersA (s.openFrameA (f + (headerOf s f).1))
      .ok (if headerKey (s.byteAt f) then r else
        xorDelta (headerOf s f).2.1 (headerOf s f).2.2 r).closeFrameA) := by
  have := one_le_headerOf s f
  rw [decodeBodyA_eq (by omega), recordA_eq h]
  cases decodeLayersA (s.openFrameA (f + (headerOf s f).1)) <;> rfl

/-- A record whose translation passes the buffer. -/
theorem decodeBodyA_translation_bounds {f : Nat} {s : State} (h : f + 1 ≤ s.len.toNat)
    (ht : headerTranslated (s.byteAt f) = true) (h3 : s.len.toNat < f + 3) :
    decodeBodyA f s = .error ⟨.bounds, s.len.toNat⟩ := by
  rw [decodeBodyA_eq h, recordA, ht, openFrameA_advance, readTranslation_bounds h (by omega),
    Run.bind_error, Run.bind_error]

/-! ## `FA_DECODE_AT` (R207) -/

theorem faDecodeAtBody_error {s : State} {e : Raised} (h : decodeBodyA s.arg0.toNat s = .error e) :
    faDecodeAtBody s = .error e := by
  rw [faDecodeAtBody, argUnsigned, h, Run.bind_error]

theorem exec_faDecodeAt_ok {s r : State} (hf : s.faulted = false) (h : decodeBodyA s.arg0.toNat s = .ok r) :
    exec .faDecodeAt s = .next { r with lastA := noFrame } :=
  exec_of_body hf (faDecodeAtBody_ok h)

theorem exec_faDecodeAt_raise {s : State} {e : Raised} (hf : s.faulted = false)
    (h : decodeBodyA s.arg0.toNat s = .error e) : exec .faDecodeAt s = .next (raise e s) :=
  exec_of_raise hf (faDecodeAtBody_error h)

/-- An effect that raises with a word as its information records that word. -/
theorem exec_fault_word {i : Instr} {s : State} {c : FaultCode} {w : Word} (hf : s.faulted = false)
    (h : bodyOf i s = .error ⟨c, w.toNat⟩) :
    ∃ t, exec i s = .next t ∧ FaultRecorded s t (fcodeOf c) w := by
  have hfault := exec_fault hf h
  rwa [ofInt_word] at hfault

/-- Settles O38: `decodeBodyA_completes` for the longest record, `decodeBodyA_parts` for what a record is made of, and
its two reads that can pass `LEN`. -/
theorem faDecodeAt : Obligations.FaDecodeAt := by
  refine fun s hf => ⟨fun hroom => ?_, ?_,
    fun hlen => exec_fault_word (i := .faDecodeAt) hf (faDecodeAtBody_error (decodeBodyA_bounds hlen)),
    fun h1 ht h3 => exec_fault_word (i := .faDecodeAt) hf
      (faDecodeAtBody_error (decodeBodyA_translation_bounds h1 ht h3))⟩
  · obtain ⟨r, hr⟩ := decodeBodyA_completes hroom
    obtain ⟨honly, -, hoff⟩ := decodeBodyA_spec hr
    refine ⟨_, exec_faDecodeAt_ok hf hr, ?_, ?_⟩
    · rw [honly]; rfl
    · rw [honly] at hoff ⊢
      exact hoff
  · rintro n tx ty s0 lines hheader hroom rfl hlines
    replace hheader : headerOf s s.arg0.toNat = (n, tx, ty) := hheader.symm
    have hlayers : decodeLayersA (s.openFrameA (s.arg0.toNat + n)) = lines := by
      rcases hlines with ⟨horder, rfl⟩ | ⟨horder, rfl⟩
      · exact decodeLayersA_tablesFirst horder
      · exact decodeLayersA_interleaved horder
    have hparts := decodeBodyA_parts (f := s.arg0.toNat) (s := s) (by rwa [hheader])
    simp only [hheader, hlayers] at hparts
    refine ⟨?_, ?_⟩
    · rintro a r rfl rfl
      exact exec_faDecodeAt_ok hf hparts
    · rintro e rfl
      exact exec_faDecodeAt_raise hf hparts

/-! ## What a frame depends on (R204, R208) -/

/-- A record that decodes records no fault. -/
theorem decodeBodyA_faulted {f : Nat} {s r : State} (h : decodeBodyA f s = .ok r) : r.faulted = s.faulted := by
  rw [State.faulted, (decodeBodyA_spec h).1]
  rfl

theorem Run.Agree.ok {R : State → State → Prop} {a b : Run State} {s : State} (h : Run.Agree R a b)
    (ha : a = .ok s) : ∃ t, b = .ok t ∧ R s t := by
  subst ha
  cases b with
  | error e => exact h.elim
  | ok t => exact ⟨t, rfl, h⟩

theorem Run.Agree.error {R : State → State → Prop} {a b : Run State} {e : Raised} (h : Run.Agree R a b)
    (ha : a = .error e) : b = .error e := by
  subst ha
  cases b with
  | error e' => exact congrArg _ (Eq.symm h)
  | ok t => exact h.elim

theorem Run.AgreeVal.ok {α : Type} {R : State → State → Prop} {a b : Run (α × State)} {v : α} {s : State}
    (h : Run.AgreeVal R a b) (ha : a = .ok (v, s)) : ∃ t, b = .ok (v, t) ∧ R s t := by
  subst ha
  cases b with
  | error e => exact h.elim
  | ok y =>
    obtain ⟨w, t⟩ := y
    obtain ⟨rfl, hR⟩ := h
    exact ⟨t, rfl, hR⟩

/-- Settles O39: by `decodeBodyA_same` the two records complete alike, or raise the same fault. -/
theorem keyframeIndependence : Obligations.KeyframeIndependence := by
  intro s s' hf hf' hmem hlen hcfg harg hkey
  have hagree := decodeBodyA_same (f := s.arg0.toNat) (s := s) (t := s') ⟨hmem, hlen, hcfg⟩ (.inl hkey)
  cases hr : decodeBodyA s.arg0.toNat s with
  | ok r =>
    obtain ⟨r', hr', -, hoff, hlA, hpA⟩ := hagree.ok hr
    rw [← harg] at hr'
    exact ⟨_, _, exec_faDecodeAt_ok hf hr, exec_faDecodeAt_ok hf' hr',
      .inl ⟨(decodeBodyA_faulted hr).trans hf, (decodeBodyA_faulted hr').trans hf', hlA, hpA, hoff⟩⟩
  | error e =>
    have hr' := hagree.error hr
    rw [← harg] at hr'
    have hrec := raise_recorded e hf
    have hrec' := raise_recorded e hf'
    exact ⟨_, _, exec_faDecodeAt_raise hf hr, exec_faDecodeAt_raise hf' hr',
      .inr ⟨hrec.faulted, hrec'.faulted, hrec'.fcode.trans hrec.fcode.symm, hrec'.finfo.trans hrec.finfo.symm⟩⟩

/-- `P_A` while a record's lines are decoded is the one the record began with. -/
theorem recordA_pA {f : Nat} {s : State} {r : (Int × Int) × State} (h : recordA f s = .ok r) :
    r.2.pA = s.pA := by
  rw [recordA_only h]

/-- A record without the KEY bit is its lines, XORed at its translation with `P_A`. -/
theorem decodeBodyA_of_delta {f : Nat} {s : State} {r : (Int × Int) × State} (h : f + 1 ≤ s.len.toNat)
    (hkey : headerKey (s.byteAt f) = false) (hr : recordA f s = .ok r) :
    decodeBodyA f s = .ok (xorDelta r.1.1 r.1.2 r.2).closeFrameA := by
  rw [decodeBodyA_eq h, hr, hkey]
  rfl

theorem decodeBodyA_delta {f : Nat} {s t : State} (hkey : headerKey (s.byteAt f) = false)
    (h : decodeBodyA f s = .ok t) :
    ∃ r, recordA f s = .ok r ∧ t = (xorDelta r.1.1 r.1.2 r.2).closeFrameA := by
  rw [decodeBodyA_eq (decodeBodyA_header h), hkey] at h
  obtain ⟨r, hr, h⟩ := Run.bind_eq_ok.1 h
  exact ⟨r, hr, (Except.ok.inj h).symm⟩

/-- Settles O40: the lines are the same over the empty `P_A`, where the XOR leaves each pixel, and `xorDelta_pixel`
says what it does over the block's own. -/
theorem deltaFrame : Obligations.DeltaFrame := by
  intro s t tx ty hf hkey htrans hexec ht
  obtain ⟨w, hw, rfl⟩ := faDecodeAtBody_eq (exec_body (i := .faDecodeAt) nofun hf ht hexec)
  have hheader := decodeBodyA_header hw
  obtain ⟨⟨v, r⟩, hr, rfl⟩ := decodeBodyA_delta hkey hw
  obtain rfl : v = (tx, ty) := (recordA_translation hheader hr).trans htrans.symm
  obtain ⟨q, hq, -, hoff, hlA, -⟩ :=
    (recordA_same (f := s.arg0.toNat) (s := s) (t := { s with pA := ⟨[], []⟩ }) ⟨rfl, rfl, rfl⟩).ok hr
  have hrp : r.pA = s.pA := recordA_pA hr
  have hqp : q.pA = ⟨[], []⟩ := recordA_pA hq
  have hbody := decodeBodyA_of_delta (s := { s with pA := ⟨[], []⟩ }) hheader hkey hq
  refine ⟨_, exec_faDecodeAt_ok (s := { s with pA := ⟨[], []⟩ }) hf hbody, (decodeBodyA_faulted hbody).trans hf,
    rfl, hoff.symm, fun k x y hx hy => ?_⟩
  have hclear := xorDelta_pixel tx ty q k hx hy
  simp only [hqp, pixelA_empty, ite_self, Bool.xor_false, hlA] at hclear
  have hdelta := xorDelta_pixel tx ty r k hx hy
  rw [← hclear, hrp] at hdelta
  exact hdelta

/-! ## The sequencer (R221 to R223) -/

/-- The block with frame index i in `ARG0`. -/
abbrev State.askFrame (s : State) (i : Nat) : State := { s with arg0 := BitVec.ofNat 32 i }

/-- `FA_DECODE_FRAME` of index i, in terms of the decode of frame i: `ARG0` is only carried along. -/
theorem bodyOf_faDecodeFrame {i : Nat} (hi : i < 2 ^ 32) (s : State) :
    bodyOf .faDecodeFrame (s.askFrame i) = (decodeFrameA i s).map (·.askFrame i) := by
  rw [← decodeFrameA_arg0]
  show decodeFrameA (BitVec.ofNat 32 i).toNat _ = _
  rw [BitVec.toNat_ofNat, Nat.mod_eq_of_lt hi]

/-- Settles O41: the cached frame, the index past the table and the non-key frame 0 are three cases of the
sequencer, each with its own lemma. -/
theorem faFrameLookup : Obligations.FaFrameLookup := by
  refine fun s hf => ⟨fun hlast hnone hlt => ?_, fun hle => ?_, fun f harg hlast hf0 hroom hkey => ?_⟩
  · have hcached : cacheIs s.lastA s.arg0.toNat = true := by
      rw [← hlast]
      exact cacheIs_iff.2 ⟨hnone, rfl⟩
    exact exec_of_body (i := .faDecodeFrame) hf (decodeFrameA_cached hlt hcached)
  · exact exec_fault_word (i := .faDecodeFrame) hf (decodeFrameA_range hle)
  · have hcache : cacheIs s.lastA ((0 : Nat) : Int) = false := by
      rw [← Bool.not_eq_true, cacheIs_iff]
      rintro ⟨-, h⟩
      exact hlast (BitVec.eq_of_toNat_eq (Int.ofNat_inj.1 h))
    have hraise : bodyOf .faDecodeFrame s = .error ⟨.frameRange, -1⟩ := by
      show decodeFrameA s.arg0.toNat s = _
      rw [harg]
      exact decodeFrameA_zero_delta hf0 hcache hroom hkey
    exact exec_fault hf hraise

/-- A frame that is not cached, with an entry past the buffer. -/
theorem decodeFrameA_bounds {i : Nat} {s : State} {f : Word} (hf : s.cfg.frameOffsetA[i]? = some f)
    (hc : cacheIs s.lastA i = false) (hlen : s.len.toNat ≤ f.toNat) :
    decodeFrameA i s = .error ⟨.bounds, f.toNat⟩ := by
  have hheader : memRead f.toNat 1 s = .error ⟨.bounds, f.toNat⟩ := memRead_bounds (by omega)
  rw [decodeFrameA_unfold, frameStepA, hf]
  simp only [hc, Bool.false_eq_true, if_false, hheader, Run.bind_error]

theorem Run.map_eq_ok {m : Run State} {g : State → State} {t : State} :
    m.map g = .ok t ↔ ∃ r, m = .ok r ∧ g r = t := by
  cases m <;> simp [Except.map]

theorem Run.map_eq_error {m : Run State} {g : State → State} {e : Raised} :
    m.map g = .error e ↔ m = .error e := by
  cases m <;> simp [Except.map]

/-- Where every raise of instruction j's effect is one of instruction i's, a fault that j records is one that i
records. -/
theorem exec_fault_of_faulted {i j : Instr} {s s' t : State} (h : exec j s' = .next t) (hj : j ≠ .reset)
    (hf' : s'.faulted = false) (hf : s.faulted = false)
    (hbody : ∀ e, bodyOf j s' = .error e → bodyOf i s = .error e) (ht : t.faulted = true) :
    ∃ v, exec i s = .next v ∧ FaultRecorded s v (statusFcode t.status) t.finfo := by
  obtain ⟨e, he, rfl⟩ := exec_raised hj hf' h ht
  exact exec_same_fault hf hf' (hbody e he)

/-- The effect of `FA_DECODE_AT` of a record at f, in terms of the record. -/
theorem bodyOf_faDecodeAt (f : Word) (s : State) :
    bodyOf .faDecodeAt { s with arg0 := f } =
      (decodeBodyA f.toNat s).map fun r => { r with arg0 := f, lastA := noFrame } := by
  show faDecodeAtBody _ = _
  rw [faDecodeAtBody, argUnsigned, decodeBodyA_arg0]
  cases decodeBodyA f.toNat s <;> rfl

/-- A keyframe, or the frame after the cached one: the effect of its record with the frame cached (R222). -/
theorem bodyOf_faDecodeFrame_alone {i : Nat} {s : State} {f : Word} (hi : i < 2 ^ 32)
    (hf : s.cfg.frameOffsetA[i]? = some f) (hc : cacheIs s.lastA i = false) (hb : f.toNat + 1 ≤ s.len.toNat)
    (hk : headerKey (s.byteAt f.toNat) = true ∨ cacheIs s.lastA ((i : Int) - 1) = true) :
    bodyOf .faDecodeFrame (s.askFrame i) =
      (decodeBodyA f.toNat s).map fun r => { r.askFrame i with lastA := BitVec.ofNat 32 i } := by
  rw [bodyOf_faDecodeFrame hi, decodeFrameA_alone hf hc hb hk]
  cases decodeBodyA f.toNat s <;> rfl

/-- Any other frame: the effect of its predecessor's `FA_DECODE_FRAME`, then of its own (R222). -/
theorem bodyOf_faDecodeFrame_chain {i : Nat} {s : State} {f : Word} (hcfg : s.ConfigLegal)
    (hf : s.cfg.frameOffsetA[i + 1]? = some f) (hc : cacheIs s.lastA ((i + 1 : Nat) : Int) = false)
    (hp : cacheIs s.lastA (i : Int) = false) (hb : f.toNat + 1 ≤ s.len.toNat)
    (hk : headerKey (s.byteAt f.toNat) = false) :
    bodyOf .faDecodeFrame (s.askFrame (i + 1)) = (do
      let t ← bodyOf .faDecodeFrame (s.askFrame i)
      bodyOf .faDecodeFrame (t.askFrame (i + 1))) := by
  have hi : i + 1 < 2 ^ 32 := (getElem?_lt hf).trans hcfg.1
  rw [bodyOf_faDecodeFrame hi, bodyOf_faDecodeFrame (Nat.lt_of_succ_lt hi),
    decodeFrameA_chain hcfg.1 hf hc hp hb hk]
  cases decodeFrameA i s with
  | error e => rfl
  | ok t => exact (bodyOf_faDecodeFrame hi t).symm

/-- `FA_DECODE_FRAME` of such a frame is `FA_DECODE_AT` of its record with the frame cached, or the record's fault. -/
theorem exec_faDecodeFrame_alone {i : Nat} {s t : State} {f : Word} (hi : i < 2 ^ 32) (hrun : s.faulted = false)
    (hf : s.cfg.frameOffsetA[i]? = some f) (hc : cacheIs s.lastA i = false) (hb : f.toNat + 1 ≤ s.len.toNat)
    (hk : headerKey (s.byteAt f.toNat) = true ∨ cacheIs s.lastA ((i : Int) - 1) = true)
    (ht : exec .faDecodeAt { s with arg0 := f } = .next t) :
    (t.faulted = false →
      exec .faDecodeFrame (s.askFrame i) = .next { t.askFrame i with lastA := BitVec.ofNat 32 i }) ∧
    (t.faulted = true → ∃ v, exec .faDecodeFrame (s.askFrame i) = .next v ∧
      FaultRecorded (s.askFrame i) v (statusFcode t.status) t.finfo) := by
  have hrecord := bodyOf_faDecodeAt f s
  have hframe := bodyOf_faDecodeFrame_alone hi hf hc hb hk
  refine ⟨fun htf => ?_, exec_fault_of_faulted ht nofun hrun hrun fun e he => ?_⟩
  · have hbody := exec_body (i := .faDecodeAt) (s := { s with arg0 := f }) nofun hrun htf ht
    obtain ⟨r, hr, rfl⟩ := Run.map_eq_ok.1 (hrecord.symm.trans hbody)
    rw [hr] at hframe
    exact exec_of_body hrun hframe
  · rw [hframe, Run.map_eq_error.1 (hrecord.symm.trans he)]
    rfl

/-- `FA_DECODE_FRAME` of any other frame, from that of its predecessor: the predecessor's fault, or what the frame's
own does after it. -/
theorem exec_faDecodeFrame_chain {i : Nat} {s t : State} {f : Word} (hcfg : s.ConfigLegal)
    (hrun : s.faulted = false) (hf : s.cfg.frameOffsetA[i + 1]? = some f)
    (hc : cacheIs s.lastA ((i + 1 : Nat) : Int) = false) (hp : cacheIs s.lastA (i : Int) = false)
    (hb : f.toNat + 1 ≤ s.len.toNat) (hk : headerKey (s.byteAt f.toNat) = false)
    (ht : exec .faDecodeFrame (s.askFrame i) = .next t) :
    (t.faulted = false →
      t.lastA = BitVec.ofNat 32 i ∧
      ∀ u, exec .faDecodeFrame (t.askFrame (i + 1)) = .next u →
        (u.faulted = false → exec .faDecodeFrame (s.askFrame (i + 1)) = .next u) ∧
        (u.faulted = true → ∃ v, exec .faDecodeFrame (s.askFrame (i + 1)) = .next v ∧
          FaultRecorded (s.askFrame (i + 1)) v (statusFcode u.status) u.finfo)) ∧
    (t.faulted = true → ∃ v, exec .faDecodeFrame (s.askFrame (i + 1)) = .next v ∧
      FaultRecorded (s.askFrame (i + 1)) v (statusFcode t.status) t.finfo) := by
  have hchain := bodyOf_faDecodeFrame_chain hcfg hf hc hp hb hk
  refine ⟨fun htf => ?_, exec_fault_of_faulted ht nofun hrun hrun
    fun e he => by rw [hchain, he, Run.bind_error]⟩
  have hpred := exec_body (i := .faDecodeFrame) (s := s.askFrame i) nofun hrun htf ht
  rw [hpred, Run.bind_ok] at hchain
  have hlast : t.lastA = BitVec.ofNat 32 i := by
    rw [bodyOf_faDecodeFrame (Nat.lt_of_succ_lt ((getElem?_lt hf).trans hcfg.1))] at hpred
    obtain ⟨r, hr, rfl⟩ := Run.map_eq_ok.1 hpred
    exact decodeFrameA_lastA (t := r) hp hr
  exact ⟨hlast, fun u hu =>
    ⟨fun huf => exec_of_body hrun (hchain.trans (exec_body (s := t.askFrame (i + 1)) nofun htf huf hu)),
      exec_fault_of_faulted hu nofun htf hrun fun e he => hchain.trans he⟩⟩

/-- Settles O42: the entry past the buffer by `decodeFrameA_bounds`, a frame alone and a frame after its predecessor
by the two lemmas on the command. -/
theorem faFrameChain : Obligations.FaFrameChain := by
  rintro s si i f hf hcfg hentry hlast rfl
  have hlt := getElem?_lt hentry
  have hi : i < 2 ^ 32 := hlt.trans hcfg.1
  have hc : cacheIs s.lastA (i : Int) = false := cacheIs_other hlt hcfg.1 hlast
  refine ⟨fun hlen => ?_, fun hroom hkey t ht => ?_, fun hroom hkey hpos hprev t ht => ?_⟩
  · have hraise : bodyOf .faDecodeFrame (s.askFrame i) = .error ⟨.bounds, f.toNat⟩ := by
      rw [bodyOf_faDecodeFrame hi, decodeFrameA_bounds hentry hc hlen]
      rfl
    exact exec_fault_word (s := s.askFrame i) hf hraise
  · refine exec_faDecodeFrame_alone hi hf hentry hc hroom (hkey.imp_right fun ⟨hpos, hprev⟩ => ?_) ht
    obtain ⟨j, rfl⟩ := Nat.exists_eq_succ_of_ne_zero hpos.ne'
    rw [hprev]
    exact cacheIs_pred_ofNat (Nat.lt_of_succ_lt hlt) hcfg.1
  · obtain ⟨j, rfl⟩ := Nat.exists_eq_succ_of_ne_zero hpos.ne'
    have hp : cacheIs s.lastA (j : Int) = false := cacheIs_other (Nat.lt_of_succ_lt hlt) hcfg.1 hprev
    exact exec_faDecodeFrame_chain hcfg hf hentry hc hp hroom hkey ht

/-- Settles O43: `decodeFrameA_completes`; the frame was cached and nothing changed, or it is cached now and `P_A` is
its copy. -/
theorem faFrameCompletes : Obligations.FaFrameCompletes := by
  intro s hf hlt hroom hkey
  obtain ⟨t, ht⟩ := decodeFrameA_completes hlt hroom hkey
  obtain ⟨-, ⟨honly, -⟩, hcase⟩ := decodeFrameA_spec ht
  refine ⟨t, exec_of_body (i := .faDecodeFrame) hf ht, honly, ?_⟩
  rcases hcase with ⟨hc, rfl⟩ | ⟨-, hlast, hpA, -⟩
  · have heq : t.lastA = t.arg0 := BitVec.eq_of_toNat_eq (Int.ofNat_inj.1 (cacheIs_iff.1 hc).2)
    exact ⟨heq, fun hne => absurd heq hne⟩
  · refine ⟨?_, fun _ => hpA⟩
    rw [hlast, BitVec.ofNat_toNat, BitVec.setWidth_eq]

/-! ## Frames in order, and a frame twice (R225) -/

/-- A running block after `FA_DECODE_FRAME` was one before it. -/
theorem exec_faDecodeFrame_running {s t : State} (h : exec .faDecodeFrame s = .next t) (ht : t.faulted = false) :
    s.faulted = false := by
  rw [← Bool.not_eq_true]
  intro hf
  rw [exec_of_faulted (i := .faDecodeFrame) nofun hf] at h
  obtain rfl := Host.Outcome.next.inj h
  rw [hf] at ht
  cases ht

/-- Frames 0 to i in order, from a coherent cache and ending unfaulted: the cache is coherent, frame i is in the
table, and its layers are those of frame i alone. -/
theorem framesInOrder_coherentA {s : State} (hf : s.faulted = false) (hcfg : s.ConfigLegal) (hc : s.CoherentA)
    (i : Nat) : ∀ {t : State}, framesInOrder i s = some t → t.faulted = false →
      SameInput s t ∧ t.CoherentA ∧ i < s.cfg.frameOffsetA.length ∧ s.frameAlone i = some (t.lA, t.pA) := by
  induction i with
  | zero =>
    intro t h ht
    obtain ⟨u, hu⟩ := exec_next .faDecodeFrame { s with arg0 := 0 }
    rw [framesInOrder, hu] at h
    obtain rfl := Option.some.inj h
    exact frame_next hf hcfg hc hu ht (by decide)
  | succ i ih =>
    intro t h ht
    cases hu : framesInOrder i s with
    | none => simp only [framesInOrder, hu] at h; cases h
    | some u =>
      obtain ⟨v, hv⟩ := exec_next .faDecodeFrame { u with arg0 := BitVec.ofNat 32 (i + 1) }
      simp only [framesInOrder, hu, hv] at h
      obtain rfl := Option.some.inj h
      have huf : u.faulted = false := exec_faDecodeFrame_running (s := u.askFrame (i + 1)) hv ht
      obtain ⟨hsame, huc, hlt, -⟩ := ih hu huf
      have hucfg : u.ConfigLegal := by rwa [State.ConfigLegal, hsame.2.2]
      obtain ⟨hsame', hvc, hlt', halone⟩ := frame_next huf hucfg huc hv ht (Nat.lt_of_le_of_lt hlt hcfg.1)
      exact ⟨hsame.trans hsame', hvc, by rwa [← hsame.2.2],
        frameAlone_same huf hf hlt' hucfg hsame.symm halone⟩

/-- A frame that decodes is cached. -/
theorem decodeFrameA_cacheIs {i : Nat} {s t : State} (hcfg : s.ConfigLegal) (h : decodeFrameA i s = .ok t) :
    cacheIs t.lastA i = true := by
  obtain ⟨hlt, -, ⟨hc, rfl⟩ | ⟨-, hlast, -⟩⟩ := decodeFrameA_spec h
  · exact hc
  · rw [hlast]
    exact cacheIs_self hlt hcfg.1

/-- A frame that decodes is left alone by a second decode. -/
theorem decodeFrameA_twice {i : Nat} {s t : State} (hcfg : s.ConfigLegal) (h : decodeFrameA i s = .ok t) :
    decodeFrameA i t = .ok t := by
  obtain ⟨hlt, hstep, -⟩ := decodeFrameA_spec h
  exact decodeFrameA_cached (by rwa [hstep.same.2.2]) (decodeFrameA_cacheIs hcfg h)

/-- Settles O45: `framesInOrder_coherentA`; and the second call finds its frame cached, or the block faulted. -/
theorem faSequence : Obligations.FaSequence := by
  refine ⟨fun s t i hf hcfg hc h ht => (framesInOrder_coherentA hf hcfg hc i h ht).2.2.2, fun s t hcfg h => ?_⟩
  by_cases ht : t.faulted = true
  · exact exec_of_faulted nofun ht
  · rw [Bool.not_eq_true] at ht
    have hb : decodeFrameA s.arg0.toNat s = .ok t :=
      exec_body (i := .faDecodeFrame) nofun (exec_faDecodeFrame_running h ht) ht h
    have harg : t.arg0 = s.arg0 := by rw [(decodeFrameA_spec hb).2.1.1]
    refine exec_of_body ht (show decodeFrameA t.arg0.toNat t = .ok t from ?_)
    rw [harg]
    exact decodeFrameA_twice hcfg hb

end Sys2Proof.Machine
end

section
/-! The family of 43_frame_b.md: the dictionaries and the tile traversal (R242, R247), the tile types (R249 to R258,
R279), one layer (R245, R254, R260), the reset (R276), and the sequencer with its cache (R271 to R278). -/

namespace Sys2Proof.Machine

/-! ## The dictionaries and the traversal (R242, R247) -/

/-- An entry of the full dictionary is a given line exactly at that line's number. -/
theorem fullEntry_eq_iff {v : Nat} {l : Line} (h : v ≤ 6560) : fullEntry v = l ↔ v = lineNumber l := by
  constructor
  · rintro rfl
    exact (lineNumber_fullEntry h).symm
  · rintro rfl
    exact fullEntry_lineNumber l

theorem rotateLine_surjective : Function.Surjective rotateLine :=
  fun l => ⟨⟨l.px7, l.px0, l.px1, l.px2, l.px3, l.px4, l.px5, l.px6⟩, rfl⟩

theorem shiftLine_bad {v : Nat} (h : 6560 < v) : shiftLine v = .error ⟨.badIndex, v⟩ :=
  if_neg (Nat.not_le.2 h)

/-- Settles O46: a line's number is its only index in `FULL`; rotation is a bijection, so a rotated line has the
number of the line it is the rotation of. -/
theorem fullDictionary : Obligations.FullDictionary := by
  refine ⟨fun l => ⟨⟨lineNumber l, lineNumber_le l, fullEntry_lineNumber l,
    fun v hv h => (fullEntry_eq_iff hv).1 h⟩, ?_⟩, fun v h => ⟨fullLine_bad h, shiftLine_bad h⟩⟩
  obtain ⟨l, rfl⟩ := rotateLine_surjective l
  exact ⟨lineNumber l, lineNumber_le l, congrArg rotateLine (fullEntry_lineNumber l),
    fun v hv h => (fullEntry_eq_iff hv).1 (rotate_inj h)⟩

/-- Settles O47: a pixel is in the tile at its own coordinates rounded down to multiples of 8, and that tile has one
slot; the macro tiles and the anchors are read off the list. -/
theorem tileTraversal : Obligations.TileTraversal := by
  refine ⟨tileOrder_length, fun x y hx hy => ?_, by decide +kernel, by decide +kernel⟩
  obtain ⟨slot, hslot, hxy⟩ := slotXY_surj (cx := x / 8) (cy := y / 8) (by omega) (by omega)
  exact ⟨slot, hslot, (inTile_iff hslot hx).2 hxy, fun slot' hslot' hin =>
    slotXY_inj hslot' hslot (((inTile_iff hslot' hx).1 hin).trans hxy.symm)⟩

/-! ## The tile types (R249 to R258) -/

/-- A tile type whose effect reads a record and writes the tile. -/
theorem exec_tileWritten {i : Instr} {s : State} {bits : Nat} {row : Nat → Line} (hf : s.faulted = false)
    (hok : s.lB.ok) (h : ∃ t, bodyOf i s = .ok t ∧ TileRead s t bits row) :
    ∃ t, exec i s = .next t ∧ TileWritten s t bits row := by
  obtain ⟨t, ht, hread⟩ := h
  exact ⟨t, exec_of_body hf ht, hread.written hok⟩

theorem tileFullBody_badIndex {s : State} (hs : s.Synced) (hr : s.roomFor 13)
    (hi : 6560 < s.field s.bitPos 13) : tileFullBody s = .error ⟨.badIndex, s.field s.bitPos 13⟩ := by
  obtain ⟨r, hread, hv, -⟩ := readIdx13_field (m := 0) hs hr
  rw [tileFullBody, hread, Run.bind_ok, hv, fullLine_bad hi, Run.bind_error]

theorem tileFullAltBody_badIndex {s : State} (hs : s.Synced) (hr : s.roomFor 13)
    (hi : 6560 < s.field s.bitPos 13) : tileFullAltBody s = .error ⟨.badIndex, s.field s.bitPos 13⟩ := by
  obtain ⟨r, hread, hv, -⟩ := readIdx13_field (m := 0) hs hr
  rw [tileFullAltBody, hread, Run.bind_ok, hv, fullLine_bad hi, Run.bind_error]

/-- Settles O48: `tileCommonBody_read` and `tileCommonAltBody_read` are the effects. -/
theorem tileCommon : Obligations.TileCommon := by
  refine ⟨decode_encode .tileCommon, decode_encode .tileCommonAlt, ?_⟩
  rintro s j hf hs hok hroom rfl
  exact ⟨exec_tileWritten (i := .tileCommon) hf hok (tileCommonBody_read hs hroom),
    exec_tileWritten (i := .tileCommonAlt) hf hok (tileCommonAltBody_read hs hroom)⟩

/-- Settles O49: the index is in the dictionary and the effects write the tile, or it is not and both raise it. -/
theorem tileFull : Obligations.TileFull := by
  refine ⟨decode_encode .tileFull, decode_encode .tileFullAlt, fun s v hf hs hok hroom hv => ?_⟩
  rw [hv]
  refine ⟨fun hi => ⟨?_, ?_⟩, fun hi => ⟨?_, ?_⟩⟩
  · exact exec_tileWritten (i := .tileFull) hf hok (tileFullBody_read hs hroom hi)
  · exact exec_tileWritten (i := .tileFullAlt) hf hok (tileFullAltBody_read hs hroom hi)
  · exact exec_fault_nat (i := .tileFull) hf (tileFullBody_badIndex hs hroom hi)
  · exact exec_fault_nat (i := .tileFullAlt) hf (tileFullAltBody_badIndex hs hroom hi)

/-- Settles O50: `tileRowsBody_read` is the effect, and its length is the number of flags that are not set. -/
theorem tileRows : Obligations.TileRows := by
  refine ⟨decode_encode .tileRows, ?_⟩
  rintro s f hf hs hok rfl hroom hi
  rw [← rowIndexPos_eight] at hroom ⊢
  exact exec_tileWritten (i := .tileRows) hf hok (tileRowsBody_read hs hroom hi)

/-- Settles O51: `tilePatternBody_read` is the effect; the 2-bit code after the quirk is q, and `patternTakesA_iff` is
the pattern table. -/
theorem tilePattern : Obligations.TilePattern := by
  refine ⟨decode_encode .tilePattern, ?_⟩
  rintro s common q hf hs hok hcommon rfl hroom hi
  have h := exec_tileWritten (i := .tilePattern) hf hok (tilePatternBody_read hs hcommon hroom hi)
  simpa only [patternTakesA_iff, BitVec.toNat_ofNat] using h

theorem tileReservedBody_noOp {s : State} (h : s.cfg.tile6Policy = .noOp) : tileReservedBody s = .ok s := by
  rw [tileReservedBody, h]

theorem tileReservedBody_fault {s : State} (h : s.cfg.tile6Policy = .fault) :
    tileReservedBody s = .error ⟨.reservedTile, s.inner.slot.val⟩ := by
  rw [tileReservedBody, h]

/-- Settles O52: `tileSkipBody_ok`, and the reserved type under each policy. -/
theorem tileSkipReserved : Obligations.TileSkipReserved := by
  refine ⟨decode_encode .tileSkip, decode_encode .tileReserved, fun s hf =>
    ⟨fun hs hroom => ?_, fun hpolicy => ?_, fun hpolicy => ?_⟩⟩
  · obtain ⟨t, ht, hsync, hpos, honly⟩ := tileSkipBody_ok hs hroom
    exact ⟨t, exec_of_body (i := .tileSkip) hf ht, hsync, hpos, honly⟩
  · exact exec_of_body (i := .tileReserved) hf (tileReservedBody_noOp hpolicy)
  · exact exec_fault_nat (i := .tileReserved) hf (tileReservedBody_fault hpolicy)

/-! ## An index past the dictionary (R279) -/

/-- A pattern record with the full dictionary, after its three bits of code and selector: two lines. -/
theorem tilePatternBody_full {m : Nat} {s : State} (hs : s.Synced) (hr : s.roomFor (3 + m))
    (hfull : s.streamBit (s.bitPos + 2) = false) :
    ∃ u q, u.Synced ∧ u.bitPos = s.bitPos + 3 ∧ CursorOnly s u ∧ u.roomFor m ∧
      tilePatternBody s = (do
        let a ← readLine false u
        let b ← readLine false a.2
        .ok (writeTile (patternRows q a.1 b.1) b.2)) := by
  obtain ⟨q, hq, -, qsync, qpos, qonly, qroom⟩ := readBits_field (n := 2) (m := 1 + m) hs (by omega) (by omega)
    (by rwa [← Nat.add_assoc])
  obtain ⟨d, hd, dval, dsync, dpos, donly, droom⟩ := readBits_field (n := 1) qsync (by omega) (by omega) qroom
  have hsel : d.1.getLsbD 0 = false := by
    rw [BitVec.getLsbD, dval, State.testBit_field, qpos, streamBit_congr qonly.mem, Nat.add_zero, hfull,
      Bool.and_false]
  refine ⟨d.2, q.1.setWidth 2, dsync, by rw [dpos, qpos], qonly.trans donly, droom, ?_⟩
  rw [tilePatternBody, hq, Run.bind_ok, hd, Run.bind_ok, hsel]
  rfl

theorem tilePatternBody_badFirst {s : State} (hs : s.Synced) (hr : s.roomFor 16)
    (hfull : s.streamBit (s.bitPos + 2) = false) (hi : 6560 < s.field (s.bitPos + 3) 13) :
    tilePatternBody s = .error ⟨.badIndex, s.field (s.bitPos + 3) 13⟩ := by
  obtain ⟨u, q, hsync, hpos, honly, hroom, hbody⟩ := tilePatternBody_full (m := 13) hs hr hfull
  rw [← hpos, ← field_congr honly.mem] at hi ⊢
  rw [hbody, readLine_badIndex hsync hroom hi, Run.bind_error]

theorem tilePatternBody_badSecond {s : State} (hs : s.Synced) (hr : s.roomFor 29)
    (hfull : s.streamBit (s.bitPos + 2) = false) (hi : s.field (s.bitPos + 3) 13 ≤ 6560)
    (hi' : 6560 < s.field (s.bitPos + 16) 13) :
    tilePatternBody s = .error ⟨.badIndex, s.field (s.bitPos + 16) 13⟩ := by
  obtain ⟨u, q, hsync, hpos, honly, hroom, hbody⟩ := tilePatternBody_full (m := 26) hs hr hfull
  obtain ⟨a, ha, -, async, apos, aonly, aroom⟩ := readLine_field (common := false) (m := 13) hsync hroom
    fun _ => by rw [hpos, field_congr honly.mem]; exact hi
  have hapos : a.2.bitPos = s.bitPos + 16 := by rw [apos, hpos]; rfl
  rw [← hapos, ← field_congr (honly.trans aonly).mem] at hi' ⊢
  rw [hbody, ha, Run.bind_ok, readLine_badIndex async aroom hi', Run.bind_error]

theorem tileRowsBody_badIndex {s : State} {f : Byte} {r : Nat} (hs : s.Synced)
    (hflags : f = BitVec.ofNat 8 (s.field s.bitPos 8)) (h8 : r < 8) (hflag : f.getLsbD r = false)
    (hr : s.roomFor (8 + rowIndexPos f (r + 1)))
    (hi : ∀ r', r' < r → f.getLsbD r' = false → s.field (s.bitPos + 8 + rowIndexPos f r') 13 ≤ 6560)
    (hi' : 6560 < s.field (s.bitPos + 8 + rowIndexPos f r) 13) :
    tileRowsBody s = .error ⟨.badIndex, s.field (s.bitPos + 8 + rowIndexPos f r) 13⟩ := by
  obtain ⟨x, hx, hval, hsync, hpos, honly, hroom⟩ := readBits_field hs (by omega) (by omega) hr
  have hfield : ∀ pos, x.2.field pos 13 = s.field pos 13 := fun pos => field_congr honly.mem pos 13
  have hrows := perRow_badIndex (flags := f) (base := s.bitPos + 8) (n := 8) (r := 0) (k := r) hsync hpos
    (Nat.zero_le r) (by omega) hroom (fun i _ hlt hrow => by rw [hfield]; exact hi i hlt hrow) hflag
    (by rwa [hfield])
  rw [tileRowsBody, hx, Run.bind_ok, setWidth_ofNat hval, ← hflags, hrows, hfield, Run.bind_error]

/-- Settles O53: each place of an index has its own lemma on the tile type's effect. -/
theorem tileBadIndex : Obligations.TileBadIndex := by
  refine fun s hf hs => ⟨fun hr hi => ⟨?_, ?_⟩, fun hr hfull hi => ?_, fun hr hfull hi hi' => ?_,
    fun f r hflags h8 hflag hr hi hi' => ?_⟩
  · exact exec_fault_nat (i := .tileFull) hf (tileFullBody_badIndex hs hr hi)
  · exact exec_fault_nat (i := .tileFullAlt) hf (tileFullAltBody_badIndex hs hr hi)
  · exact exec_fault_nat (i := .tilePattern) hf (tilePatternBody_badFirst hs hr hfull hi)
  · exact exec_fault_nat (i := .tilePattern) hf (tilePatternBody_badSecond hs hr hfull hi hi')
  · exact exec_fault_nat (i := .tileRows) hf (tileRowsBody_badIndex hs hflags h8 hflag hr hi hi')

/-! ## One layer (R245, R254, R260) -/

/-- A layer that starts within `LEN` is the tile loop from its start, closed (R245). -/
theorem decodeLayerB_eq {k : Fin 3} {p : Nat} {s : State} (hp : p ≤ s.len.toNat) :
    decodeLayerB k p s = (forRange decodeSlot 0 1200 (s.openLayerB k p)).map State.closeLayerB := by
  rw [decodeLayerB, if_neg (Nat.not_lt.2 hp)]
  cases forRange decodeSlot 0 1200 (s.openLayerB k p) <;> rfl

theorem decodeLayerB_bounds {k : Fin 3} {p : Nat} {s : State} (hp : s.len.toNat < p) :
    decodeLayerB k p s = .error ⟨.bounds, p⟩ :=
  if_pos hp

/-- Settles O54: `tileLoop_run` and `tileLoop_fault` from slot 0, where `openLayerB` stands. -/
theorem tileLoopIsSteps : Obligations.TileLoopIsSteps := by
  intro k p s hf hp
  rw [decodeLayerB_eq hp]
  refine ⟨fun t h => ?_, fun e h => ?_⟩
  · obtain ⟨r, hr, rfl⟩ := Run.map_eq_ok.1 h
    exact tileLoop_run (n := 1199) (s := s.openLayerB k p) rfl hf rfl hr
  · obtain ⟨n, u, hn, hrun, hfaulted, hstatus, hfinfo⟩ :=
      tileLoop_fault (n := 1200) (s := s.openLayerB k p) rfl hf rfl (Run.map_eq_error.1 h)
    exact ⟨n, u, hn, hrun, hfaulted, by rw [hstatus, status_fcode], hfinfo⟩

/-- With a layer number that exists, the effect is `DecodeLayerB` with no frame cached after it (R260). -/
theorem fbDecodeLayerBody_layer {k : Byte} {s : State} (hk : k.toNat < 3) :
    fbDecodeLayerBody k s =
      (decodeLayerB ⟨k.toNat, hk⟩ s.arg0.toNat s).map fun r => { r with lastB := noFrame } := by
  have hlayer : Fin.ofNat 3 k.toNat = ⟨k.toNat, hk⟩ := Fin.ext (Nat.mod_eq_of_lt hk)
  rw [fbDecodeLayerBody, if_neg (by omega), hlayer, argUnsigned]
  cases decodeLayerB ⟨k.toNat, hk⟩ s.arg0.toNat s <;> rfl

theorem fbDecodeLayerBody_badLayer {k : Byte} {s : State} (hk : 3 ≤ k.toNat) :
    fbDecodeLayerBody k s = .error ⟨.badLayer, k.toNat⟩ :=
  if_pos hk

theorem exec_fbDecodeLayer_ok {k : Byte} {s t : State} (hf : s.faulted = false) (hk : k.toNat < 3)
    (h : decodeLayerB ⟨k.toNat, hk⟩ s.arg0.toNat s = .ok t) :
    exec (.fbDecodeLayer k) s = .next { t with lastB := noFrame } :=
  exec_of_body hf ((fbDecodeLayerBody_layer hk).trans (Run.map_eq_ok.2 ⟨t, h, rfl⟩))

theorem fbDecodeLayerBody_error {k : Byte} {s : State} {e : Raised} (hk : k.toNat < 3)
    (h : decodeLayerB ⟨k.toNat, hk⟩ s.arg0.toNat s = .error e) : fbDecodeLayerBody k s = .error e :=
  (fbDecodeLayerBody_layer hk).trans (Run.map_eq_error.2 h)

/-- Settles O56: the effect is `DecodeLayerB` of a layer that exists; `decodeLayerB_fits` says where it completes and
`decodeLayerB_spec` what it changes. -/
theorem fbDecodeLayer : Obligations.FbDecodeLayer := by
  refine fun k s hf => ⟨fun hk => ⟨fun t ht => exec_fbDecodeLayer_ok hf hk ht, fun e he => ?_, fun hfits => ?_⟩,
    fun hk hlen => ?_, fun hk => ?_⟩
  · exact exec_of_raise (i := .fbDecodeLayer k) hf (fbDecodeLayerBody_error hk he)
  · obtain ⟨t, ht, hskips⟩ := decodeLayerB_fits (k := ⟨k.toNat, hk⟩) hfits
    obtain ⟨-, honly, hother, -⟩ := decodeLayerB_spec ht
    refine ⟨_, exec_fbDecodeLayer_ok hf hk ht, ?_, hother, hskips⟩
    simp only
    rw [honly]
    rfl
  · exact exec_fault_word (i := .fbDecodeLayer k) hf (fbDecodeLayerBody_error hk (decodeLayerB_bounds hlen))
  · have h := exec_fault_nat (i := .fbDecodeLayer k) hf (fbDecodeLayerBody_badLayer hk)
    rwa [BitVec.ofNat_toNat] at h

/-! ## The reset of the decoder (R276) -/

/-- Settles O55: every pixel of an empty buffer is 0. -/
theorem fbReset : Obligations.FbReset :=
  ⟨decode_encode .fbReset, fun s hf =>
    ⟨{ s with lB := ⟨[], [], []⟩, lastB := noFrame }, exec_of_body hf rfl, rfl, layerB_empty⟩⟩

/-! ## The sequencer (R271 to R275) -/

/-- The layer loop and what comes after it, layer by layer (R273, R274). -/
theorem layersB_bind (fm : FrameMetaB) (mask : BitVec 3) (s : State) (f : State → Run State) :
    (layersB fm mask s >>= f) =
      ((if fm.size0 = 38 ∨ mask.getLsbD 0 = false then .ok s else decodeLayerB 0 fm.off s) >>= fun a =>
        (if fm.size1 = 38 ∨ mask.getLsbD 1 = false then .ok a
          else decodeLayerB 1 (fm.off + fm.size0) a) >>= fun b =>
        (if fm.size2 = 38 ∨ mask.getLsbD 2 = false then .ok b
          else decodeLayerB 2 (fm.off + fm.size0 + fm.size1) b) >>= f) := by
  simp only [layersB, layerIfB_eq, bind_assoc]
  rfl

/-- `FB_DECODE_FRAME` of index i is a request for all layers of frame i (R271). -/
theorem bodyOf_fbDecodeFrame {i n : Nat} {s : State} (hi : i < n) (hn : n < 2 ^ 32)
    (harg : s.arg0 = BitVec.ofNat 32 i) : bodyOf .fbDecodeFrame s = decodeFrameB i 0b111#3 false s := by
  show decodeFrameB s.arg0.toNat _ _ _ = _
  rw [harg, (index_ne_none hi hn).1]

/-- Frame 0, or the frame after the cached one, is its own layers (R272, R275). -/
theorem decodeFrameB_own {i : Nat} {s : State} {fm : FrameMetaB} (hcfg : s.ConfigLegal)
    (hentry : s.cfg.frameMetaB[i]? = some fm) (hlast : s.lastB ≠ BitVec.ofNat 32 i)
    (hprev : i = 0 ∨ s.lastB = BitVec.ofNat 32 (i - 1)) (mask : BitVec 3) (isPrev : Bool) :
    decodeFrameB i mask isPrev s =
      (layersB fm mask s >>= fun t => .ok { t with lastB := BitVec.ofNat 32 i }) := by
  have hi := getElem?_lt hentry
  refine decodeFrameB_alone hentry (cacheIs_other hi hcfg.2 hlast) ?_
  cases i with
  | zero => exact .inl rfl
  | succ j =>
    rw [hprev.resolve_left j.succ_ne_zero]
    exact .inr (cacheIs_pred_ofNat (Nat.lt_of_succ_lt hi) hcfg.2)

/-- What a completed layer loop, and then caching the frame, change: with three sentinel layers, the cache only
(R273, R274). -/
theorem layersB_frame {fm : FrameMetaB} {mask : BitVec 3} {s t : State} {w : Word}
    (h : layersB fm mask s = .ok t) :
    { t with lastB := w } = { s with
      offset := t.offset, acc := t.acc, dfc := t.dfc, lB := t.lB, lastB := w, inner := t.inner } ∧
    (fm.size0 = 38 → fm.size1 = 38 → fm.size2 = 38 → { t with lastB := w } = { s with lastB := w }) := by
  obtain ⟨hstep, -, -⟩ := layersB_spec h
  refine ⟨?_, fun h0 h1 h2 => ?_⟩
  · rw [hstep.only]
  · rw [layersB_sentinel h0 h1 h2] at h
    rw [Except.ok.inj h]

/-- Settles O57: `decodeFrameB_own` with the layer loop written out; it completes by `layersB_completes`. -/
theorem fbFrameAlone : Obligations.FbFrameAlone := by
  intro s i fm hf hcfg hentry hlast hprev
  have hown := decodeFrameB_own hcfg hentry hlast hprev
  refine ⟨fun mask isPrev => (hown mask isPrev).trans (layersB_bind ..), fun harg => ?_⟩
  have hbody := bodyOf_fbDecodeFrame (getElem?_lt hentry) hcfg.2 harg
  refine ⟨fun t ht => exec_of_body hf (hbody.trans ht), fun e he => exec_of_raise hf (hbody.trans he),
    fun h0 h1 h2 => ?_⟩
  obtain ⟨t, ht⟩ := layersB_completes (mask := 0b111#3) h0 h1 h2
  rw [hown, ht, Run.bind_ok, ← harg] at hbody
  obtain ⟨honly, hsentinels⟩ := layersB_frame (w := s.arg0) ht
  obtain ⟨hkept0, hkept1, hkept2⟩ := layersB_kept ht
  exact ⟨_, exec_of_body hf hbody, honly, hkept0, hkept1, hkept2, hsentinels⟩

/-- The mask m of a request for frame i: as asked, or for an ancestor request without the layers of the diff flag of
frame i + 1 (R272, R277). -/
def RequestMask (s : State) (i : Nat) (mask : BitVec 3) (isPrev : Bool) (m : BitVec 3) : Prop :=
  (isPrev = false ∧ m = mask) ∨
    (isPrev = true ∧ ∃ later, s.cfg.frameMetaB[i + 1]? = some later ∧ m = mask &&& ~~~later.diff)

/-- The mask the sequencer computes. -/
theorem RequestMask.eq {s : State} {i : Nat} {mask m : BitVec 3} {isPrev : Bool}
    (h : RequestMask s i mask isPrev m) : (if isPrev then mask &&& ~~~(diffOf s (i + 1)) else mask) = m := by
  rcases h with ⟨rfl, rfl⟩ | ⟨rfl, later, hlater, rfl⟩
  · rfl
  · rw [if_pos rfl, diffOf, hlater]

/-- A request for a frame whose predecessor is not cached either: the predecessor first, unless no layer is left,
then the frame's own layers (R272). -/
theorem decodeFrameB_request {i : Nat} {mask m : BitVec 3} {isPrev : Bool} {s : State} {fm : FrameMetaB}
    (hcfg : s.ConfigLegal) (hentry : s.cfg.frameMetaB[i + 1]? = some fm)
    (hlast : s.lastB ≠ BitVec.ofNat 32 (i + 1)) (hprev : s.lastB ≠ BitVec.ofNat 32 i)
    (hm : RequestMask s (i + 1) mask isPrev m) :
    decodeFrameB (i + 1) mask isPrev s =
      ((if m = 0#3 then .ok s else decodeFrameB i m true s) >>= fun t =>
        layersB fm m t >>= fun c => .ok { c with lastB := BitVec.ofNat 32 (i + 1) }) := by
  have hi := getElem?_lt hentry
  rw [decodeFrameB_chain hentry (cacheIs_other hi hcfg.2 hlast)
    (cacheIs_other (Nat.lt_of_succ_lt hi) hcfg.2 hprev), hm.eq]
  dsimp only
  split <;> rfl

/-- With no layer left such a request only caches the frame (R272). -/
theorem decodeFrameB_noLayer {i : Nat} {mask : BitVec 3} {isPrev : Bool} {s : State} {fm : FrameMetaB}
    (hcfg : s.ConfigLegal) (hentry : s.cfg.frameMetaB[i + 1]? = some fm)
    (hlast : s.lastB ≠ BitVec.ofNat 32 (i + 1)) (hprev : s.lastB ≠ BitVec.ofNat 32 i)
    (hm : RequestMask s (i + 1) mask isPrev 0#3) :
    decodeFrameB (i + 1) mask isPrev s = .ok { s with lastB := BitVec.ofNat 32 (i + 1) } := by
  rw [decodeFrameB_request hcfg hentry hlast hprev hm, if_pos rfl, Run.bind_ok, layersB_masked, Run.bind_ok]

/-- A request that is not made as an ancestor goes on from the state that the one for its predecessor leaves (R272). -/
theorem decodeFrameB_continue {i : Nat} {m : BitVec 3} {s t : State} {fm : FrameMetaB} (hcfg : s.ConfigLegal)
    (hentry : s.cfg.frameMetaB[i + 1]? = some fm) (hlast : s.lastB ≠ BitVec.ofNat 32 (i + 1))
    (hprev : s.lastB ≠ BitVec.ofNat 32 i) (hm : m ≠ 0#3) (ht : decodeFrameB i m true s = .ok t) :
    decodeFrameB (i + 1) m false s = decodeFrameB (i + 1) m false t := by
  have hi : i < s.cfg.frameMetaB.length := Nat.lt_of_succ_lt (getElem?_lt hentry)
  have htlast : t.lastB = BitVec.ofNat 32 i := decodeFrameB_lastB (cacheIs_other hi hcfg.2 hprev) ht
  have htentry : t.cfg.frameMetaB[i + 1]? = some fm := by rwa [(decodeFrameB_spec ht).2.1.same.2.2]
  have hcached : cacheIs t.lastB (i : Int) = true := by
    rw [htlast]
    exact cacheIs_self hi hcfg.2
  have hafter : cacheIs t.lastB (((i + 1 : Nat) : Int) - 1) = true := by
    rw [htlast]
    exact cacheIs_pred_ofNat hi hcfg.2
  rw [decodeFrameB_request hcfg hentry hlast hprev (.inl ⟨rfl, rfl⟩), if_neg hm, ht, Run.bind_ok,
    decodeFrameB_alone htentry (cacheIs_ne hcached (by omega)) (.inr hafter)]

theorem FrameStepB.faulted {s t : State} (h : FrameStepB s t) : t.faulted = s.faulted := by
  rw [h.only]
  rfl

theorem FrameStepB.arg0 {s t : State} (h : FrameStepB s t) : t.arg0 = s.arg0 := by
  rw [h.only]

/-- Settles O58: `decodeFrameB_request` with the layer loop written out; the command's own request has the same effect
from the state its ancestor request leaves. -/
theorem fbFrameChain : Obligations.FbFrameChain := by
  intro s i mask m isPrev fm hf hcfg hentry hlast hprev hmask
  have hi := getElem?_lt hentry
  have hrequest := decodeFrameB_request hcfg hentry hlast hprev hmask
  refine ⟨fun hm => ⟨fun t ht => ⟨?_, ?_⟩, fun e he => ?_⟩, ?_, fun harg => ?_⟩
  · exact decodeFrameB_lastB (cacheIs_other (Nat.lt_of_succ_lt hi) hcfg.2 hprev) ht
  · rw [hrequest, if_neg hm, ht, Run.bind_ok, layersB_bind]
  · rw [hrequest, if_neg hm, he, Run.bind_error]
  · rintro rfl
    exact decodeFrameB_noLayer hcfg hentry hlast hprev hmask
  · have hbody := bodyOf_fbDecodeFrame hi hcfg.2 harg
    refine ⟨fun t ht => exec_of_body hf (hbody.trans ht), fun e he => exec_of_raise hf (hbody.trans he),
      fun t ht u hu => ?_⟩
    obtain ⟨-, hstep, -⟩ := decodeFrameB_spec ht
    have htf : t.faulted = false := hstep.faulted.trans hf
    have hsame : bodyOf .fbDecodeFrame s = bodyOf .fbDecodeFrame t := by
      rw [hbody, decodeFrameB_continue hcfg hentry hlast hprev (by decide) ht,
        bodyOf_fbDecodeFrame hi hcfg.2 (hstep.arg0.trans harg)]
    exact ⟨fun huf => exec_of_body hf (hsame.trans (exec_body nofun htf huf hu)),
      exec_fault_of_faulted hu nofun htf hf fun e he => hsame.trans he⟩

/-! ## Ancestor requests and the cache (R271, R277, R278) -/

/-- The mask of an ancestor request for frame i, which needs its own predecessor. -/
theorem narrowMask_ancestor {s : State} {i : Nat} {mask : BitVec 3} {fm : FrameMetaB}
    (hentry : s.cfg.frameMetaB[i + 1]? = some fm) (hneeds : needsAncestorB s i = true) :
    narrowMask s i mask true = mask &&& ~~~fm.diff := by
  rw [narrowMask, hneeds, diffOf, hentry]
  rfl

/-- A frame other than frame 0 whose predecessor is not cached needs it. -/
theorem needsAncestorB_succ {s : State} {i : Nat} (h : cacheIs s.lastB (i : Int) = false) :
    needsAncestorB s (i + 1) = true := by
  rw [needsAncestorB, show ((i + 1 : Nat) : Int) - 1 = i by omega, h]
  rfl

/-- Settles O59: a layer outside the narrowed mask is kept, by `decodeFrameB_spec`; and where the mask is 0,
`decodeFrameB_noLayer`. -/
theorem fbAncestorMask : Obligations.FbAncestorMask := by
  intro s i mask fm hcfg hentry hpos hlast hprev
  obtain ⟨j, rfl⟩ := Nat.exists_eq_succ_of_ne_zero hpos.ne'
  have hi : j + 1 < s.cfg.frameMetaB.length := Nat.lt_of_succ_lt (getElem?_lt hentry)
  refine ⟨fun t ht k hk => (decodeFrameB_spec ht).2.2.2 k ?_, fun hzero => ?_⟩
  · rw [narrowMask_ancestor hentry
      (needsAncestorB_succ (cacheIs_other (Nat.lt_of_succ_lt hi) hcfg.2 hprev)),
      BitVec.getLsbD_and, BitVec.getLsbD_not]
    rcases hk with hk | hk
    · rw [hk, Bool.not_true, Bool.and_false, Bool.and_false]
    · rw [hk, Bool.false_and]
  · exact decodeFrameB_noLayer hcfg (List.getElem?_eq_getElem hi) hlast hprev
      (.inr ⟨rfl, fm, hentry, hzero.symm⟩)

/-- A frame that decodes is left alone by a second request for it (R278). -/
theorem decodeFrameB_twice {i : Nat} {mask : BitVec 3} {isPrev : Bool} {s t : State} (hcfg : s.ConfigLegal)
    (h : decodeFrameB i mask isPrev s = .ok t) : decodeFrameB i mask isPrev t = .ok t := by
  obtain ⟨hi, hstep, hcase, -⟩ := decodeFrameB_spec h
  have hcached : cacheIs t.lastB (i : Int) = true := by
    rcases hcase with ⟨hc, rfl⟩ | ⟨-, hlast⟩
    · exact hc
    · rw [hlast]
      exact cacheIs_self hi hcfg.2
  exact decodeFrameB_cached (by rwa [hstep.same.2.2]) hcached

/-- Settles O60: the cached frame and the index past the table are two cases of the sequencer, and the second call
finds its frame cached. -/
theorem fbFrameLookup : Obligations.FbFrameLookup := by
  refine ⟨fun s hf hlast hnone hlt => ?_, fun s hf hle => ?_, fun s t hf hcfg hexec ht => ?_⟩
  · have hcached : cacheIs s.lastB s.arg0.toNat = true := by
      rw [← hlast]
      exact cacheIs_iff.2 ⟨hnone, rfl⟩
    exact exec_of_body (i := .fbDecodeFrame) hf (decodeFrameB_cached hlt hcached)
  · exact exec_fault_word (i := .fbDecodeFrame) hf (decodeFrameB_range hle)
  · have hbody : decodeFrameB s.arg0.toNat 0b111#3 false s = .ok t :=
      exec_body (i := .fbDecodeFrame) nofun hf ht hexec
    refine exec_of_body ht (show decodeFrameB t.arg0.toNat 0b111#3 false t = .ok t from ?_)
    rw [(decodeFrameB_spec hbody).2.1.arg0]
    exact decodeFrameB_twice hcfg hbody

end Sys2Proof.Machine
end

section
/-! The family of 60_exceptions.md: what a raise records (R301), what a fault keeps (R305), and what a faulted block
does with the host's accesses (R306, R308). -/

namespace Sys2Proof.Machine

/-! ## What a raise records (R301) -/

/-- A code moved to its place in `STATUS` meets none of the bits outside `FAULTED` and `FCODE`. -/
theorem fcodeShift_and_otherBits (code : Byte) : (code.setWidth 32 <<< 8) &&& 0xFFFF00FE#32 = 0#32 := by
  revert code
  decide +kernel

/-- Recording a fault keeps the bits of `STATUS` outside `FAULTED` and `FCODE`. -/
theorem statusWithFault_otherBits (st : Word) (code : Byte) :
    statusWithFault st code &&& 0xFFFF00FE#32 = st &&& 0xFFFF00FE#32 := by
  have hflag : 1#32 &&& 0xFFFF00FE#32 = 0#32 := by decide
  rw [statusWithFault, BitVec.and_or_distrib_right, BitVec.and_or_distrib_right, BitVec.and_assoc, BitVec.and_self,
    fcodeShift_and_otherBits, hflag, BitVec.or_zero, BitVec.or_zero]

/-- Settles O8: the first fault is recorded (`raise_recorded`), a later one is not (`raise_of_faulted`). -/
theorem raiseRecords : Obligations.RaiseRecords := by
  refine fun c info s => ⟨raise_of_faulted, fun hf => ⟨raise_recorded ⟨c, info⟩ hf, ?_⟩, fun _ => rfl, attempt_error⟩
  rw [raise_of_running hf]
  exact statusWithFault_otherBits _ _

/-! ## What a fault keeps (R305) -/

/-- `RESET` leaves the block running. -/
theorem resetOf_faulted (s : State) : (resetOf s).faulted = false :=
  show statusFaulted 0#32 = false by decide

/-- Settles O11: `RESET` leaves a running block; any other instruction that leaves a faulted one has raised. -/
theorem faultKeeps : Obligations.FaultKeeps := by
  intro i s t hf h ht
  have hi : i ≠ .reset := by
    rintro rfl
    obtain rfl : resetOf s = t := Host.Outcome.next.inj h
    exact Bool.false_ne_true ((resetOf_faulted s).symm.trans ht)
  obtain ⟨f, -, rfl⟩ := exec_raised hi hf h ht
  have hrec := raise_recorded f hf
  rw [hrec.fcode, hrec.finfo]
  exact ⟨hrec, fcodeOf_range f.code⟩

/-! ## A faulted block (R306, R308) -/

/-- A faulted block serves the host, whatever loop it was in. -/
theorem step_of_faulted {s : State} (hf : s.faulted = true) : step s = hostStep s := by
  rw [step, if_pos hf]

/-- The host's write to `CMD` issues the word. -/
theorem hostStep_write {s : State} {w : Word} {q : List HostAccess} (hh : s.host = .writeReg 0 w :: q) :
    hostStep s = issue w { s with cmd := w, host := q } := by
  rw [hostStep, hh]
  rfl

/-- A faulted block refuses every word but `RESET`'s, whether or not it decodes. -/
theorem issue_of_faulted {w : Word} {s : State} (hf : s.faulted = true) (hw : w ≠ 0x000000FF#32) :
    issue w s = .next s := by
  unfold issue
  split
  case h_1 i hi =>
    refine exec_of_faulted ?_ hf
    rintro rfl
    exact hw (decodeCmd_reset hi)
  case h_2 => rw [raise_of_faulted hf]

/-- Settles O9: the step is the host's write, and the word it issues is refused (`issue_of_faulted`). -/
theorem refusedWhileFaulted : Obligations.RefusedWhileFaulted := by
  intro s w q hf hh hw
  rw [step_of_faulted hf, hostStep_write hh]
  exact issue_of_faulted hf hw

/-- Settles O10: of the three things that `step_next` says a step can do, recording a fault needs a running block. -/
theorem faultSticky : Obligations.FaultSticky := by
  intro s t hf h
  rcases step_next h with hquiet | hfault | ⟨q, hh, -⟩
  · exact .inl ⟨by rw [State.faulted, hquiet.status]; exact hf, hquiet.status, hquiet.finfo⟩
  · exact absurd hf (by rw [hfault.running]; decide)
  · exact .inr ⟨q, hh⟩

end Sys2Proof.Machine
end

section
/-! The family of 70_reset_and_hazards.md: the power-on state (R340), that it meets the machine's invariant, and the
`RESET` command (R341). -/

namespace Sys2Proof.Machine

/-! ## Power-on reset (R340) -/

theorem reset_stored : State.reset.Stored :=
  ⟨⟨rfl, rfl⟩, LayersA.ok_empty, LayersA.ok_empty, LayersB.ok_empty⟩

theorem reset_configLegal : State.reset.ConfigLegal :=
  ⟨by decide, by decide⟩

/-- No frame is cached at reset. -/
theorem reset_cacheLegal : State.reset.CacheLegal :=
  ⟨fun h => absurd rfl h, fun h => absurd rfl h, fun _ => rfl, fun _ => rfl, fun _ => rfl⟩

/-- Settles O14: each part of the invariant by its own `reset_` lemma; no loop runs at reset. -/
theorem invAtReset : Obligations.InvAtReset where
  stored := reset_stored
  status := reset_statusLegal
  config := reset_configLegal
  cursor _ := reset_cursorLegal
  adpcm _ := reset_adpcmLegal
  cache _ := reset_cacheLegal
  idle _ := rfl

/-- Settles O16: the registers by evaluation; the buffers are empty, and every pixel of an empty buffer is 0. -/
theorem powerOnState : Obligations.PowerOnState :=
  ⟨rfl, rfl, rfl, rfl, rfl, rfl, rfl, rfl, rfl, rfl, rfl, rfl, rfl, rfl, rfl, rfl, rfl,
    fun k p => ⟨pixelA_empty k p, pixelA_empty k p⟩, layerB_empty⟩

/-! ## The `RESET` command (R341) -/

/-- A word with `RESET`'s opcode that is another word has a field that must be 0 and is not. -/
theorem rsvField_or_imm8Field_ne_zero {w : Word} (hop : opField w = 0xFF#8) (hw : w ≠ 0x000000FF#32) :
    rsvField w ≠ 0#16 ∨ imm8Field w ≠ 0#8 := by
  by_contra! h
  obtain ⟨hrsv, himm⟩ := h
  have hfields := cmdWord_fields w hrsv
  rw [hop, himm] at hfields
  exact hw hfields.symm

/-- Settles O17: `RESET`'s word is its encoding and its effect is `resetOf`; another word with its opcode is one of
the illegal words of R95 (`illegalWordsFault`), refused while faulted (`refusedWhileFaulted`). -/
theorem resetCommand : Obligations.ResetCommand := by
  refine ⟨decode_encode .reset, exec_reset, fun s w q hop hw hseq hh => ⟨fun hf => ?_, fun hf => ?_⟩⟩
  · have hplain : opField w ∉ operandOps := by rw [hop]; decide
    refine illegalWordsFault s w q hf hseq hh ?_
    exact (rsvField_or_imm8Field_ne_zero hop hw).imp_right fun himm => .inr ⟨hplain, himm⟩
  · exact refusedWhileFaulted s w q hf hh hw

end Sys2Proof.Machine
end
